-- ==== Sys2Proof/Word.lean ====
section
/-! DEFINITION. The words of the codec block: symbols, codes, port words, and the names of its two units. -/

namespace Sys2Proof

/-- A Symbol: "a single byte (0–255)", `SYM_W = 8` (R7). -/
abbrev Symbol := BitVec 8

/-- A Code on a port or in a register: 32 bits, unsigned, `CODE_W = 32` (R9). -/
abbrev Code := BitVec 32

/-- The `arg` field of a command word and the `info` register: 32 bits (R34, R80). -/
abbrev Arg := BitVec 32

/-- The `next_code` register: `NEXT_W = 33` bits, so that it can hold 2^32 (R11, R30). -/
abbrev NextCode := BitVec 33

/-- A command word on the command port: `CMD_W = 36` bits (R80). -/
abbrev CmdWord := BitVec 36

/-- A dictionary request word on a unit's private port: `DREQ_W = 43` bits (R88). -/
abbrev ReqWord := BitVec 43

/-- A byte of the serialized format outside the block (R62). -/
abbrev Byte := BitVec 8

/-- The two agents of the block (R18): the encoder and the decoder. Each owns one dictionary unit (R2). -/
inductive UnitId where
  | enc
  | dec
  deriving DecidableEq, Repr

/-- `ALPHABET = 256`: the number of seed entries (R7). -/
def alphabet : Nat := 256

/-- `FIRST_FREE = 256`: the first code an insertion assigns (R8). -/
def firstFree : Nat := 256

end Sys2Proof
end

