-- ==== Sys2Proof/Config.lean ====
section
/-! DEFINITION. What is fixed when the block is built: the capacity `DICT_CAP` of both dictionaries, an OPEN parameter of the spec (R10, D3). -/

namespace Sys2Proof

/-- `DICT_CAP`: the greatest number of entries a dictionary unit can hold, the 256 seeds counted, or the value
`unbounded` (R10). Which finite numbers are admitted is `Config.wf`. -/
inductive DictCap where
  | unbounded
  | finite (entries : Nat)
  deriving DecidableEq, Repr

/-- The configuration of one block, fixed for its life (R40); "both dictionary units of one block take the same
`DICT_CAP`" (R10). No step changes it. DESIGN CHOICE: it travels inside `State` (log entry 1), because the step
takes nothing but the state; a statement over every state is then a statement for every `DICT_CAP`. -/
structure Config where
  dictCap : DictCap
  deriving DecidableEq, Repr

end Sys2Proof
end

