-- ==== Sys2Proof/Syntax.lean ====
section
/-! DEFINITION. The twelve instructions of the opcode table: six host commands (R85) and six internal dictionary requests (R89). -/

namespace Sys2Proof

/-- One constructor per row of the opcode table. A command carries the operand of its format: none (format N, R82),
a symbol (format S, R83) or a code (format K, R84). A request carries, besides the operands of its word (R89), the
unit whose private port the word is on: the word itself has no field for it, "only the owner of a dictionary issues
requests to it" (R88). -/
inductive Instr where
  /-- `ENC.START` (R120). -/
  | encStart
  /-- `ENC.SYM c` (R121). -/
  | encSym (sym : Symbol)
  /-- `ENC.END` (R122). -/
  | encEnd
  /-- `DEC.START` (R140). -/
  | decStart
  /-- `DEC.CODE k` (R141). -/
  | decCode (code : Code)
  /-- `DEC.END` (R142). -/
  | decEnd
  /-- `D.SEED` (R104). -/
  | dSeed (owner : UnitId)
  /-- `D.BOUND k` (R105). -/
  | dBound (owner : UnitId) (code : Code)
  /-- `D.LOOKUP p, c` (R106). -/
  | dLookup (owner : UnitId) (parent : Code) (sym : Symbol)
  /-- `D.INSERT p, c` (R107). -/
  | dInsert (owner : UnitId) (parent : Code) (sym : Symbol)
  /-- `D.FETCH k` (R110). -/
  | dFetch (owner : UnitId) (code : Code)
  /-- `D.FIRST k` (R111). -/
  | dFirst (owner : UnitId) (code : Code)
  deriving DecidableEq, Repr

end Sys2Proof
end

