-- ==== Sys2Proof/WellFormed.lean ====
section
/-! DEFINITION. Which configurations and instructions are well formed. The widths of operands are in their types; what is left to check is the range of `DICT_CAP` (R10) and which unit issues which request (R104 to R111). -/

namespace Sys2Proof

/-- `DICT_CAP` is "a natural number with 257 ≤ `DICT_CAP` ≤ 2^32, or the value `unbounded`" (R10). -/
def DictCap.wf : DictCap → Bool
  | .unbounded => true
  | .finite n => decide (257 ≤ n) && decide (n ≤ 2 ^ 32)

/-- A configuration is well formed when its `DICT_CAP` is one R10 admits. -/
def Config.wf (c : Config) : Bool := c.dictCap.wf

/-- The unit a request instruction is on issues that request: `D.SEED` and `D.INSERT` are issued by both units
(R104, R107), `D.LOOKUP` "by `ENC.SYM` only" (R106), `D.FETCH` and `D.FIRST` "by `DEC.CODE` only" (R110, R111), and
`D.BOUND` by `DEC.CODE` (R141; no encoder command lists it, R120 to R122). A command is always well formed: its
operand's type is its field. -/
def Instr.wf : Instr → Bool
  | .encStart => true
  | .encSym _ => true
  | .encEnd => true
  | .decStart => true
  | .decCode _ => true
  | .decEnd => true
  | .dSeed _ => true
  | .dBound u _ => u == .dec
  | .dLookup u _ _ => u == .enc
  | .dInsert _ _ _ => true
  | .dFetch u _ => u == .dec
  | .dFirst u _ => u == .dec

end Sys2Proof
end

