-- ==== Sys2Proof/Decode.lean ====
section
/-! DEFINITION. Decoding and encoding of command words (R80 to R87) and dictionary request words (R88 to R90), by fields, and the opcode table's match and mask rows beside it. -/

namespace Sys2Proof

/-- A word on one of the block's input ports: a command word on the host's command port, or a request word on the
private port between a unit and its dictionary (R88). -/
inductive PortWord where
  | command (w : CmdWord)
  | request (owner : UnitId) (w : ReqWord)
  deriving DecidableEq, Repr

/-- Why a word spells nothing. -/
inductive Reject where
  /-- A command word whose `op` is 0x0, 0x4 or 0x8 to 0xF (R86). -/
  | noSuchOp (op : BitVec 4)
  /-- A format-N command word with a non-zero `arg` (R82, R86). -/
  | argNotZero (arg : Arg)
  /-- An `ENC.SYM` word with `arg[31:8]` not zero (R83, R86). -/
  | highArgNotZero (high : BitVec 24)
  /-- A request word whose `dop` is 0 or 7 (R89, R90). -/
  | noSuchDop (dop : BitVec 3)
  /-- A request word with a non-zero `code` where its row demands zero (R90). -/
  | codeNotZero (code : Code)
  /-- A request word with a non-zero `sym` where its row demands zero (R90). -/
  | symNotZero (sym : Symbol)
  deriving DecidableEq, Repr

/-! ## Fields -/

/-- `op`, bits 35:32 of a command word (R80). -/
def cmdOp (w : CmdWord) : BitVec 4 := w.extractLsb' 32 4

/-- `arg`, bits 31:0 of a command word (R80). -/
def cmdArg (w : CmdWord) : Arg := w.extractLsb' 0 32

/-- `sym = arg[7:0]` of an operand (R83, R91). -/
def argSym (arg : Arg) : Symbol := arg.extractLsb' 0 8

/-- `arg[31:8]` of an operand, which format S demands to be zero (R83). -/
def argHigh (arg : Arg) : BitVec 24 := arg.extractLsb' 8 24

/-- `dop`, bits 42:40 of a request word (R88). -/
def reqDop (w : ReqWord) : BitVec 3 := w.extractLsb' 40 3

/-- `code`, bits 39:8 of a request word (R88). -/
def reqCode (w : ReqWord) : Code := w.extractLsb' 8 32

/-- `sym`, bits 7:0 of a request word (R88). -/
def reqSym (w : ReqWord) : Symbol := w.extractLsb' 0 8

/-! ## Decoding -/

/-- Format N: `arg` must be 0 (R82). -/
def formatN (arg : Arg) (i : Instr) : Except Reject Instr :=
  if arg = 0 then .ok i else .error (.argNotZero arg)

/-- Format S: `arg[31:8]` must be 0 (R83). -/
def formatS (arg : Arg) : Except Reject Instr :=
  if argHigh arg = 0 then .ok (.encSym (argSym arg)) else .error (.highArgNotZero (argHigh arg))

/-- The decode function of command words, "from 36-bit words to the six commands and refused", total (R85, R86). -/
def decodeCommand (w : CmdWord) : Except Reject Instr :=
  match (cmdOp w).toNat with
  | 1 => formatN (cmdArg w) .encStart
  | 2 => formatS (cmdArg w)
  | 3 => formatN (cmdArg w) .encEnd
  | 5 => formatN (cmdArg w) .decStart
  | 6 => .ok (.decCode (cmdArg w))
  | 7 => formatN (cmdArg w) .decEnd
  | _ => .error (.noSuchOp (cmdOp w))

/-- `sym` must be 0 where the operation takes none (R88). -/
def noSym (w : ReqWord) (i : Instr) : Except Reject Instr :=
  if reqSym w = 0 then .ok i else .error (.symNotZero (reqSym w))

/-- `code` and `sym` must be 0 (`D.SEED`, R89). -/
def noOperand (w : ReqWord) (i : Instr) : Except Reject Instr :=
  if reqCode w = 0 then noSym w i else .error (.codeNotZero (reqCode w))

/-- The decode function of request words on the private port of unit `u` (R89, R90). -/
def decodeRequest (u : UnitId) (w : ReqWord) : Except Reject Instr :=
  match (reqDop w).toNat with
  | 1 => noOperand w (.dSeed u)
  | 2 => noSym w (.dBound u (reqCode w))
  | 3 => .ok (.dLookup u (reqCode w) (reqSym w))
  | 4 => .ok (.dInsert u (reqCode w) (reqSym w))
  | 5 => noSym w (.dFetch u (reqCode w))
  | 6 => noSym w (.dFirst u (reqCode w))
  | _ => .error (.noSuchDop (reqDop w))

/-- Decoding of a word on either kind of port. -/
def decode : PortWord → Except Reject Instr
  | .command w => decodeCommand w
  | .request u w => decodeRequest u w

/-! ## Encoding -/

/-- The command word `{op, arg}` (R80). -/
def cmdWord (op : BitVec 4) (arg : Arg) : CmdWord := op ++ arg

/-- The operand word of a symbol: `arg[31:8] = 0`, `arg[7:0] = sym` (R83). -/
def symArgWord (c : Symbol) : Arg := (0 : BitVec 24) ++ c

/-- The request word `{dop, code, sym}` (R88). -/
def reqWord (dop : BitVec 3) (code : Code) (sym : Symbol) : ReqWord := dop ++ (code ++ sym)

/-- The word of an instruction, from the tables of R85 and R89. -/
def encode : Instr → PortWord
  | .encStart => .command (cmdWord 1 0)
  | .encSym c => .command (cmdWord 2 (symArgWord c))
  | .encEnd => .command (cmdWord 3 0)
  | .decStart => .command (cmdWord 5 0)
  | .decCode k => .command (cmdWord 6 k)
  | .decEnd => .command (cmdWord 7 0)
  | .dSeed u => .request u (reqWord 1 0 0)
  | .dBound u k => .request u (reqWord 2 k 0)
  | .dLookup u p c => .request u (reqWord 3 p c)
  | .dInsert u p c => .request u (reqWord 4 p c)
  | .dFetch u k => .request u (reqWord 5 k 0)
  | .dFirst u k => .request u (reqWord 6 k 0)

/-! ## The rows of the opcode table -/

/-- One row of R85's or R89's table: "a word `w` spells the command of a row exactly when `(w & mask) == match`". -/
structure Row (n : Nat) where
  mnemonic : String
  want : BitVec n
  mask : BitVec n
  deriving DecidableEq, Repr

/-- `(w & mask) == match` (R85). -/
def Row.spells {n : Nat} (r : Row n) (w : BitVec n) : Bool := w &&& r.mask == r.want

/-- The six rows of R85. -/
def commandRows : List (Row 36) :=
  [⟨"ENC.START", 0x100000000, 0xFFFFFFFFF⟩,
   ⟨"ENC.SYM", 0x200000000, 0xFFFFFFF00⟩,
   ⟨"ENC.END", 0x300000000, 0xFFFFFFFFF⟩,
   ⟨"DEC.START", 0x500000000, 0xFFFFFFFFF⟩,
   ⟨"DEC.CODE", 0x600000000, 0xF00000000⟩,
   ⟨"DEC.END", 0x700000000, 0xFFFFFFFFF⟩]

/-- The six rows of R89. -/
def requestRows : List (Row 43) :=
  [⟨"D.SEED", 0x10000000000, 0x7FFFFFFFFFF⟩,
   ⟨"D.BOUND", 0x20000000000, 0x700000000FF⟩,
   ⟨"D.LOOKUP", 0x30000000000, 0x70000000000⟩,
   ⟨"D.INSERT", 0x40000000000, 0x70000000000⟩,
   ⟨"D.FETCH", 0x50000000000, 0x700000000FF⟩,
   ⟨"D.FIRST", 0x60000000000, 0x700000000FF⟩]

/-- The mnemonic of an instruction, as the tables of R85 and R89 spell it. -/
def Instr.mnemonic : Instr → String
  | .encStart => "ENC.START"
  | .encSym _ => "ENC.SYM"
  | .encEnd => "ENC.END"
  | .decStart => "DEC.START"
  | .decCode _ => "DEC.CODE"
  | .decEnd => "DEC.END"
  | .dSeed _ => "D.SEED"
  | .dBound _ _ => "D.BOUND"
  | .dLookup _ _ _ => "D.LOOKUP"
  | .dInsert _ _ _ => "D.INSERT"
  | .dFetch _ _ => "D.FETCH"
  | .dFirst _ _ => "D.FIRST"

/-- The mnemonics of the rows that a port word matches by mask. -/
def spelledBy : PortWord → List String
  | .command w => (commandRows.filter (·.spells w)).map (·.mnemonic)
  | .request _ w => (requestRows.filter (·.spells w)).map (·.mnemonic)

/-! ## Words numbered as the opcode table numbers them -/

/-- The unit whose commands issue the request a word spells: `DEC` for `D.BOUND`, `D.FETCH` and `D.FIRST`, `ENC` for
the others (R104 to R111, R141). DESIGN CHOICE (log entry 8): it only places a table word on a port. -/
def issuer (w : ReqWord) : UnitId :=
  match (reqDop w).toNat with
  | 2 => .dec
  | 5 => .dec
  | 6 => .dec
  | _ => .enc

/-- The port a word of the opcode table arrives on, told by its value: every word below 2^36 can only be a command
word, every row of R89 has a word of at least 2^40. DESIGN CHOICE (log entry 8). -/
def tablePort (w : Nat) : Option PortWord :=
  if w < 2 ^ 36 then some (.command (BitVec.ofNat 36 w))
  else if w < 2 ^ 43 then some (.request (issuer (BitVec.ofNat 43 w)) (BitVec.ofNat 43 w))
  else none

/-- The instruction the decoder reads from an instruction whose bits are `w`, `nbits` of them. -/
def decodeTableWord (nbits w : Nat) : Option Instr :=
  if w < 2 ^ nbits then
    match tablePort w with
    | some p => match decode p with
      | .ok i => some i
      | .error _ => none
    | none => none
  else none

end Sys2Proof
end

