-- ==== Sys2Proof/Machine/Operands.lean ====
section
/-! DEFINITION. Operand assembly (R91): every operand is taken from its word as it stands and widened with zeros. -/

namespace Sys2Proof.Machine

/-- `zext_32(sym)`: a symbol used as a code; "the code of `[c]` is `c`" (R91). -/
def zext32 (c : Symbol) : Code := c.setWidth 32

/-- `zext_33(code)`: a code widened for a comparison with `next_code` (R105, R108). -/
def zext33 (k : Code) : NextCode := k.setWidth 33

/-- `k[7:0]`, the symbol of a seed code (R102, R103). -/
def lowSym (k : Code) : Symbol := k.setWidth 8

/-- `next_code[31:0]`, the code an insertion assigns (R107). -/
def lowCode (n : NextCode) : Code := n.setWidth 32

/-- The `arg` field of the command word that spells an instruction: what a fault records in `info` (D29, R160). A
request word has no `arg`. -/
def argOf : Instr → Arg
  | .encStart => 0
  | .encSym c => zext32 c
  | .encEnd => 0
  | .decStart => 0
  | .decCode k => k
  | .decEnd => 0
  | .dSeed _ => 0
  | .dBound _ _ => 0
  | .dLookup _ _ _ => 0
  | .dInsert _ _ _ => 0
  | .dFetch _ _ => 0
  | .dFirst _ _ => 0

/-- The unit a command is addressed to, `op[2]` of its word (R81). A request is on a private port and addressed to no
unit by the host. -/
def commandUnit : Instr → Option UnitId
  | .encStart => some .enc
  | .encSym _ => some .enc
  | .encEnd => some .enc
  | .decStart => some .dec
  | .decCode _ => some .dec
  | .decEnd => some .dec
  | .dSeed _ => none
  | .dBound _ _ => none
  | .dLookup _ _ _ => none
  | .dInsert _ _ _ => none
  | .dFetch _ _ => none
  | .dFirst _ _ => none

/-- The unit whose dictionary an instruction serves or whose command it is. -/
def ownerOf : Instr → UnitId
  | .encStart => .enc
  | .encSym _ => .enc
  | .encEnd => .enc
  | .decStart => .dec
  | .decCode _ => .dec
  | .decEnd => .dec
  | .dSeed u => u
  | .dBound u _ => u
  | .dLookup u _ _ => u
  | .dInsert u _ _ => u
  | .dFetch u _ => u
  | .dFirst u _ => u

end Sys2Proof.Machine
end

