-- ==== Sys2Proof/Machine/State.lean ====
section
/-! DEFINITION. The whole state of the block as plain data (R20), the reasons a step can stop, and the state after reset (R41). -/

namespace Sys2Proof.Machine

/-- The sequencer state of a unit, 2 bits (R21, R25). Its numbers are `SeqState.code`. -/
inductive SeqState where
  /-- 0: no call has begun since reset. -/
  | idle
  /-- 1: a call is in progress. -/
  | run
  /-- 2: the last call completed. -/
  | done
  /-- 3: the last call, or a command outside a call, ended in a fault. -/
  | fault
  deriving DecidableEq, Repr

/-- The value of a `cause` register, 3 bits; values 4 to 7 are never written (R160). Its numbers are `Cause.code`. -/
inductive Cause where
  | none
  | invalidData
  | dictFull
  | protocol
  deriving DecidableEq, Repr

/-- The registers every unit has for its call: `state`, `cause`, `info`, `sticky` (R20, R34, R35). -/
structure Control where
  state : SeqState
  cause : Cause
  info : Arg
  sticky : Bool
  deriving DecidableEq, Repr

/-- One dictionary entry, the pair `(parent, sym)`, 40 bits (R28). -/
structure Entry where
  parent : Code
  sym : Symbol
  deriving DecidableEq, Repr

/-- An entry memory: the written cells as pairs of code address and entry, addresses strictly rising
(`Memory.wf`). An address that is not listed holds no value (`Memory.unlisted`, log entry 4). -/
abbrev Memory := List (Nat × Entry)

/-- A dictionary unit: `next_code` (R30) and the entry memory `mem` (R28). -/
structure Dict where
  nextCode : NextCode
  mem : Memory
  deriving DecidableEq, Repr

/-- The encoder unit (R20 to R23). -/
structure Encoder where
  ctl : Control
  matchValid : Bool
  matchCode : Code
  /-- The codes emitted in the current call, oldest first (R32). -/
  out : List Code
  dict : Dict
  deriving DecidableEq, Repr

/-- The decoder unit (R20, R25 to R27). -/
structure Decoder where
  ctl : Control
  prevValid : Bool
  prevCode : Code
  /-- The symbols emitted in the current call, oldest first (R32). -/
  out : List Symbol
  dict : Dict
  deriving DecidableEq, Repr

/-- A String: "an ordered, non-empty sequence of Symbols" (R13). The type has no empty value. -/
structure Str where
  head : Symbol
  tail : List Symbol
  deriving DecidableEq, Repr

/-- The answer of `D.LOOKUP` (R106). -/
inductive LookupReply where
  | hit (k : Code)
  | miss
  deriving DecidableEq, Repr

/-- The answer of `D.INSERT` (R107). -/
inductive InsertReply where
  | ok (k : Code)
  | full
  deriving DecidableEq, Repr

/-- The answer a dictionary gives its owner (R89); `D.SEED` has none. -/
inductive Reply where
  | bound (b : Bool)
  | lookup (r : LookupReply)
  | insert (r : InsertReply)
  | fetch (s : Str)
  | first (c : Symbol)
  deriving DecidableEq, Repr

/-- What the host does at the block's inputs: present a command word (R56), or assert and release `rst` (R190).
`presented` are the words the host puts on the command port while `rst` is asserted; they are not accepted (R190). -/
inductive HostEvent where
  | command (w : CmdWord)
  | reset (presented : List CmdWord)
  deriving DecidableEq, Repr

/-- Why the machine stops on a dictionary memory access. These are not the block's own faults (those are values of
`cause`, and the machine goes on): no state that a run from reset reaches raises one (R43). -/
inductive Fault where
  /-- Raised by `D.LOOKUP`, `D.FETCH` and `D.FIRST` on an assigned cell that nothing has written: its contents are
  unspecified (R41). Safe: the model stops where the hardware reads some value. -/
  | unwrittenEntry (k : Nat)
  /-- Raised by `D.FETCH` and `D.FIRST` on an entry whose parent is not below it, where the recursion of R102 has no
  end. Safe: the model stops. -/
  | brokenChain (k : Code)
  /-- Raised by `D.INSERT` where the address it would write has no cell: at or above `DICT_CAP` (R52), below 256 (R29),
  or 2^32 entries in an unbounded dictionary (R108). Safe: the model stops. -/
  | noSuchCell (k : Code)
  deriving DecidableEq, Repr

/-- Why an instruction has no meaning. -/
inductive Refusal where
  /-- An instruction of the table whose meaning is not written yet. No arm of `exec` uses it. -/
  | notModelled (mnemonic : String)
  /-- A request whose code or parent is not bound; a model "must not return a value" (R112, D30). Raised by
  `D.LOOKUP`, `D.INSERT`, `D.FETCH`, `D.FIRST`. Safe. -/
  | unboundCode (k : Code)
  /-- A request word that matches no row of R89; never issued (R90, U10). Raised by the step. Safe. -/
  | malformedRequest (w : ReqWord)
  deriving DecidableEq, Repr

/-- The whole state of the block (R20), and around it what the model needs to run it: the configuration (log entry
1), the host's input (log entry 6) and the private request port (log entry 7). -/
structure State where
  /-- MODEL'S OWN: the block's build-time parameters, changed by no step (R40, log entry 1). -/
  config : Config
  enc : Encoder
  dec : Decoder
  /-- A command word was refused since reset (R35). -/
  cmdIllegal : Bool
  /-- MODEL'S OWN: what the host does next, in order (R56, log entry 6). -/
  input : List HostEvent
  /-- MODEL'S OWN: a request word standing on a unit's private port (R88, log entry 7). -/
  request : Option (UnitId × ReqWord)
  /-- MODEL'S OWN: the answer to the last request served from `request`, and whose it is (log entry 7). -/
  reply : Option (UnitId × Reply)
  deriving DecidableEq, Repr

/-- A unit's control registers after reset: `IDLE`, no cause, `info` 0, `sticky` 0 (R41). -/
def Control.reset : Control := { state := .idle, cause := .none, info := 0, sticky := false }

/-- A dictionary after power-on: `next_code` 256 (R41); no cell written, its contents being unspecified (log entry 4). -/
def Dict.reset : Dict := { nextCode := 256, mem := [] }

/-- The encoder after power-on (R41). `match_code` is unspecified there: 0 by DESIGN CHOICE (log entry 2). -/
def Encoder.reset : Encoder :=
  { ctl := .reset, matchValid := false, matchCode := 0, out := [], dict := .reset }

/-- The decoder after power-on (R41). `prev_code` is unspecified there: 0 by DESIGN CHOICE (log entry 3). -/
def Decoder.reset : Decoder :=
  { ctl := .reset, prevValid := false, prevCode := 0, out := [], dict := .reset }

/-- The block after reset (R41, R190), for a given configuration: nothing on any port. -/
def State.resetWith (c : Config) : State :=
  { config := c, enc := .reset, dec := .reset, cmdIllegal := false, input := [], request := none, reply := none }

/-- The block after reset. `DICT_CAP` is OPEN (R10): `unbounded` here by DESIGN CHOICE (log entry 1). -/
def State.reset : State := State.resetWith { dictCap := .unbounded }

end Sys2Proof.Machine
end

