-- ==== Sys2Proof/Machine/Ops.lean ====
section
/-! DEFINITION. The named operations the meanings share: entry memory, the six dictionary requests (R104 to R111), taking a fault (R171), leaving one (R174), admission (R123, R143), and reset (R190). -/

namespace Sys2Proof

/-- One past the last code a dictionary can bind: `DICT_CAP`, and never more than 2^32 (R36). -/
def DictCap.limit : DictCap → Nat
  | .unbounded => 2 ^ 32
  | .finite n => n

end Sys2Proof

namespace Sys2Proof.Machine

open Host (Outcome)

/-- An outcome of the model carrying a value: the value, or the stop. -/
abbrev Result (α : Type) := Outcome α Fault Refusal

/-- Go on with the value of an outcome, or stop as it stopped. -/
def andThen {α β : Type} (x : Result α) (f : α → Result β) : Result β :=
  match x with
  | .next a => f a
  | .fault e => .fault e
  | .refused r => .refused r

/-! ## The entry memory (R28, R51, R54) -/

/-- What an address nothing has written reads as: no value, its contents being unspecified (R41, U7, U8; DESIGN
CHOICE, log entry 4). -/
def Memory.unlisted : Option Entry := none

/-- The entry at a code address: one whole entry (R54). -/
def Memory.read : Memory → Nat → Option Entry
  | [], _ => Memory.unlisted
  | (a, e) :: rest, k => if a = k then some e else Memory.read rest k

/-- Write one whole entry at a code address (R54), keeping the addresses rising. -/
def Memory.write : Memory → Nat → Entry → Memory
  | [], k, e => [(k, e)]
  | (a, x) :: rest, k, e =>
    if k < a then (k, e) :: (a, x) :: rest
    else if k = a then (k, e) :: rest
    else (a, x) :: Memory.write rest k e

/-- The canonical form of an entry memory: addresses strictly rising. No listed entry can equal what an unlisted
address reads as, which is no value. -/
abbrev Memory.wf (m : Memory) : Prop := m.Pairwise (fun x y => x.1 < y.1)

/-! ## Capacity (R10) -/

/-- `mem[k]` exists for 256 ≤ k < `DICT_CAP` (R28). -/
def cellExists (cap : DictCap) (k : Nat) : Bool :=
  decide (firstFree ≤ k) && decide (k < cap.limit)

/-- `next_code == DICT_CAP`; "never true when `DICT_CAP` = unbounded" (R107). -/
def Dict.isFull (cap : DictCap) (d : Dict) : Bool :=
  match cap with
  | .unbounded => false
  | .finite n => d.nextCode.toNat == n

/-! ## The six requests -/

/-- `D.SEED` (R104): `next_code <- 256`; `mem` is not written. -/
def Dict.seed (d : Dict) : Dict := { d with nextCode := 256 }

/-- `D.BOUND k` (R105): `k < next_code`, unsigned, `k` widened to 33 bits. -/
def Dict.bound (d : Dict) (k : Code) : Bool := decide (zext33 k < d.nextCode)

/-- `MemRead(u.dict, k, 1)` (R14) of an assigned cell: its entry. -/
def Dict.readEntry (d : Dict) (k : Nat) : Result Entry :=
  match d.mem.read k with
  | some e => .next e
  | none => .fault (.unwrittenEntry k)

/-- The search of `D.LOOKUP` over the `n` cells from `k` up: the least one that holds `e` (R106). -/
def Dict.scan (d : Dict) (e : Entry) : (n : Nat) → (k : Nat) → Result LookupReply
  | 0, _ => .next .miss
  | n + 1, k => andThen (d.readEntry k) fun x =>
      if x = e then .next (.hit (BitVec.ofNat 32 k)) else d.scan e n (k + 1)

/-- `D.LOOKUP p, c` (R106): over 256 ≤ k < `next_code`; refused where `p` is not bound (R112). -/
def Dict.lookup (d : Dict) (p : Code) (c : Symbol) : Result LookupReply :=
  if d.bound p then d.scan { parent := p, sym := c } (d.nextCode.toNat - firstFree) firstFree
  else .refused (.unboundCode p)

/-- `D.INSERT p, c` (R107), the code-insertion sequencer: the entry and the increment in one step; refused where `p`
is not bound (R112). -/
def Dict.insert (cap : DictCap) (d : Dict) (p : Code) (c : Symbol) : Result (InsertReply × Dict) :=
  if d.bound p then
    if d.isFull cap then .next (.full, d)
    else if cellExists cap (lowCode d.nextCode).toNat then
      .next (.ok (lowCode d.nextCode),
        { mem := d.mem.write (lowCode d.nextCode).toNat { parent := p, sym := c }
          nextCode := d.nextCode + 1 })
    else .fault (.noSuchCell (lowCode d.nextCode))
  else .refused (.unboundCode p)

/-- The chain walk of `D.FETCH` (R110): prepend symbols while the code is 256 or above. `fuel` bounds the reads; a
parent below its child (R43) never uses it up (log entry 10). -/
def Dict.walk (d : Dict) : (fuel : Nat) → (k : Code) → (t : List Symbol) → Result Str
  | 0, k, t => if k.toNat < alphabet then .next ⟨lowSym k, t⟩ else .fault (.brokenChain k)
  | n + 1, k, t =>
    if k.toNat < alphabet then .next ⟨lowSym k, t⟩
    else andThen (d.readEntry k.toNat) fun e =>
      if e.parent < k then d.walk n e.parent (e.sym :: t) else .fault (.brokenChain k)

/-- `D.FETCH k` (R110): `str(u, k)`; refused where `k` is not bound (R112). The chain of a bound `k` ends "after
fewer than `k − 254` steps" (R43). -/
def Dict.fetch (d : Dict) (k : Code) : Result Str :=
  if d.bound k then d.walk (k.toNat - 255) k [] else .refused (.unboundCode k)

/-- The recursion of R103, with the bound of `Dict.walk`. -/
def Dict.firstWalk (d : Dict) : (fuel : Nat) → (k : Code) → Result Symbol
  | 0, k => if k.toNat < alphabet then .next (lowSym k) else .fault (.brokenChain k)
  | n + 1, k =>
    if k.toNat < alphabet then .next (lowSym k)
    else andThen (d.readEntry k.toNat) fun e =>
      if e.parent < k then d.firstWalk n e.parent else .fault (.brokenChain k)

/-- `D.FIRST k` (R111): `first(u, k)`; refused where `k` is not bound (R112). -/
def Dict.first (d : Dict) (k : Code) : Result Symbol :=
  if d.bound k then d.firstWalk (k.toNat - 255) k else .refused (.unboundCode k)

/-! ## Strings -/

/-- The symbols of a String, first symbol first. -/
def Str.toList (s : Str) : List Symbol := s.head :: s.tail

/-- `s ++ [c]` (R13). -/
def Str.snoc (s : Str) (c : Symbol) : Str := { s with tail := s.tail ++ [c] }

/-! ## Taking a fault and leaving it -/

/-- Fault entry, `raise F(v)` (R171): `cause`, `info`, `sticky` and `state` are written, and nothing else. -/
def Control.raise (c : Control) (f : Cause) (v : Arg) : Control :=
  { c with state := .fault, cause := f, info := v, sticky := true }

/-- What `START` does to the control registers (R120, R140): a new call, `cause` and `info` cleared, `sticky` kept.
It is also how a unit leaves `FAULT` (R174). -/
def Control.start (c : Control) : Control := { c with state := .run, cause := .none, info := 0 }

/-- What `END` does to the control registers (R122, R142). -/
def Control.finish (c : Control) : Control := { c with state := .done }

/-- `raise` in a command of `ENC`: the hold register, `out` and the dictionary stay (R171). -/
def Encoder.raise (e : Encoder) (f : Cause) (v : Arg) : Encoder := { e with ctl := e.ctl.raise f v }

/-- `raise` in a command of `DEC` (R171). -/
def Decoder.raise (d : Decoder) (f : Cause) (v : Arg) : Decoder := { d with ctl := d.ctl.raise f v }

/-! ## Admission (R123, R143) -/

/-- The kind of a command: the three parts of a call (R81). -/
inductive CmdKind where
  | start
  | data
  | finish
  deriving DecidableEq, Repr

/-- What a unit does with a command that reaches it. -/
inductive Admission where
  | admitted
  | protocol
  | ignored
  deriving DecidableEq, Repr

/-- The admission table, the same for both units (R123, R143). -/
def admission : SeqState → CmdKind → Admission
  | .idle, .start => .admitted
  | .idle, .data => .protocol
  | .idle, .finish => .protocol
  | .run, .start => .protocol
  | .run, .data => .admitted
  | .run, .finish => .admitted
  | .done, .start => .admitted
  | .done, .data => .protocol
  | .done, .finish => .protocol
  | .fault, .start => .admitted
  | .fault, .data => .ignored
  | .fault, .finish => .ignored

/-- A command of `ENC`: its rule where it is admitted, `PROTOCOL(arg)` where it is not (R167), nothing at all where
`FAULT` absorbs it (R172). Judged in the order of R170. -/
def Encoder.judged (e : Encoder) (kind : CmdKind) (arg : Arg) (rule : Encoder → Result Encoder) : Result Encoder :=
  match admission e.ctl.state kind with
  | .admitted => rule e
  | .protocol => .next (e.raise .protocol arg)
  | .ignored => .next e

/-- A command of `DEC`, as `Encoder.judged`. -/
def Decoder.judged (d : Decoder) (kind : CmdKind) (arg : Arg) (rule : Decoder → Result Decoder) : Result Decoder :=
  match admission d.ctl.state kind with
  | .admitted => rule d
  | .protocol => .next (d.raise .protocol arg)
  | .ignored => .next d

/-! ## Updates of the state -/

/-- Replace the encoder unit. -/
def State.withEnc (s : State) (e : Encoder) : State := { s with enc := e }

/-- Replace the decoder unit. -/
def State.withDec (s : State) (d : Decoder) : State := { s with dec := d }

/-- Replace what the host does next. -/
def State.withInput (s : State) (l : List HostEvent) : State := { s with input := l }

/-- Replace the word on the private request ports. -/
def State.withRequest (s : State) (r : Option (UnitId × ReqWord)) : State := { s with request := r }

/-- Replace the answer register of the request ports. -/
def State.withReply (s : State) (r : Option (UnitId × Reply)) : State := { s with reply := r }

/-- The dictionary unit owned by a unit (R2). -/
def State.dictOf (s : State) : UnitId → Dict
  | .enc => s.enc.dict
  | .dec => s.dec.dict

/-- Replace the dictionary owned by a unit; the two are different memories (R51). -/
def State.withDict (s : State) (u : UnitId) (d : Dict) : State :=
  match u with
  | .enc => s.withEnc { s.enc with dict := d }
  | .dec => s.withDec { s.dec with dict := d }

/-- A command of `ENC` acts on the encoder unit alone (R125). -/
def State.onEnc (s : State) (f : Encoder → Result Encoder) : Result State :=
  andThen (f s.enc) fun e => .next (s.withEnc e)

/-- A command of `DEC` acts on the decoder unit alone (R146). -/
def State.onDec (s : State) (f : Decoder → Result Decoder) : Result State :=
  andThen (f s.dec) fun d => .next (s.withDec d)

/-- Hand an answer to the owner of a dictionary (R89, log entry 7). -/
def State.answer (s : State) (u : UnitId) (r : Reply) : State := s.withReply (some (u, r))

/-- A refused command word: "the sticky bit `cmd_illegal` is set to 1" and nothing else changes (R86, R169). -/
def State.refuseWord (s : State) : State := { s with cmdIllegal := true }

/-! ## Reset (R190) -/

/-- The encoder after the reset event: as R41 says; `match_code` and `mem`, unspecified there, are not written (R42,
log entry 5). -/
def Encoder.afterReset (e : Encoder) : Encoder :=
  { e with ctl := .reset, matchValid := false, out := [], dict := e.dict.seed }

/-- The decoder after the reset event (R41, log entry 5). -/
def Decoder.afterReset (d : Decoder) : Decoder :=
  { d with ctl := .reset, prevValid := false, out := [], dict := d.dict.seed }

/-- The reset event (R190), "the only one that acts on both units at once". -/
def State.afterReset (s : State) : State :=
  { s with enc := s.enc.afterReset, dec := s.dec.afterReset, cmdIllegal := false, request := none, reply := none }

end Sys2Proof.Machine
end

