-- ==== Sys2Proof/Machine/DecoderUnit.lean ====
section
/-! DEFINITION. The meanings of the three decoder commands (R140 to R146). -/

namespace Sys2Proof.Machine

/-- `DEC.START` where it is admitted (R140). -/
def Decoder.startRule (d : Decoder) : Result Decoder :=
  .next { d with dict := d.dict.seed, prevValid := false, out := [], ctl := d.ctl.start }

/-- The first code of a call (R141, R144): it must be bound. -/
def Decoder.firstCodeRule (k : Code) (d : Decoder) : Result Decoder :=
  if d.dict.bound k then
    andThen (d.dict.fetch k) fun s =>
      .next { d with out := d.out ++ s.toList, prevCode := k, prevValid := true }
  else .next (d.raise .invalidData k)

/-- The entry of a subsequent code (R141): the String of a bound code; for the unknown code `k == next_code`, the
previous String followed by its own first symbol, never read from `mem[k]` (R203); `none` for any other code. -/
def Decoder.entryOf (k : Code) (d : Decoder) : Result (Option Str) :=
  if d.dict.bound k then andThen (d.dict.fetch k) fun s => .next (some s)
  else if zext33 k = d.dict.nextCode then
    andThen (d.dict.fetch d.prevCode) fun s =>
      andThen (d.dict.first d.prevCode) fun c => .next (some (s.snoc c))
  else .next none

/-- Emit an acceptable subsequent code's entry and insert (R141): room is tested first, then emit, insert with the
old previous code as parent, and only then the new previous code (R204). -/
def Decoder.emitRule (cap : DictCap) (k : Code) (entry : Str) (d : Decoder) : Result Decoder :=
  if d.dict.isFull cap then .next (d.raise .dictFull k)
  else andThen (d.dict.insert cap d.prevCode entry.head) fun r =>
    .next { d with out := d.out ++ entry.toList, dict := r.2, prevCode := k }

/-- A subsequent code of a call (R141): `INVALID_DATA` is judged before `DICT_FULL` (R170). -/
def Decoder.nextCodeRule (cap : DictCap) (k : Code) (d : Decoder) : Result Decoder :=
  andThen (d.entryOf k) fun r =>
    match r with
    | some entry => d.emitRule cap k entry
    | none => .next (d.raise .invalidData k)

/-- `DEC.CODE k` where it is admitted (R141). -/
def Decoder.codeRule (cap : DictCap) (k : Code) (d : Decoder) : Result Decoder :=
  if d.prevValid then d.nextCodeRule cap k else d.firstCodeRule k

/-- `DEC.END` where it is admitted (R142). -/
def Decoder.endRule (d : Decoder) : Result Decoder :=
  .next { d with prevValid := false, ctl := d.ctl.finish }

/-- `DEC.START` (R140, R143). -/
def execDecStart (s : State) : Result State :=
  s.onDec fun d => d.judged .start (argOf .decStart) Decoder.startRule

/-- `DEC.CODE k` (R141, R143). -/
def execDecCode (k : Code) (s : State) : Result State :=
  s.onDec fun d => d.judged .data (argOf (.decCode k)) (Decoder.codeRule s.config.dictCap k)

/-- `DEC.END` (R142, R143). -/
def execDecEnd (s : State) : Result State :=
  s.onDec fun d => d.judged .finish (argOf .decEnd) Decoder.endRule

end Sys2Proof.Machine
end

