-- ==== Sys2Proof/Machine/DictRequests.lean ====
section
/-! DEFINITION. The meanings of the six internal dictionary requests, served one at a time on a unit's private port (R88, R100, R104 to R111). The commands perform the same operations inside their own atomic step. -/

namespace Sys2Proof.Machine

/-- `D.SEED` (R104): answer none. -/
def execDSeed (u : UnitId) (s : State) : Result State :=
  .next ((s.withDict u (s.dictOf u).seed).withReply none)

/-- `D.BOUND k` (R105). -/
def execDBound (u : UnitId) (k : Code) (s : State) : Result State :=
  .next (s.answer u (.bound ((s.dictOf u).bound k)))

/-- `D.LOOKUP p, c` (R106). -/
def execDLookup (u : UnitId) (p : Code) (c : Symbol) (s : State) : Result State :=
  andThen ((s.dictOf u).lookup p c) fun r => .next (s.answer u (.lookup r))

/-- `D.INSERT p, c` (R107). -/
def execDInsert (u : UnitId) (p : Code) (c : Symbol) (s : State) : Result State :=
  andThen ((s.dictOf u).insert s.config.dictCap p c) fun r =>
    .next ((s.withDict u r.2).answer u (.insert r.1))

/-- `D.FETCH k` (R110). -/
def execDFetch (u : UnitId) (k : Code) (s : State) : Result State :=
  andThen ((s.dictOf u).fetch k) fun r => .next (s.answer u (.fetch r))

/-- `D.FIRST k` (R111). -/
def execDFirst (u : UnitId) (k : Code) (s : State) : Result State :=
  andThen ((s.dictOf u).first k) fun r => .next (s.answer u (.first r))

end Sys2Proof.Machine
end

