-- ==== Sys2Proof/Machine/EncoderUnit.lean ====
section
/-! DEFINITION. The meanings of the three encoder commands (R120 to R126). -/

namespace Sys2Proof.Machine

/-- `ENC.START` where it is admitted (R120). -/
def Encoder.startRule (e : Encoder) : Result Encoder :=
  .next { e with dict := e.dict.seed, matchValid := false, out := [], ctl := e.ctl.start }

/-- The `Miss` branch of `ENC.SYM` (R121): room is tested first, then emit with the old match, insert with the old
match as parent, and only then the new match (R204). -/
def Encoder.missRule (cap : DictCap) (c : Symbol) (e : Encoder) : Result Encoder :=
  if e.dict.isFull cap then .next (e.raise .dictFull (zext32 c))
  else andThen (e.dict.insert cap e.matchCode c) fun r =>
    .next { e with out := e.out ++ [e.matchCode], dict := r.2, matchCode := zext32 c }

/-- `ENC.SYM c` where it is admitted (R121). -/
def Encoder.symRule (cap : DictCap) (c : Symbol) (e : Encoder) : Result Encoder :=
  if e.matchValid then
    andThen (e.dict.lookup e.matchCode c) fun r =>
      match r with
      | .hit k => .next { e with matchCode := k }
      | .miss => e.missRule cap c
  else .next { e with matchCode := zext32 c, matchValid := true }

/-- `ENC.END` where it is admitted (R122). -/
def Encoder.endRule (e : Encoder) : Result Encoder :=
  .next { e with
    out := if e.matchValid then e.out ++ [e.matchCode] else e.out
    matchValid := false
    ctl := e.ctl.finish }

/-- `ENC.START` (R120, R123). -/
def execEncStart (s : State) : Result State :=
  s.onEnc fun e => e.judged .start (argOf .encStart) Encoder.startRule

/-- `ENC.SYM c` (R121, R123). -/
def execEncSym (c : Symbol) (s : State) : Result State :=
  s.onEnc fun e => e.judged .data (argOf (.encSym c)) (Encoder.symRule s.config.dictCap c)

/-- `ENC.END` (R122, R123). -/
def execEncEnd (s : State) : Result State :=
  s.onEnc fun e => e.judged .finish (argOf .encEnd) Encoder.endRule

end Sys2Proof.Machine
end

