-- ==== Sys2Proof/Machine/Dispatch.lean ====
section
/-! DEFINITION. One arm per instruction of the opcode table: which meaning runs it. -/

namespace Sys2Proof.Machine

/-- Run one instruction. -/
def exec (i : Instr) (s : State) : Host.Outcome State Fault Refusal :=
  match i with
  | .encStart => Sys2Proof.Machine.execEncStart s
  | .encSym c => Sys2Proof.Machine.execEncSym c s
  | .encEnd => Sys2Proof.Machine.execEncEnd s
  | .decStart => Sys2Proof.Machine.execDecStart s
  | .decCode k => Sys2Proof.Machine.execDecCode k s
  | .decEnd => Sys2Proof.Machine.execDecEnd s
  | .dSeed u => Sys2Proof.Machine.execDSeed u s
  | .dBound u k => Sys2Proof.Machine.execDBound u k s
  | .dLookup u p c => Sys2Proof.Machine.execDLookup u p c s
  | .dInsert u p c => Sys2Proof.Machine.execDInsert u p c s
  | .dFetch u k => Sys2Proof.Machine.execDFetch u k s
  | .dFirst u k => Sys2Proof.Machine.execDFirst u k s

end Sys2Proof.Machine
end

