-- ==== Sys2Proof/Machine/Fetch.lean ====
section
/-! DEFINITION. Where the next instruction comes from. The block has no program counter and fetches no instruction (R33, R75): commands reach it on the command port in the order presented (R56), requests on a unit's private port (R88). -/

namespace Sys2Proof.Machine

/-- What the block finds at its inputs: the work of one step, with the state after the word is taken from its port. -/
inductive Fetched where
  /-- Nothing is presented: the block "executes nothing until the host sends a command" (R191). -/
  | idle
  /-- `rst` (R190). -/
  | reset (s : State)
  /-- A word that spells an instruction. -/
  | run (i : Instr) (s : State)
  /-- A command word that spells no command (R86). -/
  | illegal (s : State)
  /-- A request word that spells no request (R90). -/
  | malformed (w : ReqWord)
  deriving DecidableEq, Repr

/-- Take the next word: a request standing on a private port first, the unit it belongs to being inside its step (log
entry 7); else the host's next event, which is consumed. -/
def fetch (s : State) : Fetched :=
  match s.request with
  | some (u, w) =>
    match decode (.request u w) with
    | .ok i => .run i (s.withRequest none)
    | .error _ => .malformed w
  | none =>
    match s.input with
    | [] => .idle
    | .reset _ :: rest => .reset (s.withInput rest)
    | .command w :: rest =>
      match decode (.command w) with
      | .ok i => .run i (s.withInput rest)
      | .error _ => .illegal (s.withInput rest)

/-- Stand a word on its port, so that it is the very next one `fetch` takes. -/
def State.place (s : State) : PortWord → State
  | .command w => (s.withRequest none).withInput (.command w :: s.input)
  | .request u w => s.withRequest (some (u, w))

/-- Stand a word of the opcode table on the port it arrives on; a number that is no port's word changes nothing. -/
def State.placeTableWord (s : State) (nbits w : Nat) : State :=
  if w < 2 ^ nbits then
    match tablePort w with
    | some p => s.place p
    | none => s
  else s

end Sys2Proof.Machine
end

