-- ==== Sys2Proof/Machine/Step.lean ====
section
/-! DEFINITION. One step of the block: one host event or one request, whole (R70). -/

namespace Sys2Proof.Machine

/-- One step. A command runs whole (R70) and its word is consumed; a refused command word sets `cmd_illegal` and
changes nothing else (R86); with nothing at its inputs the block keeps its state (R180). -/
def step (s : State) : Host.Outcome State Fault Refusal :=
  match fetch s with
  | .idle => .next s
  | .reset s' => .next s'.afterReset
  | .run i s' => exec i s'
  | .illegal s' => .next s'.refuseWord
  | .malformed w => .refused (.malformedRequest w)

/-- The state with an instruction of the opcode table standing where `step` takes its next instruction. -/
def State.withFetchWord (s : State) (nbits w : Nat) : State := s.placeTableWord nbits w

end Sys2Proof.Machine
end

