-- ==== Sys2Proof/Machine/Calls.lean ====
section
/-! DEFINITION. A call of a unit along a run: when it begins, the first moment it ends, and its outcome (R200, R173). No meaning uses them. -/

namespace Sys2Proof.Machine

/-- The outcome of a call that has ended: "`Done(result)` or `Fault(cause, info)`, with no result in the second"
(R173). -/
inductive CallOutcome (α : Type) where
  | done (result : List α)
  | fault (cause : Cause) (info : Arg)
  deriving DecidableEq, Repr

/-- What a unit's registers give as outcome at a moment at which a call of it ends: `Done(u.out)` in `DONE`,
`Fault(u.cause, u.info)` in `FAULT`, and nothing in the two states in which no call ends (R200). Whether a call ends at
that moment is `firstEnd`'s to say. -/
def endShown {α : Type} (c : Control) (out : List α) : Option (CallOutcome α) :=
  match c.state with
  | .idle => none
  | .run => none
  | .done => some (.done out)
  | .fault => some (.fault c.cause c.info)

/-- What the encoder's registers give at an end (R200). -/
def State.encEnd (s : State) : Option (CallOutcome Code) := endShown s.enc.ctl s.enc.out

/-- What the decoder's registers give at an end (R200). -/
def State.decEnd (s : State) : Option (CallOutcome Symbol) := endShown s.dec.ctl s.dec.out

/-- A unit's control registers. -/
def State.ctlOf (s : State) : UnitId → Control
  | .enc => s.enc.ctl
  | .dec => s.dec.ctl

/-- The `START` command addressed to a unit (R120, R140). -/
def startOf : UnitId → Instr
  | .enc => .encStart
  | .dec => .decStart

/-- A call of `u` begins in the step from `s`, and the state after that step: "a `START` addressed to `u` completes"
(R200), that is, it runs and leaves the unit in `RUN`. A `START` that raises `PROTOCOL` begins no call (R123, R143), nor
does any other command. -/
def callBegins (u : UnitId) (s : State) : Option State :=
  match fetch s, step s with
  | .run i _, .next t => if i = startOf u ∧ (t.ctlOf u).state = .run then some t else none
  | _, _ => none

/-- The outcome shown "at the first later moment when `u.state` is `DONE` or `FAULT`" (R200), within `n` steps from `s`, a
moment of the call. What happens after that moment plays no part. `none` where that moment is not reached: the call is
still in progress, or a reset has put the unit in `IDLE`, where no call has begun (R21, log entry 22). -/
def firstEnd {α : Type} (u : UnitId) (shown : State → Option (CallOutcome α)) : (n : Nat) → (s : State) → Option (CallOutcome α)
  | 0, s => shown s
  | n + 1, s =>
    match shown s with
    | some o => some o
    | none =>
      if (s.ctlOf u).state = .idle then none
      else match step s with
        | .next t => firstEnd u shown n t
        | .fault _ => none
        | .refused _ => none

/-- The outcome of the encoder call that begins in the step from `s`, if it ends within `n` steps after that one
(R200). -/
def State.encCall (s : State) (n : Nat) : Option (CallOutcome Code) :=
  (callBegins .enc s).bind (firstEnd .enc State.encEnd n)

/-- The outcome of the decoder call that begins in the step from `s`, if it ends within `n` steps after that one
(R200). -/
def State.decCall (s : State) (n : Nat) : Option (CallOutcome Symbol) :=
  (callBegins .dec s).bind (firstEnd .dec State.decEnd n)

end Sys2Proof.Machine
end

