-- ==== Sys2Proof/Machine/Flags.lean ====
section
/-! DEFINITION. The numbers of the state and cause registers (R21, R25, R160), and the status outputs S0 to S16 that show the registers to the host (R36). The block has no condition codes (R35). -/

namespace Sys2Proof.Machine

/-- The number of a sequencer state (R21, R25). -/
def SeqState.code : SeqState → BitVec 2
  | .idle => 0
  | .run => 1
  | .done => 2
  | .fault => 3

/-- The number of a fault cause (R160). -/
def Cause.code : Cause → BitVec 3
  | .none => 0
  | .invalidData => 1
  | .dictFull => 2
  | .protocol => 3

/-- A one-bit register on a status output. -/
def bitOf (b : Bool) : BitVec 1 := BitVec.ofBool b

/-- The status outputs, read-only, as they stand between commands (R36). `encMatchCode` (S6) and `decPrevCode` (S14)
"show an unspecified value while their valid bit is 0; a model must not let a claim read them then" (R37): they are
`none` then (log entry 16). -/
structure StatusOutputs where
  encState : BitVec 2
  encCause : BitVec 3
  encInfo : Arg
  encSticky : BitVec 1
  encNextCode : NextCode
  encMatchValid : BitVec 1
  encMatchCode : Option Code
  decState : BitVec 2
  decCause : BitVec 3
  decInfo : Arg
  decSticky : BitVec 1
  decNextCode : NextCode
  decPrevValid : BitVec 1
  decPrevCode : Option Code
  cmdIllegal : BitVec 1
  deriving DecidableEq, Repr

/-- What the host reads on the status outputs (R36). -/
def State.status (s : State) : StatusOutputs :=
  { encState := s.enc.ctl.state.code
    encCause := s.enc.ctl.cause.code
    encInfo := s.enc.ctl.info
    encSticky := bitOf s.enc.ctl.sticky
    encNextCode := s.enc.dict.nextCode
    encMatchValid := bitOf s.enc.matchValid
    encMatchCode := if s.enc.matchValid then some s.enc.matchCode else none
    decState := s.dec.ctl.state.code
    decCause := s.dec.ctl.cause.code
    decInfo := s.dec.ctl.info
    decSticky := bitOf s.dec.ctl.sticky
    decNextCode := s.dec.dict.nextCode
    decPrevValid := bitOf s.dec.prevValid
    decPrevCode := if s.dec.prevValid then some s.dec.prevCode else none
    cmdIllegal := bitOf s.cmdIllegal }

end Sys2Proof.Machine
end

