-- ==== Sys2Proof/Machine/Views.lean ====
section
/-! DEFINITION. What the registers stand for: the String of a code (R102), the two mappings of a dictionary (R31), the current match and the previous String (R24, R27), and what happens to a unit between two moments. No meaning uses them. -/

namespace Sys2Proof.Machine

/-- `str(u, k)` (R102): the String bound to `k`, undefined for an unbound code. -/
def Dict.str (d : Dict) (k : Code) : Option Str :=
  match d.fetch k with
  | .next s => some s
  | .fault _ => none
  | .refused _ => none

/-- `DecMap(u)(k)` (R31): the decode view, Code to String. -/
def Dict.decMap (d : Dict) (k : Code) : Option (List Symbol) := (d.str k).map Str.toList

/-- `EncMap(u)(s) = k` (R31): the encode view as a relation; it is a function where no String is bound twice. -/
def Dict.encMap (d : Dict) (s : List Symbol) (k : Code) : Prop := d.bound k = true ∧ d.decMap k = some s

/-- `match(ENC)` (R24): empty while `match_valid` is 0. -/
def Encoder.matchStr (e : Encoder) : Option (List Symbol) :=
  if e.matchValid then e.dict.decMap e.matchCode else some []

/-- `prev(DEC)` (R27): defined only while `prev_valid` is 1. -/
def Decoder.prevStr (d : Decoder) : Option (List Symbol) :=
  if d.prevValid then d.dict.decMap d.prevCode else none

/-! ## Events -/

/-- A unit takes the fault `f` between two moments: it was not in `FAULT`, and it is, with that cause (R171). -/
def takesFault (before after : Control) (f : Cause) : Prop :=
  before.state ≠ .fault ∧ after.state = .fault ∧ after.cause = f

/-- The host's next event is the reset input (R190). -/
def State.atReset (s : State) : Prop := s.request = none ∧ ∃ ws rest, s.input = .reset ws :: rest

/-- The unit a host event is addressed to; a refused word and `rst` are addressed to none (R56, R86). -/
def eventUnit : HostEvent → Option UnitId
  | .command w =>
    match decodeCommand w with
    | .ok i => commandUnit i
    | .error _ => none
  | .reset _ => none

end Sys2Proof.Machine
end

