-- ==== Sys2Proof/Machine/Invariant.lean ====
section
/-! DEFINITION. The invariants of R43, R34, R136, R158 and R60, over one state. -/

namespace Sys2Proof.Machine

/-- R43 items 1 and 2, with the canonical form of `mem` (R28): `next_code` is in range, every assigned cell is written
and its parent is below it, and only cells that exist are listed. -/
structure Dict.Inv (cap : DictCap) (d : Dict) : Prop where
  low : firstFree ≤ d.nextCode.toNat
  high : d.nextCode.toNat ≤ cap.limit
  assigned : ∀ k, firstFree ≤ k → k < d.nextCode.toNat → ∃ e, d.mem.read k = some e ∧ e.parent.toNat < k
  canonical : Memory.wf d.mem
  cells : ∀ x ∈ d.mem, cellExists cap x.1 = true

/-- R43 item 7: no String is bound to two codes. -/
def Dict.Unique (d : Dict) : Prop :=
  ∀ j k : Code, d.bound j = true → d.bound k = true → d.str j = d.str k → j = k

/-- R43 item 5 with R34 and R35: a cause is recorded exactly in `FAULT`, `info` is 0 without one, and a unit in
`FAULT` has its sticky bit set. -/
structure Control.Inv (c : Control) : Prop where
  cause : c.cause ≠ .none ↔ c.state = .fault
  info : c.cause = .none → c.info = 0
  sticky : c.state = .fault → c.sticky = true

/-- The encoder's part of R43: items 1 to 3, 5, 6 and 7. -/
structure Encoder.Inv (cap : DictCap) (e : Encoder) : Prop where
  dict : e.dict.Inv cap
  unique : e.dict.Unique
  matchBound : e.matchValid = true → e.dict.bound e.matchCode = true
  ctl : e.ctl.Inv
  holding : e.matchValid = true → e.ctl.state = .run ∨ e.ctl.state = .fault

/-- The decoder's part of R43: items 1 to 3, 5 and 6. -/
structure Decoder.Inv (cap : DictCap) (d : Decoder) : Prop where
  dict : d.dict.Inv cap
  prevBound : d.prevValid = true → d.dict.bound d.prevCode = true
  ctl : d.ctl.Inv
  holding : d.prevValid = true → d.ctl.state = .run ∨ d.ctl.state = .fault

/-- The invariant of the block between commands: the configuration is one R10 admits, both units satisfy R43, and no
request stands on a private port (a command is whole, R70). -/
structure State.Inv (s : State) : Prop where
  config : s.config.wf = true
  enc : s.enc.Inv s.config.dictCap
  dec : s.dec.Inv s.config.dictCap
  port : s.request = none

/-- R136 and R60: the encoder's counts. A call's empty match comes with no output and a seeded dictionary; with a
match, `next_code = 256 + (codes emitted)`; a completed call has `next_code = 255 + (codes)`, or 256 with none; and
"the j-th emitted code (j from 0) is less than `256 + j`". -/
structure Encoder.Count (e : Encoder) : Prop where
  empty : e.ctl.state = .run → e.matchValid = false → e.out = [] ∧ e.dict.nextCode.toNat = 256
  running : e.ctl.state = .run → e.matchValid = true → e.dict.nextCode.toNat = 256 + e.out.length
  completed : e.ctl.state = .done →
    (e.out = [] ∧ e.dict.nextCode.toNat = 256) ∨ (e.out ≠ [] ∧ e.dict.nextCode.toNat = 255 + e.out.length)
  range : e.ctl.state = .run ∨ e.ctl.state = .done → ∀ j k, e.out[j]? = some k → k.toNat < 256 + j

/-- R158: the decoder's counts. Before the first code nothing is emitted and the dictionary is seeded; from then on a
code has emitted at least one symbol and, but for the first, made one insertion. -/
structure Decoder.Count (d : Decoder) : Prop where
  empty : d.ctl.state = .run → d.prevValid = false → d.out = [] ∧ d.dict.nextCode.toNat = 256
  running : d.ctl.state = .run → d.prevValid = true → d.dict.nextCode.toNat + 1 ≤ 256 + d.out.length

/-! ## Values no rule reads (R43 item 4) -/

/-- Two dictionaries that differ at most in cells at or above `next_code` (U7). -/
structure Dict.Agree (d d' : Dict) : Prop where
  next : d'.nextCode = d.nextCode
  assigned : ∀ k, k < d.nextCode.toNat → d'.mem.read k = d.mem.read k

/-- Two encoders that differ at most in unassigned cells and in `match_code` while `match_valid` is 0 (U5). -/
structure Encoder.Agree (e e' : Encoder) : Prop where
  ctl : e'.ctl = e.ctl
  valid : e'.matchValid = e.matchValid
  code : e.matchValid = true → e'.matchCode = e.matchCode
  out : e'.out = e.out
  dict : e.dict.Agree e'.dict

/-- Two decoders that differ at most in unassigned cells and in `prev_code` while `prev_valid` is 0 (U6). -/
structure Decoder.Agree (d d' : Decoder) : Prop where
  ctl : d'.ctl = d.ctl
  valid : d'.prevValid = d.prevValid
  code : d.prevValid = true → d'.prevCode = d.prevCode
  out : d'.out = d.out
  dict : d.dict.Agree d'.dict

/-- Two states that differ at most in values the spec leaves unspecified. -/
structure State.Agree (s s' : State) : Prop where
  config : s'.config = s.config
  enc : s.enc.Agree s'.enc
  dec : s.dec.Agree s'.dec
  cmdIllegal : s'.cmdIllegal = s.cmdIllegal
  input : s'.input = s.input
  request : s'.request = s.request
  reply : s'.reply = s.reply

end Sys2Proof.Machine
end

