-- ==== Sys2Proof/Machine/Reference.lean ====
section
/-! DEFINITION. The two functions the block computes, `encode` (R131) and `decode` (R151), as the spec writes them on Strings, with no command, register or capacity. A dictionary is the list of its Strings, the String of code `k` at index `k`; a code is a natural number (log entry 19). -/

namespace Sys2Proof.Machine

/-- `{ c -> [c] : 0 <= c <= 255 }` (R131, R151). -/
def seedStrings : List (List Symbol) := (List.range 256).map fun n => [BitVec.ofNat 8 n]

/-- What the loop of `encode` carries: the dictionary `D`, the match `m`, the codes so far. -/
structure EncLoop where
  dict : List (List Symbol)
  cur : List Symbol
  out : List Nat
  deriving DecidableEq, Repr

/-- Before the loop of `encode` (R131). -/
def EncLoop.init : EncLoop := { dict := seedStrings, cur := [], out := [] }

/-- One turn of the loop of `encode` (R131). -/
def EncLoop.turn (l : EncLoop) (c : Symbol) : EncLoop :=
  if l.cur ++ [c] ∈ l.dict then { l with cur := l.cur ++ [c] }
  else { dict := l.dict ++ [l.cur ++ [c]], cur := [c], out := l.out ++ [l.dict.idxOf l.cur] }

/-- After the loop of `encode` (R131): the last match, if there is one. -/
def EncLoop.flush (l : EncLoop) : List Nat :=
  if l.cur = [] then l.out else l.out ++ [l.dict.idxOf l.cur]

/-- `encode(d)` (R131). -/
def encodeBytes (d : List Symbol) : List Nat := (d.foldl EncLoop.turn EncLoop.init).flush

/-- What the loop of `decode` carries: the dictionary `D`, `prev`, the symbols so far. -/
structure DecLoop where
  dict : List (List Symbol)
  prev : List Symbol
  out : List Symbol
  deriving DecidableEq, Repr

/-- The first code of `decode` (R151): it must be in the dictionary. -/
def DecLoop.first (k : Nat) : Option DecLoop :=
  match seedStrings[k]? with
  | some s => some { dict := seedStrings, prev := s, out := s }
  | none => none

/-- The String a subsequent code stands for (R151): its own, or `prev ++ [prev[0]]` for the next code. -/
def DecLoop.entry (l : DecLoop) (k : Nat) : Option (List Symbol) :=
  if k < l.dict.length then l.dict[k]?
  else if k = l.dict.length then some (l.prev ++ l.prev.take 1)
  else none

/-- One turn of the loop of `decode` (R151); `none` is `INVALID_DATA`. -/
def DecLoop.turn (l : DecLoop) (k : Nat) : Option DecLoop :=
  match l.entry k with
  | some entry =>
    some { dict := l.dict ++ [l.prev ++ entry.take 1], prev := entry, out := l.out ++ entry }
  | none => none

/-- `decode(cs)` (R151); `none` is `INVALID_DATA`. -/
def decodeCodes : List Nat → Option (List Symbol)
  | [] => some []
  | k :: ks =>
    match (DecLoop.first k).bind fun l => ks.foldlM DecLoop.turn l with
    | some l => some l.out
    | none => none

end Sys2Proof.Machine
end

