-- ==== Sys2Proof/Machine/Script.lean ====
section
/-! DEFINITION. The command scripts of the spec: their lines and pseudo-commands with their expansions (R94), and the textual form, one line at a time (R93). The block sees only the command words a script expands to. -/

namespace Sys2Proof.Machine

/-- One line of a script: a command (R93) or a pseudo-command (R94). -/
inductive ScriptLine where
  /-- A line with nothing but a comment. -/
  | blank
  | encStart
  | encSym (c : Symbol)
  | encEnd
  | decStart
  | decCode (k : Code)
  | decEnd
  | encBytes (d : List Symbol)
  | decCodes (ks : List Code)
  | encodeCall (d : List Symbol)
  | decodeCall (ks : List Code)
  | resetBlock
  | raw (w : CmdWord)
  deriving DecidableEq, Repr

/-- The host presents the word of a command. Requests have no command word: the host cannot issue one (R88). -/
def commandEvent (i : Instr) : List HostEvent :=
  match encode i with
  | .command w => [.command w]
  | .request _ _ => []

/-- `ENC.BYTES`: "one `ENC.SYM` per byte, in order; nothing for the empty text" (R94). -/
def symEvents : List Symbol → List HostEvent
  | [] => []
  | c :: cs => commandEvent (.encSym c) ++ symEvents cs

/-- `DEC.CODES`: "one `DEC.CODE` per code, in order; nothing for the empty list" (R94). -/
def codeEvents : List Code → List HostEvent
  | [] => []
  | k :: ks => commandEvent (.decCode k) ++ codeEvents ks

/-- `ENCODE`: "one whole encoder call" (R94). -/
def encodeEvents (d : List Symbol) : List HostEvent :=
  commandEvent .encStart ++ (symEvents d ++ commandEvent .encEnd)

/-- `DECODE`: "one whole decoder call" (R94). -/
def decodeEvents (ks : List Code) : List HostEvent :=
  commandEvent .decStart ++ (codeEvents ks ++ commandEvent .decEnd)

/-- What the host does for one script line (R94). -/
def ScriptLine.expand : ScriptLine → List HostEvent
  | .blank => []
  | .encStart => commandEvent .encStart
  | .encSym c => commandEvent (.encSym c)
  | .encEnd => commandEvent .encEnd
  | .decStart => commandEvent .decStart
  | .decCode k => commandEvent (.decCode k)
  | .decEnd => commandEvent .decEnd
  | .encBytes d => symEvents d
  | .decCodes ks => codeEvents ks
  | .encodeCall d => encodeEvents d
  | .decodeCall ks => decodeEvents ks
  | .resetBlock => [.reset []]
  | .raw w => [.command w]

/-- What the host does for a whole script. -/
def expandScript : List ScriptLine → List HostEvent
  | [] => []
  | l :: ls => l.expand ++ expandScript ls

/-! ## The textual form (R93); what R93 leaves open of it is log entry 18 -/

/-- A lexical element of a script line. -/
inductive Token where
  | word (w : List Char)
  | char (c : Char)
  | text (t : List Char)
  | comma
  deriving DecidableEq, Repr

/-- The single quote around a character operand (R93). -/
def singleQuote : Char := Char.ofNat 39

/-- The double quote around a text operand (R94). -/
def doubleQuote : Char := Char.ofNat 34

/-- End the word being read, if there is one. -/
def endWord (w : List Char) (ts : List Token) : List Token :=
  if w = [] then ts else .word w.reverse :: ts

/-- Split a line into tokens. `w` is the word being read and `t` the text being read, both backwards; `;` begins a
comment outside quotes (R93). -/
def lexLine : (line : List Char) → (w : List Char) → (t : Option (List Char)) → Option (List Token)
  | [], w, none => some (endWord w [])
  | [], _, some _ => none
  | ch :: rest, w, some t =>
    if ch = doubleQuote then (lexLine rest w none).map (.text t.reverse :: ·)
    else lexLine rest w (some (ch :: t))
  | q :: c :: q' :: rest, w, none =>
    if q = singleQuote ∧ q' = singleQuote then
      (lexLine rest [] none).map fun ts => endWord w (.char c :: ts)
    else if q = doubleQuote then (lexLine (c :: q' :: rest) [] (some [])).map (endWord w)
    else if q = ';' then some (endWord w [])
    else if q = ',' then (lexLine (c :: q' :: rest) [] none).map fun ts => endWord w (.comma :: ts)
    else if q.isWhitespace then (lexLine (c :: q' :: rest) [] none).map (endWord w)
    else lexLine (c :: q' :: rest) (q :: w) none
  | q :: rest, w, none =>
    if q = doubleQuote then (lexLine rest [] (some [])).map (endWord w)
    else if q = ';' then some (endWord w [])
    else if q = ',' then (lexLine rest [] none).map fun ts => endWord w (.comma :: ts)
    else if q.isWhitespace then (lexLine rest [] none).map (endWord w)
    else lexLine rest (q :: w) none

/-- The value of a decimal or hexadecimal digit. -/
def digitValue (c : Char) : Option Nat :=
  if '0'.toNat ≤ c.toNat ∧ c.toNat ≤ '9'.toNat then some (c.toNat - '0'.toNat)
  else if 'a'.toNat ≤ c.toNat ∧ c.toNat ≤ 'f'.toNat then some (c.toNat - 'a'.toNat + 10)
  else if 'A'.toNat ≤ c.toNat ∧ c.toNat ≤ 'F'.toNat then some (c.toNat - 'A'.toNat + 10)
  else none

/-- The number its digits spell in a base, most significant first. -/
def digitsValue (base : Nat) : (acc : Nat) → List Char → Option Nat
  | acc, [] => some acc
  | acc, c :: cs =>
    match digitValue c with
    | some v => if v < base then digitsValue base (acc * base + v) cs else none
    | none => none

/-- "A number in decimal or `0x` hexadecimal" (R93). -/
def numberOf : List Char → Option Nat
  | [] => none
  | ['0', 'x'] => none
  | '0' :: 'x' :: ds => digitsValue 16 0 ds
  | ds => digitsValue 10 0 ds

/-- An ASCII character as a symbol (R13, R93). -/
def asciiSymbol (c : Char) : Option Symbol :=
  if c.toNat < 128 then some (BitVec.ofNat 8 c.toNat) else none

/-- "A symbol operand is a number 0 to 255 ..., or one ASCII character in single quotes" (R93). -/
def symbolOperand : Token → Option Symbol
  | .word w =>
    match numberOf w with
    | some n => if n < 256 then some (BitVec.ofNat 8 n) else none
    | none => none
  | .char c => asciiSymbol c
  | .text _ => none
  | .comma => none

/-- "A code operand is a number 0 to 4294967295" (R93). -/
def codeOperand : Token → Option Code
  | .word w =>
    match numberOf w with
    | some n => if n < 2 ^ 32 then some (BitVec.ofNat 32 n) else none
    | none => none
  | .char _ => none
  | .text _ => none
  | .comma => none

/-- Operands separated by commas; none at all is the empty list (R94). -/
def operandList {α : Type} (one : Token → Option α) : List Token → Option (List α)
  | [] => some []
  | [t] =>
    match one t with
    | some a => some [a]
    | none => none
  | t :: .comma :: u :: rest =>
    match one t, operandList one (u :: rest) with
    | some a, some as => some (a :: as)
    | _, _ => none
  | _ => none

/-- The bytes of `ENC.BYTES` and `ENCODE`: a text in double quotes or a list of numbers (R94). -/
def bytesOperand : List Token → Option (List Symbol)
  | [.text t] => t.mapM asciiSymbol
  | ts => operandList symbolOperand ts

/-- The line a mnemonic and its operands spell (R93, R94). -/
def lineOf (mnemonic : List Char) (ts : List Token) : Option ScriptLine :=
  if mnemonic = "ENC.START".toList then if ts = [] then some .encStart else none
  else if mnemonic = "ENC.END".toList then if ts = [] then some .encEnd else none
  else if mnemonic = "DEC.START".toList then if ts = [] then some .decStart else none
  else if mnemonic = "DEC.END".toList then if ts = [] then some .decEnd else none
  else if mnemonic = "RESET".toList then if ts = [] then some .resetBlock else none
  else if mnemonic = "ENC.BYTES".toList then (bytesOperand ts).map .encBytes
  else if mnemonic = "ENCODE".toList then (bytesOperand ts).map .encodeCall
  else if mnemonic = "DEC.CODES".toList then (operandList codeOperand ts).map .decCodes
  else if mnemonic = "DECODE".toList then (operandList codeOperand ts).map .decodeCall
  else
    match ts with
    | [t] =>
      if mnemonic = "ENC.SYM".toList then (symbolOperand t).map .encSym
      else if mnemonic = "DEC.CODE".toList then (codeOperand t).map .decCode
      else if mnemonic = "RAW".toList then
        match t with
        | .word w =>
          match numberOf w with
          | some n => if n < 2 ^ 36 then some (.raw (BitVec.ofNat 36 n)) else none
          | none => none
        | .char _ => none
        | .text _ => none
        | .comma => none
      else none
    | _ => none

/-- Read one line of a script (R93). -/
def parseLine (line : List Char) : Option ScriptLine :=
  match lexLine line [] none with
  | some [] => some .blank
  | some (.word m :: ts) => lineOf m ts
  | _ => none

/-- What the host does for a script given as lines of text; `none` where a line is not in the syntax. -/
def assemble (ls : List (List Char)) : Option (List HostEvent) :=
  match ls.mapM parseLine with
  | some parsed => some (expandScript parsed)
  | none => none

end Sys2Proof.Machine
end

