-- ==== Sys2Proof/Machine/Wire.lean ====
section
/-! DEFINITION. The serialization collaborator at the block's boundary: `PACK` and `UNPACK` (R62 to R66). The block has no command and no state for them (R5). -/

namespace Sys2Proof.Machine

/-- A code as 4 bytes in big-endian order (R63). -/
def packCode (k : Code) : List Byte :=
  [k.extractLsb' 24 8, k.extractLsb' 16 8, k.extractLsb' 8 8, k.extractLsb' 0 8]

/-- `PACK(codes)` (R63): concatenated with no delimiters; it has no error. -/
def pack : List Code → List Byte
  | [] => []
  | k :: ks => packCode k ++ pack ks

/-- Why `UNPACK` fails. -/
inductive WireError where
  /-- `MALFORMED_BUFFER` (R65, R168): the length is not a multiple of 4; no code is delivered. -/
  | malformedBuffer
  deriving DecidableEq, Repr

/-- The code of one group of four bytes, the first in bits 31 to 24 (R64). -/
def groupCode (b0 b1 b2 b3 : Byte) : Code := b0 ++ (b1 ++ (b2 ++ b3))

/-- `UNPACK(bytes)` (R64); it fails as a whole (R65). -/
def unpack : List Byte → Except WireError (List Code)
  | [] => .ok []
  | b0 :: b1 :: b2 :: b3 :: rest =>
    match unpack rest with
    | .ok ks => .ok (groupCode b0 b1 b2 b3 :: ks)
    | .error e => .error e
  | _ => .error .malformedBuffer

end Sys2Proof.Machine
end

