-- ==== Sys2Proof/Machine/Serialized.lean ====
section
/-! DEFINITION. The two forms the surrounding software reads and writes (R66): the compressed form of a byte sequence, `PACK(encode(d))`, and the decompressed form of a buffer, `decode(UNPACK(b))`. The block performs neither packing (R5). -/

namespace Sys2Proof.Machine

/-- The codes of `encode` as the 32-bit codes `PACK` takes (R9, R63); `none` where one does not fit (log entry 21). -/
def codesOf : List Nat → Option (List Code)
  | [] => some []
  | n :: ns => if n < 2 ^ 32 then (codesOf ns).map (BitVec.ofNat 32 n :: ·) else none

/-- The compressed form of a byte sequence, `PACK(encode(d))` (R66). -/
def compress (d : List Symbol) : Option (List Byte) := (codesOf (encodeBytes d)).map pack

/-- Why a buffer has no decompressed form. -/
inductive DecompressError where
  /-- `UNPACK` fails: `MALFORMED_BUFFER` (R65, R168). -/
  | malformedBuffer
  /-- `decode` fails on the codes: `INVALID_DATA` (R151, R153). -/
  | invalidData
  deriving DecidableEq, Repr

/-- The decompressed form of a buffer, `decode(UNPACK(b))` (R66). -/
def decompress (b : List Byte) : Except DecompressError (List Symbol) :=
  match unpack b with
  | .error .malformedBuffer => .error .malformedBuffer
  | .ok ks =>
    match decodeCodes (ks.map BitVec.toNat) with
    | some d => .ok d
    | none => .error .invalidData

end Sys2Proof.Machine
end

