-- ==== Sys2Proof/Safety.lean ====
section
/-! DEFINITION. What a safe run is, in the terms claims use: it ends in a next state and no fault is recorded on the way. -/

namespace Sys2Proof.Machine

/-- "No fault recorded": the three sticky bits are 0 (R35); a refused word counts with the faults (R169). -/
def State.clean (s : State) : Bool := !s.enc.ctl.sticky && !s.dec.ctl.sticky && !s.cmdIllegal

/-- `n` steps from `s` go through, and at every moment of the run, the first and the last included, no fault is recorded.
DESIGN CHOICE (log entry 23): a fault or a refused word counts although a reset clears its sticky bit later in the run.
R86 asks for a mark "kept for the whole run", R169 for one kept "until reset", and the spec does not say which a claim
"no run faults" reads. -/
def SafeRun (n : Nat) (s : State) : Prop :=
  ∀ m, m ≤ n → ∃ t : State, Sys2Proof.core.run m s = .next t ∧ t.clean = true

end Sys2Proof.Machine
end

