-- ==== Sys2Proof/Certificates/Slice0/Obligations.lean ====
section
/-! DEFINITION. The statements for the provers, in the order of the spec's files: reset and steps, encoding, encoder, decoder, faults, frames, dictionary requests, invariants, independence, whole calls, the boundary. -/

open Sys2Proof Sys2Proof.Machine

/-! ## Reset, the step, the host's words -/

/-- R41: every register the table gives a value has it after reset, whatever the configuration. `match_code`,
`prev_code` and `mem`, unspecified there, are not spoken of. -/
def Obligations.ResetStateHoldsTheStatedValues : Prop :=
  ∀ s : State, (s = State.reset ∨ ∃ c, s = State.resetWith c) →
    s.enc.ctl.state.code = 0 ∧ s.dec.ctl.state.code = 0 ∧
    s.enc.matchValid = false ∧ s.dec.prevValid = false ∧
    s.enc.ctl.cause.code = 0 ∧ s.dec.ctl.cause.code = 0 ∧
    s.enc.ctl.info = 0 ∧ s.dec.ctl.info = 0 ∧
    s.enc.ctl.sticky = false ∧ s.dec.ctl.sticky = false ∧ s.cmdIllegal = false ∧
    s.enc.out = [] ∧ s.dec.out = [] ∧
    s.enc.dict.nextCode = 256 ∧ s.dec.dict.nextCode = 256

/-- R36: what the status outputs show after reset; S6 and S14 show no value a claim may read
(the model's choice, log entry 16). -/
def Obligations.StatusOutputsAfterReset : Prop :=
  ∀ c : Config, (State.resetWith c).status =
    { encState := 0, encCause := 0, encInfo := 0, encSticky := 0, encNextCode := 256, encMatchValid := 0,
      encMatchCode := none, decState := 0, decCause := 0, decInfo := 0, decSticky := 0, decNextCode := 256,
      decPrevValid := 0, decPrevCode := none, cmdIllegal := 0 }

/-- R190: the reset event, from any state. The words presented meanwhile are not accepted; the configuration and what
the host does afterwards stay. That the event falls between commands is the model's (log entry 13). -/
def Obligations.ResetEventRestoresResetValues : Prop :=
  ∀ (s : State) (presented : List CmdWord) (rest : List HostEvent),
    s.request = none → s.input = .reset presented :: rest →
    ∃ t, step s = .next t ∧ t.input = rest ∧ t.config = s.config ∧
      t.enc.ctl = ⟨.idle, .none, 0, false⟩ ∧ t.dec.ctl = ⟨.idle, .none, 0, false⟩ ∧ t.cmdIllegal = false ∧
      t.enc.matchValid = false ∧ t.dec.prevValid = false ∧ t.enc.out = [] ∧ t.dec.out = [] ∧
      t.enc.dict.nextCode = 256 ∧ t.dec.dict.nextCode = 256

/-- R35: a unit's sticky bit is set exactly when the unit takes a fault, `cmd_illegal` exactly when a command word is
refused, and nothing but reset clears them. -/
def Obligations.StickyBitsRecordUntilReset : Prop :=
  ∀ s t : State, step s = .next t → ¬ s.atReset →
    (t.enc.ctl.sticky = true ↔ s.enc.ctl.sticky = true ∨ ∃ f, takesFault s.enc.ctl t.enc.ctl f) ∧
    (t.dec.ctl.sticky = true ↔ s.dec.ctl.sticky = true ∨ ∃ f, takesFault s.dec.ctl t.dec.ctl f) ∧
    (t.cmdIllegal = true ↔ s.cmdIllegal = true ∨
      (s.request = none ∧ ∃ w rest r, s.input = .command w :: rest ∧ decode (.command w) = .error r))

/-- R40: the configuration is fixed for the life of the block. It travels in `State` by the model's choice (log entry 1). -/
def Obligations.ConfigurationIsFixed : Prop :=
  ∀ s t : State, step s = .next t → t.config = s.config

/-- A step runs the decoded instruction: a command from the head of the command stream, a request from a private port.
With nothing at its inputs the block keeps all its state. The command stream, the port and the idle step are the model's
(log entries 6, 7, 15). -/
def Obligations.StepRunsTheDecodedInstruction : Prop :=
  (∀ (s : State) (w : CmdWord) (rest : List HostEvent) (i : Instr),
    s.request = none → s.input = .command w :: rest → decode (.command w) = .ok i →
    step s = exec i { s with input := rest }) ∧
  (∀ (s : State) (u : UnitId) (w : ReqWord) (i : Instr),
    s.request = some (u, w) → decode (.request u w) = .ok i →
    step s = exec i { s with request := none }) ∧
  (∀ s : State, s.request = none → s.input = [] → step s = .next s)

/-- A word of the opcode table placed with `withFetchWord` is the one the next step runs. The port it is placed on is
the model's choice (log entries 6, 8). -/
def Obligations.TableWordIsTheNextInstruction : Prop :=
  ∀ (s : State) (nbits w : Nat) (i : Instr), decodeTableWord nbits w = some i →
    step (s.withFetchWord nbits w) = exec i { s with request := none }

/-- R86: which command words spell no command, and that such a word is consumed, sets `cmd_illegal`, and changes
nothing else. -/
def Obligations.RefusedWordsOnlySetCmdIllegal : Prop :=
  ∀ w : CmdWord,
    ((∃ r, decode (.command w) = .error r) ↔
      (w.toNat / 2 ^ 32 ∈ [0, 4, 8, 9, 10, 11, 12, 13, 14, 15] ∨
       (w.toNat / 2 ^ 32 ∈ [1, 3, 5, 7] ∧ w.toNat % 2 ^ 32 ≠ 0) ∨
       (w.toNat / 2 ^ 32 = 2 ∧ w.toNat % 2 ^ 32 / 2 ^ 8 ≠ 0))) ∧
    (∀ (s : State) (rest : List HostEvent) (r : Reject),
      s.request = none → s.input = .command w :: rest → decode (.command w) = .error r →
      step s = .next { s with input := rest, cmdIllegal := true })

/-! ## Encoding -/

/-- R85, R89: a word spells an instruction exactly when it matches that instruction's row by match and mask, and it
matches at most one row. -/
def Obligations.DecoderAgreesWithTheMaskTable : Prop :=
  ∀ p : PortWord, spelledBy p =
    match decode p with
    | .ok i => [i.mnemonic]
    | .error _ => []

/-- Decoding an encoded instruction gives it back, with every operand at every value. -/
def Obligations.DecodeOfEncodeIsTheInstruction : Prop :=
  ∀ i : Instr, decode (encode i) = .ok i

/-- Each word has one meaning: a word that decodes is the word that encodes what it decodes to. -/
def Obligations.EncodeOfDecodeIsTheWord : Prop :=
  ∀ (p : PortWord) (i : Instr), decode p = .ok i → encode i = p

/-- Words written out in the spec's vectors W1 to W22 decode to what they stand for. -/
def Obligations.WrittenOutWordsDecode : Prop :=
  decode (.command 0x100000000) = .ok .encStart ∧
  decode (.command 0x200000054) = .ok (.encSym 84) ∧
  decode (.command 0x300000000) = .ok .encEnd ∧
  decode (.command 0x500000000) = .ok .decStart ∧
  decode (.command 0x600000100) = .ok (.decCode 256) ∧
  decode (.command 0x700000000) = .ok .decEnd ∧
  decode (.request .enc 0x10000000000) = .ok (.dSeed .enc) ∧
  decode (.request .dec 0x20000010000) = .ok (.dBound .dec 256) ∧
  decode (.request .enc 0x3000000544F) = .ok (.dLookup .enc 84 79) ∧
  decode (.request .enc 0x4000000544F) = .ok (.dInsert .enc 84 79) ∧
  decode (.request .dec 0x50000010900) = .ok (.dFetch .dec 265) ∧
  decode (.request .dec 0x60000010900) = .ok (.dFirst .dec 265)

/-! ## Encoder commands -/

/-- R120: `ENC.START` begins a call from `IDLE`, `DONE` and `FAULT`, and raises `PROTOCOL` in `RUN`. -/
def Obligations.EncStartBeginsACall : Prop :=
  ∀ s : State,
    (s.enc.ctl.state ≠ .run → exec .encStart s = .next (s.withEnc { s.enc with
      dict := { s.enc.dict with nextCode := 256 }
      matchValid := false
      out := []
      ctl := { s.enc.ctl with state := .run, cause := .none, info := 0 } })) ∧
    (s.enc.ctl.state = .run → exec .encStart s = .next (s.withEnc { s.enc with
      ctl := { state := .fault, cause := .protocol, info := 0, sticky := true } }))

/-- R121 on the registers: the first symbol loads the match; a candidate that is in the dictionary extends it, with
the least code that holds it; a candidate that is not is inserted at `next_code` after the old match is emitted, or
raises `DICT_FULL` where there is no free cell. -/
def Obligations.EncSymFollowsTheLoopBody : Prop :=
  ∀ (s : State) (c : Symbol), s.enc.ctl.state = .run →
    (s.enc.matchValid = false → exec (.encSym c) s = .next (s.withEnc { s.enc with
      matchCode := c.setWidth 32, matchValid := true })) ∧
    (s.enc.matchValid = true → s.config.wf = true → s.enc.dict.Inv s.config.dictCap →
      s.enc.matchCode.toNat < s.enc.dict.nextCode.toNat →
      (∀ k, 256 ≤ k → k < s.enc.dict.nextCode.toNat →
        s.enc.dict.mem.read k = some ⟨s.enc.matchCode, c⟩ →
        (∀ j, 256 ≤ j → j < k → s.enc.dict.mem.read j ≠ some ⟨s.enc.matchCode, c⟩) →
        exec (.encSym c) s = .next (s.withEnc { s.enc with matchCode := BitVec.ofNat 32 k })) ∧
      ((∀ k, 256 ≤ k → k < s.enc.dict.nextCode.toNat → s.enc.dict.mem.read k ≠ some ⟨s.enc.matchCode, c⟩) →
        (s.config.dictCap = .finite s.enc.dict.nextCode.toNat →
          exec (.encSym c) s = .next (s.withEnc { s.enc with
            ctl := { state := .fault, cause := .dictFull, info := c.setWidth 32, sticky := true } })) ∧
        (s.enc.dict.nextCode.toNat < s.config.dictCap.limit →
          ∃ m : Memory,
            exec (.encSym c) s = .next (s.withEnc { s.enc with
              out := s.enc.out ++ [s.enc.matchCode]
              dict := { nextCode := s.enc.dict.nextCode + 1, mem := m }
              matchCode := c.setWidth 32 }) ∧
            m.read s.enc.dict.nextCode.toNat = some ⟨s.enc.matchCode, c⟩ ∧
            ∀ a, a ≠ s.enc.dict.nextCode.toNat → m.read a = s.enc.dict.mem.read a)))

/-- R121 on Strings, through R24 and R31: with `m` the current match, the match becomes `m ++ [c]` if that String is in
the dictionary (with no emission and no insertion), and otherwise the code of `m` is emitted, `m ++ [c]` is bound to the
code `next_code` had, and the match becomes `[c]`. -/
def Obligations.EncSymOnStrings : Prop :=
  ∀ (s t : State) (c : Symbol) (m : List Symbol), s.Inv → s.enc.ctl.state = .run →
    s.enc.matchStr = some m → exec (.encSym c) s = .next t → t.enc.ctl.state = .run →
    ((∃ k, s.enc.dict.encMap (m ++ [c]) k) →
      t.enc.matchStr = some (m ++ [c]) ∧ t.enc.out = s.enc.out ∧ t.enc.dict = s.enc.dict) ∧
    ((¬ ∃ k, s.enc.dict.encMap (m ++ [c]) k) →
      (∃ k, s.enc.dict.encMap m k ∧ t.enc.out = s.enc.out ++ [k]) ∧
      t.enc.dict.encMap (m ++ [c]) (lowCode s.enc.dict.nextCode) ∧
      t.enc.dict.nextCode.toNat = s.enc.dict.nextCode.toNat + 1 ∧
      (∀ j, s.enc.dict.bound j = true → t.enc.dict.decMap j = s.enc.dict.decMap j) ∧
      t.enc.matchStr = some [c])

/-- R122: `ENC.END` in `RUN` emits the last match, if there is one, and completes the call; nothing is inserted. -/
def Obligations.EncEndEmitsTheLastMatch : Prop :=
  ∀ s : State, s.enc.ctl.state = .run →
    (s.enc.matchValid = true → exec .encEnd s = .next (s.withEnc { s.enc with
      out := s.enc.out ++ [s.enc.matchCode], matchValid := false, ctl := { s.enc.ctl with state := .done } })) ∧
    (s.enc.matchValid = false → exec .encEnd s = .next (s.withEnc { s.enc with
      ctl := { s.enc.ctl with state := .done } }))

/-- R123: the admission table of the encoder, all twelve cells. -/
def Obligations.EncoderAdmissionTable : Prop :=
  ∀ (s : State) (c : Symbol),
    (s.enc.ctl.state = .idle ∨ s.enc.ctl.state = .done →
      exec .encStart s = s.onEnc Encoder.startRule ∧
      exec (.encSym c) s = .next (s.withEnc { s.enc with
        ctl := { state := .fault, cause := .protocol, info := c.setWidth 32, sticky := true } }) ∧
      exec .encEnd s = .next (s.withEnc { s.enc with
        ctl := { state := .fault, cause := .protocol, info := 0, sticky := true } })) ∧
    (s.enc.ctl.state = .run →
      exec .encStart s = .next (s.withEnc { s.enc with
        ctl := { state := .fault, cause := .protocol, info := 0, sticky := true } }) ∧
      exec (.encSym c) s = s.onEnc (Encoder.symRule s.config.dictCap c) ∧
      exec .encEnd s = s.onEnc Encoder.endRule) ∧
    (s.enc.ctl.state = .fault →
      exec .encStart s = s.onEnc Encoder.startRule ∧
      exec (.encSym c) s = .next s ∧ exec .encEnd s = .next s)

/-- R132: the encoder's state transitions, and that no other event changes `ENC.state`. -/
def Obligations.EncoderStateTransitions : Prop :=
  ∀ s t : State, step s = .next t →
    (fetch s = .idle → t.enc.ctl.state = s.enc.ctl.state) ∧
    (∀ s', fetch s = .reset s' → t.enc.ctl.state = .idle) ∧
    (∀ s', fetch s = .illegal s' → t.enc.ctl.state = s.enc.ctl.state) ∧
    (∀ i s', fetch s = .run i s' →
      (i = .encStart →
        (s.enc.ctl.state ≠ .run → t.enc.ctl.state = .run) ∧
        (s.enc.ctl.state = .run → t.enc.ctl.state = .fault ∧ t.enc.ctl.cause = .protocol)) ∧
      (∀ c, i = .encSym c →
        (s.enc.ctl.state = .run →
          t.enc.ctl.state = .run ∨ (t.enc.ctl.state = .fault ∧ t.enc.ctl.cause = .dictFull)) ∧
        (s.enc.ctl.state = .idle ∨ s.enc.ctl.state = .done →
          t.enc.ctl.state = .fault ∧ t.enc.ctl.cause = .protocol) ∧
        (s.enc.ctl.state = .fault → t.enc = s.enc)) ∧
      (i = .encEnd →
        (s.enc.ctl.state = .run → t.enc.ctl.state = .done) ∧
        (s.enc.ctl.state = .idle ∨ s.enc.ctl.state = .done →
          t.enc.ctl.state = .fault ∧ t.enc.ctl.cause = .protocol) ∧
        (s.enc.ctl.state = .fault → t.enc = s.enc)) ∧
      (commandUnit i ≠ some .enc → t.enc.ctl.state = s.enc.ctl.state))

/-- R138: a code the encoder emits, in `ENC.SYM` and at the end in `ENC.END`, is that of the longest bound String that
the input not yet encoded begins with. That input is `m ++ c :: rest` at a symbol `c`, whatever follows, and `m` at the
end. -/
def Obligations.EmittedMatchIsTheLongest : Prop :=
  ∀ (s t : State) (m : List Symbol) (k : Code), s.Inv → s.enc.ctl.state = .run →
    s.enc.matchValid = true → s.enc.matchStr = some m → t.enc.out = s.enc.out ++ [k] →
    (∀ c, exec (.encSym c) s = .next t →
      s.enc.dict.encMap m k ∧
      ∀ (rest w : List Symbol) (j : Code), s.enc.dict.encMap w j → w <+: m ++ c :: rest → w.length ≤ m.length) ∧
    (exec .encEnd s = .next t →
      s.enc.dict.encMap m k ∧
      ∀ (w : List Symbol) (j : Code), s.enc.dict.encMap w j → w <+: m → w.length ≤ m.length)

/-! ## Decoder commands -/

/-- R140: `DEC.START` begins a call from `IDLE`, `DONE` and `FAULT`, and raises `PROTOCOL` in `RUN`. -/
def Obligations.DecStartBeginsACall : Prop :=
  ∀ s : State,
    (s.dec.ctl.state ≠ .run → exec .decStart s = .next (s.withDec { s.dec with
      dict := { s.dec.dict with nextCode := 256 }
      prevValid := false
      out := []
      ctl := { s.dec.ctl with state := .run, cause := .none, info := 0 } })) ∧
    (s.dec.ctl.state = .run → exec .decStart s = .next (s.withDec { s.dec with
      ctl := { state := .fault, cause := .protocol, info := 0, sticky := true } }))

/-- R141, R144: the first code of a call. With the freshly seeded dictionary a code below 256 pushes its one symbol and
becomes the previous code; every other code, 256 included, raises `INVALID_DATA`. -/
def Obligations.DecCodeFirstCode : Prop :=
  ∀ (s : State) (k : Code), s.dec.ctl.state = .run → s.dec.prevValid = false → s.dec.dict.nextCode = 256 →
    (k.toNat < 256 → exec (.decCode k) s = .next (s.withDec { s.dec with
      out := s.dec.out ++ [k.setWidth 8], prevCode := k, prevValid := true })) ∧
    (256 ≤ k.toNat → exec (.decCode k) s = .next (s.withDec { s.dec with
      ctl := { state := .fault, cause := .invalidData, info := k, sticky := true } }))

/-- R141 on the registers. The first code of a call pushes its String and becomes the previous code if it is bound, and
raises `INVALID_DATA` if not. A subsequent code above `next_code` raises `INVALID_DATA`; an acceptable one raises
`DICT_FULL` where there is no free cell, and otherwise pushes its entry, inserts (previous code, first symbol of the
entry) at `next_code`, and becomes the previous code. The entry is the code's String, or the previous String and its own
first symbol for the code that equals `next_code`. -/
def Obligations.DecCodeFollowsTheLoopBody : Prop :=
  ∀ (s : State) (k : Code), s.dec.ctl.state = .run → s.config.wf = true → s.dec.dict.Inv s.config.dictCap →
    (s.dec.prevValid = false →
      (k.toNat < s.dec.dict.nextCode.toNat →
        ∃ entry : Str, s.dec.dict.str k = some entry ∧ exec (.decCode k) s = .next (s.withDec { s.dec with
          out := s.dec.out ++ entry.toList, prevCode := k, prevValid := true })) ∧
      (s.dec.dict.nextCode.toNat ≤ k.toNat → exec (.decCode k) s = .next (s.withDec { s.dec with
        ctl := { state := .fault, cause := .invalidData, info := k, sticky := true } }))) ∧
    (s.dec.prevValid = true → s.dec.prevCode.toNat < s.dec.dict.nextCode.toNat →
      (s.dec.dict.nextCode.toNat < k.toNat → exec (.decCode k) s = .next (s.withDec { s.dec with
        ctl := { state := .fault, cause := .invalidData, info := k, sticky := true } })) ∧
      (k.toNat ≤ s.dec.dict.nextCode.toNat → s.config.dictCap = .finite s.dec.dict.nextCode.toNat →
        exec (.decCode k) s = .next (s.withDec { s.dec with
          ctl := { state := .fault, cause := .dictFull, info := k, sticky := true } })) ∧
      (k.toNat ≤ s.dec.dict.nextCode.toNat → s.dec.dict.nextCode.toNat < s.config.dictCap.limit →
        ∃ (entry : Str) (m : Memory),
          exec (.decCode k) s = .next (s.withDec { s.dec with
            out := s.dec.out ++ entry.toList
            dict := { nextCode := s.dec.dict.nextCode + 1, mem := m }
            prevCode := k }) ∧
          (k.toNat < s.dec.dict.nextCode.toNat → s.dec.dict.str k = some entry) ∧
          (k.toNat = s.dec.dict.nextCode.toNat →
            ∃ prev, s.dec.dict.str s.dec.prevCode = some prev ∧ entry = prev.snoc prev.head) ∧
          m.read s.dec.dict.nextCode.toNat = some ⟨s.dec.prevCode, entry.head⟩ ∧
          ∀ a, a ≠ s.dec.dict.nextCode.toNat → m.read a = s.dec.dict.mem.read a))

/-- R154: after a completed `DEC.CODE` the previous code is bound, its String is what the command emitted, and the
Strings of the codes bound before are what they were. -/
def Obligations.DecCodeLeavesTheEmittedStringAsPrevious : Prop :=
  ∀ (s t : State) (k : Code), s.Inv → s.dec.ctl.state = .run → exec (.decCode k) s = .next t →
    t.dec.ctl.state = .run →
    t.dec.prevCode = k ∧
    (∃ w, t.dec.prevStr = some w ∧ t.dec.out = s.dec.out ++ w) ∧
    ∀ j, s.dec.dict.bound j = true → t.dec.dict.decMap j = s.dec.dict.decMap j

/-- R142: `DEC.END` in `RUN` completes the call; nothing is emitted and nothing inserted. -/
def Obligations.DecEndCompletesTheCall : Prop :=
  ∀ s : State, s.dec.ctl.state = .run →
    exec .decEnd s = .next (s.withDec { s.dec with
      prevValid := false, ctl := { s.dec.ctl with state := .done } })

/-- R143: the admission table of the decoder, all twelve cells. -/
def Obligations.DecoderAdmissionTable : Prop :=
  ∀ (s : State) (k : Code),
    (s.dec.ctl.state = .idle ∨ s.dec.ctl.state = .done →
      exec .decStart s = s.onDec Decoder.startRule ∧
      exec (.decCode k) s = .next (s.withDec { s.dec with
        ctl := { state := .fault, cause := .protocol, info := k, sticky := true } }) ∧
      exec .decEnd s = .next (s.withDec { s.dec with
        ctl := { state := .fault, cause := .protocol, info := 0, sticky := true } })) ∧
    (s.dec.ctl.state = .run →
      exec .decStart s = .next (s.withDec { s.dec with
        ctl := { state := .fault, cause := .protocol, info := 0, sticky := true } }) ∧
      exec (.decCode k) s = s.onDec (Decoder.codeRule s.config.dictCap k) ∧
      exec .decEnd s = s.onDec Decoder.endRule) ∧
    (s.dec.ctl.state = .fault →
      exec .decStart s = s.onDec Decoder.startRule ∧
      exec (.decCode k) s = .next s ∧ exec .decEnd s = .next s)

/-- R152: the decoder's state transitions, that no other event changes `DEC.state`, and that `prev_valid`, set by a
completed `DEC.CODE`, stays until `DEC.END`, `DEC.START` or reset. -/
def Obligations.DecoderStateTransitions : Prop :=
  ∀ s t : State, step s = .next t →
    (fetch s = .idle → t.dec.ctl.state = s.dec.ctl.state ∧ t.dec.prevValid = s.dec.prevValid) ∧
    (∀ s', fetch s = .reset s' → t.dec.ctl.state = .idle) ∧
    (∀ s', fetch s = .illegal s' → t.dec.ctl.state = s.dec.ctl.state ∧ t.dec.prevValid = s.dec.prevValid) ∧
    (∀ i s', fetch s = .run i s' →
      (i = .decStart →
        (s.dec.ctl.state ≠ .run → t.dec.ctl.state = .run) ∧
        (s.dec.ctl.state = .run → t.dec.ctl.state = .fault ∧ t.dec.ctl.cause = .protocol)) ∧
      (∀ k, i = .decCode k →
        (s.dec.ctl.state = .run →
          (t.dec.ctl.state = .run ∧ t.dec.prevValid = true) ∨
          (t.dec.ctl.state = .fault ∧ (t.dec.ctl.cause = .invalidData ∨ t.dec.ctl.cause = .dictFull))) ∧
        (s.dec.ctl.state = .idle ∨ s.dec.ctl.state = .done →
          t.dec.ctl.state = .fault ∧ t.dec.ctl.cause = .protocol) ∧
        (s.dec.ctl.state = .fault → t.dec = s.dec)) ∧
      (i = .decEnd →
        (s.dec.ctl.state = .run → t.dec.ctl.state = .done) ∧
        (s.dec.ctl.state = .idle ∨ s.dec.ctl.state = .done →
          t.dec.ctl.state = .fault ∧ t.dec.ctl.cause = .protocol) ∧
        (s.dec.ctl.state = .fault → t.dec = s.dec)) ∧
      (commandUnit i ≠ some .dec → t.dec.ctl.state = s.dec.ctl.state ∧ t.dec.prevValid = s.dec.prevValid))

/-! ## Faults -/

/-- R164: which command can raise what and exactly when, for the six commands; no command faults the other unit and no
request faults a unit. -/
def Obligations.WhichCommandRaisesWhat : Prop :=
  ∀ (i : Instr) (s t : State), s.Inv → exec i s = .next t →
    (i = .encStart → ∀ f, takesFault s.enc.ctl t.enc.ctl f ↔ f = .protocol ∧ s.enc.ctl.state = .run) ∧
    (∀ c, i = .encSym c → ∀ f, takesFault s.enc.ctl t.enc.ctl f ↔
      (f = .dictFull ∧ s.enc.ctl.state = .run ∧ s.enc.matchValid = true ∧
        s.config.dictCap = .finite s.enc.dict.nextCode.toNat ∧
        ∀ k, 256 ≤ k → k < s.enc.dict.nextCode.toNat → s.enc.dict.mem.read k ≠ some ⟨s.enc.matchCode, c⟩) ∨
      (f = .protocol ∧ (s.enc.ctl.state = .idle ∨ s.enc.ctl.state = .done))) ∧
    (i = .encEnd → ∀ f, takesFault s.enc.ctl t.enc.ctl f ↔
      f = .protocol ∧ (s.enc.ctl.state = .idle ∨ s.enc.ctl.state = .done)) ∧
    (i = .decStart → ∀ f, takesFault s.dec.ctl t.dec.ctl f ↔ f = .protocol ∧ s.dec.ctl.state = .run) ∧
    (∀ k, i = .decCode k → ∀ f, takesFault s.dec.ctl t.dec.ctl f ↔
      (f = .invalidData ∧ s.dec.ctl.state = .run ∧
        ((s.dec.prevValid = false ∧ s.dec.dict.nextCode.toNat ≤ k.toNat) ∨
         (s.dec.prevValid = true ∧ s.dec.dict.nextCode.toNat < k.toNat))) ∨
      (f = .dictFull ∧ s.dec.ctl.state = .run ∧ s.dec.prevValid = true ∧
        k.toNat ≤ s.dec.dict.nextCode.toNat ∧ s.config.dictCap = .finite s.dec.dict.nextCode.toNat) ∨
      (f = .protocol ∧ (s.dec.ctl.state = .idle ∨ s.dec.ctl.state = .done))) ∧
    (i = .decEnd → ∀ f, takesFault s.dec.ctl t.dec.ctl f ↔
      f = .protocol ∧ (s.dec.ctl.state = .idle ∨ s.dec.ctl.state = .done)) ∧
    (commandUnit i ≠ some .enc → ∀ f, ¬ takesFault s.enc.ctl t.enc.ctl f) ∧
    (commandUnit i ≠ some .dec → ∀ f, ¬ takesFault s.dec.ctl t.dec.ctl f)

/-- R171: a fault writes `cause`, `info` (the command's `arg`), `sticky` and `state`, and nothing else: no token is
pushed, no entry inserted, the hold register kept, the other unit not affected. -/
def Obligations.FaultEntryWritesFourRegisters : Prop :=
  ∀ (i : Instr) (s t : State) (f : Cause), exec i s = .next t →
    (takesFault s.enc.ctl t.enc.ctl f → f ≠ .none ∧
      t = s.withEnc { s.enc with ctl := { state := .fault, cause := f, info := argOf i, sticky := true } }) ∧
    (takesFault s.dec.ctl t.dec.ctl f → f ≠ .none ∧
      t = s.withDec { s.dec with ctl := { state := .fault, cause := f, info := argOf i, sticky := true } })

/-- R174: a unit leaves `FAULT` only by its own `START`, which clears `cause` and `info` and keeps `sticky`, or by
reset. -/
def Obligations.OnlyStartAndResetLeaveFault : Prop :=
  ∀ s t : State, step s = .next t →
    (s.enc.ctl.state = .fault → t.enc.ctl.state ≠ .fault →
      s.atReset ∨ ((∃ s', fetch s = .run .encStart s') ∧
        t.enc.ctl = { state := .run, cause := .none, info := 0, sticky := s.enc.ctl.sticky })) ∧
    (s.dec.ctl.state = .fault → t.dec.ctl.state ≠ .fault →
      s.atReset ∨ ((∃ s', fetch s = .run .decStart s') ∧
        t.dec.ctl = { state := .run, cause := .none, info := 0, sticky := s.dec.ctl.sticky }))

/-- R169: a run in which a fault or a refused word is on record stays marked until reset. -/
def Obligations.RecordedFaultsMarkTheRun : Prop :=
  ∀ (n : Nat) (s t : State), core.run n s = .next t → s.request = none →
    (∀ e ∈ s.input, ∀ ws, e ≠ .reset ws) → s.clean = false → t.clean = false

/-! ## Frames -/

/-- R125: a command of `ENC` changes the encoder unit and nothing else; every cell of `DEC.dict` reads as before. -/
def Obligations.EncoderCommandsTouchOnlyTheEncoder : Prop :=
  ∀ (i : Instr) (s t : State), commandUnit i = some .enc → exec i s = .next t →
    t = s.withEnc t.enc ∧ ∀ a, t.dec.dict.mem.read a = s.dec.dict.mem.read a

/-- R146: a command of `DEC` changes the decoder unit and nothing else; every cell of `ENC.dict` reads as before. -/
def Obligations.DecoderCommandsTouchOnlyTheDecoder : Prop :=
  ∀ (i : Instr) (s t : State), commandUnit i = some .dec → exec i s = .next t →
    t = s.withDec t.dec ∧ ∀ a, t.enc.dict.mem.read a = s.enc.dict.mem.read a

/-- R42: the registers the access table marks as not written by a command keep their values. (A faulting `ENC.SYM` or
`DEC.CODE` is the table's column of fault entry.) -/
def Obligations.RegistersACommandDoesNotWrite : Prop :=
  ∀ s t : State,
    (exec .encStart s = .next t → t.enc.matchCode = s.enc.matchCode ∧
      (t.enc.ctl.state ≠ .fault → t.enc.ctl.sticky = s.enc.ctl.sticky)) ∧
    (∀ c, exec (.encSym c) s = .next t → t.enc.ctl.state ≠ .fault → t.enc.ctl = s.enc.ctl) ∧
    (exec .encEnd s = .next t → t.enc.matchCode = s.enc.matchCode ∧ t.enc.dict.nextCode = s.enc.dict.nextCode ∧
      (t.enc.ctl.state ≠ .fault → t.enc.ctl = { s.enc.ctl with state := t.enc.ctl.state })) ∧
    (exec .decStart s = .next t → t.dec.prevCode = s.dec.prevCode ∧
      (t.dec.ctl.state ≠ .fault → t.dec.ctl.sticky = s.dec.ctl.sticky)) ∧
    (∀ k, exec (.decCode k) s = .next t → t.dec.ctl.state ≠ .fault → t.dec.ctl = s.dec.ctl) ∧
    (exec .decEnd s = .next t → t.dec.prevCode = s.dec.prevCode ∧ t.dec.dict.nextCode = s.dec.dict.nextCode ∧
      t.dec.out = s.dec.out ∧
      (t.dec.ctl.state ≠ .fault → t.dec.ctl = { s.dec.ctl with state := t.dec.ctl.state }))

/-- The memory frame of all twelve instructions: a dictionary cell is written only at the address an insertion
computes, `next_code[31:0]`, and only by `ENC.SYM`, `DEC.CODE` and `D.INSERT` of its owner, in the forms that move
`next_code`; every other cell reads as before. -/
def Obligations.MemoryIsWrittenOnlyAtNextCode : Prop :=
  ∀ (i : Instr) (s t : State) (u : UnitId), exec i s = .next t →
    (∀ a, a ≠ (lowCode (s.dictOf u).nextCode).toNat → (t.dictOf u).mem.read a = (s.dictOf u).mem.read a) ∧
    ((t.dictOf u).nextCode = (s.dictOf u).nextCode →
      ∀ a, (t.dictOf u).mem.read a = (s.dictOf u).mem.read a) ∧
    (ownerOf i ≠ u ∨ i.mnemonic ∉ ["ENC.SYM", "DEC.CODE", "D.INSERT"] →
      ∀ a, (t.dictOf u).mem.read a = (s.dictOf u).mem.read a)

/-! ## Dictionary requests -/

/-- R104: `D.SEED` writes `next_code` alone and has no answer; after it the dictionary is exactly the 256 seed entries. -/
def Obligations.SeedWritesOnlyNextCode : Prop :=
  ∀ (u : UnitId) (s : State), ∃ t, exec (.dSeed u) s = .next t ∧
    t = { s.withDict u { (s.dictOf u) with nextCode := 256 } with reply := none } ∧
    (∀ k : Code, (t.dictOf u).bound k = true ↔ k.toNat < 256) ∧
    ∀ c : Symbol, (t.dictOf u).decMap (c.setWidth 32) = some [c]

/-- R105: `D.BOUND k` answers `k < next_code` and writes nothing. -/
def Obligations.BoundAnswersBelowNextCode : Prop :=
  ∀ (u : UnitId) (k : Code) (s : State), exec (.dBound u k) s =
    .next { s with reply := some (u, .bound (decide (k.toNat < (s.dictOf u).nextCode.toNat))) }

/-- R106: `D.LOOKUP p, c` answers the least assigned code whose entry is `(p, c)`, or `Miss`, and writes nothing. -/
def Obligations.LookupAnswersTheLeastCode : Prop :=
  ∀ (u : UnitId) (p : Code) (c : Symbol) (s : State), s.config.wf = true →
    (s.dictOf u).Inv s.config.dictCap → p.toNat < (s.dictOf u).nextCode.toNat →
    ∃ r, exec (.dLookup u p c) s = .next { s with reply := some (u, .lookup r) } ∧
      (∀ k, r = .hit k ↔
        256 ≤ k.toNat ∧ k.toNat < (s.dictOf u).nextCode.toNat ∧
        (s.dictOf u).mem.read k.toNat = some ⟨p, c⟩ ∧
        ∀ j, 256 ≤ j → j < k.toNat → (s.dictOf u).mem.read j ≠ some ⟨p, c⟩) ∧
      (r = .miss ↔ ∀ k, 256 ≤ k → k < (s.dictOf u).nextCode.toNat → (s.dictOf u).mem.read k ≠ some ⟨p, c⟩)

/-- R114, the row of `D.LOOKUP`: where no String is bound twice, the request is a lookup of the String `DecMap(p) ++ [c]`
in the encode view. -/
def Obligations.LookupIsTheEncodeView : Prop :=
  ∀ (u : UnitId) (p : Code) (c : Symbol) (s : State) (w : List Symbol), s.config.wf = true →
    (s.dictOf u).Inv s.config.dictCap → (s.dictOf u).Unique → (s.dictOf u).decMap p = some w →
    ∃ r, exec (.dLookup u p c) s = .next { s with reply := some (u, .lookup r) } ∧
      (∀ k, r = .hit k ↔ (s.dictOf u).encMap (w ++ [c]) k) ∧
      (r = .miss ↔ ¬ ∃ k, (s.dictOf u).encMap (w ++ [c]) k)

/-- R107: `D.INSERT p, c` answers `Full` and writes nothing when `next_code` is `DICT_CAP`; where there is room it
writes `(p, c)` at `next_code` and adds one to it, and answers the code, which is then bound to `str(u, p) ++ [c]`. -/
def Obligations.InsertBindsTheNextCode : Prop :=
  ∀ (u : UnitId) (p : Code) (c : Symbol) (s : State), p.toNat < (s.dictOf u).nextCode.toNat →
    (s.config.dictCap = .finite (s.dictOf u).nextCode.toNat →
      exec (.dInsert u p c) s = .next { s with reply := some (u, .insert .full) }) ∧
    (256 ≤ (s.dictOf u).nextCode.toNat → (s.dictOf u).nextCode.toNat < s.config.dictCap.limit →
      s.config.wf = true →
      ∃ m : Memory,
        exec (.dInsert u p c) s = .next { s.withDict u
            { nextCode := (s.dictOf u).nextCode + 1, mem := m } with
          reply := some (u, .insert (.ok ((s.dictOf u).nextCode.setWidth 32))) } ∧
        ((s.dictOf u).nextCode + 1).toNat = (s.dictOf u).nextCode.toNat + 1 ∧
        m.read (s.dictOf u).nextCode.toNat = some ⟨p, c⟩ ∧
        (∀ a, a ≠ (s.dictOf u).nextCode.toNat → m.read a = (s.dictOf u).mem.read a) ∧
        ((s.dictOf u).Inv s.config.dictCap → ∃ w : Str, (s.dictOf u).str p = some w ∧
          Dict.str { nextCode := (s.dictOf u).nextCode + 1, mem := m } ((s.dictOf u).nextCode.setWidth 32) =
            some (w.snoc c)))

/-- R102, R110: `D.FETCH k` answers `str(u, k)`: the one symbol of a seed, and for an assigned code the String of its
parent with its symbol at the end; its length is at most `k − 254` (R43 item 2). It writes nothing. -/
def Obligations.FetchAnswersTheString : Prop :=
  ∀ (u : UnitId) (k : Code) (s : State), (s.dictOf u).Inv s.config.dictCap →
    k.toNat < (s.dictOf u).nextCode.toNat →
    ∃ w : Str, exec (.dFetch u k) s = .next { s with reply := some (u, .fetch w) } ∧
      (k.toNat < 256 → w = ⟨k.setWidth 8, []⟩) ∧
      (∀ e, 256 ≤ k.toNat → (s.dictOf u).mem.read k.toNat = some e →
        ∃ v : Str, exec (.dFetch u e.parent) s = .next { s with reply := some (u, .fetch v) } ∧ w = v.snoc e.sym) ∧
      (256 ≤ k.toNat → w.toList.length + 254 ≤ k.toNat)

/-- R111: `D.FIRST k` answers the first symbol of what `D.FETCH k` answers, and writes nothing. -/
def Obligations.FirstAnswersTheFirstSymbol : Prop :=
  ∀ (u : UnitId) (k : Code) (s : State), (s.dictOf u).Inv s.config.dictCap →
    k.toNat < (s.dictOf u).nextCode.toNat →
    ∃ w : Str, exec (.dFetch u k) s = .next { s with reply := some (u, .fetch w) } ∧
      exec (.dFirst u k) s = .next { s with reply := some (u, .first w.head) }

/-- R112: a request on an unbound code is refused and returns no value. -/
def Obligations.UnboundRequestsAreRefused : Prop :=
  ∀ (u : UnitId) (k : Code) (c : Symbol) (s : State), (s.dictOf u).nextCode.toNat ≤ k.toNat →
    exec (.dLookup u k c) s = .refused (.unboundCode k) ∧
    exec (.dInsert u k c) s = .refused (.unboundCode k) ∧
    exec (.dFetch u k) s = .refused (.unboundCode k) ∧
    exec (.dFirst u k) s = .refused (.unboundCode k)

/-- R53: a request changes at most the dictionary of its owner and the answer; `D.BOUND`, `D.LOOKUP`, `D.FETCH` and
`D.FIRST` change no dictionary. The answer register is the model's (log entry 7). -/
def Obligations.RequestsTouchOnlyTheirDictionary : Prop :=
  ∀ (i : Instr) (s t : State), commandUnit i = none → exec i s = .next t →
    t = { s.withDict (ownerOf i) (t.dictOf (ownerOf i)) with reply := t.reply } ∧
    (i.mnemonic ∉ ["D.SEED", "D.INSERT"] → t = { s with reply := t.reply })

/-! ## Invariants -/

/-- The reset state satisfies R43, for every configuration R10 admits. -/
def Obligations.ResetStateSatisfiesTheInvariant : Prop :=
  State.reset.Inv ∧ ∀ c : Config, c.wf = true → (State.resetWith c).Inv

/-- R43: every step of the block keeps the invariant. -/
def Obligations.StepKeepsTheInvariant : Prop :=
  ∀ s t : State, s.Inv → step s = .next t → t.Inv

/-- R15, R101, R206: from a state of the invariant a step always goes through: no host event stops the block. (In an
unbounded dictionary, while a 32-bit code is left: log entry 11.) -/
def Obligations.HostEventsNeverStopTheBlock : Prop :=
  ∀ s : State, s.Inv →
    (s.config.dictCap = .unbounded →
      s.enc.dict.nextCode.toNat < 2 ^ 32 ∧ s.dec.dict.nextCode.toNat < 2 ^ 32) →
    ∃ t, step s = .next t

/-- R136, R158, R60: every step keeps the counts of both units. -/
def Obligations.StepKeepsTheCounts : Prop :=
  ∀ s t : State, s.Inv → s.enc.Count → s.dec.Count → step s = .next t → t.enc.Count ∧ t.dec.Count

/-- R108, R77: but for seeding, `next_code` never decreases and grows by at most one in a step, without wrapping. -/
def Obligations.NextCodeGrowsByAtMostOne : Prop :=
  ∀ (s t : State) (u : UnitId), s.Inv → step s = .next t →
    ((t.dictOf u).nextCode = 256 ∧ (s.atReset ∨
      ∃ i s', fetch s = .run i s' ∧ ownerOf i = u ∧ i.mnemonic ∈ ["ENC.START", "DEC.START"])) ∨
    (t.dictOf u).nextCode.toNat = (s.dictOf u).nextCode.toNat ∨
    ((t.dictOf u).nextCode.toNat = (s.dictOf u).nextCode.toNat + 1 ∧
      ∃ i s', fetch s = .run i s' ∧ ownerOf i = u ∧ i.mnemonic ∈ ["ENC.SYM", "DEC.CODE"])

/-- R43 item 4: no rule reads an unassigned cell, nor a hold register whose valid bit is 0. Two states that differ in
such values alone take steps that differ in such values alone. -/
def Obligations.UnspecifiedValuesAreNeverRead : Prop :=
  ∀ s s' t : State, s.Inv → s'.Inv → s.Agree s' → step s = .next t →
    ∃ t', step s' = .next t' ∧ t.Agree t'

/-- R109: a dictionary is closed under prefixes: every non-empty prefix of a bound String is bound. -/
def Obligations.PrefixesOfBoundStringsAreBound : Prop :=
  ∀ (cap : DictCap) (d : Dict) (k : Code) (v w : List Symbol), d.Inv cap → d.encMap (v ++ w) k → v ≠ [] →
    ∃ j, d.encMap v j

/-! ## Independence of the two units -/

/-- R72: a command of `ENC` and a command of `DEC` commute. -/
def Obligations.CommandsOfTheTwoUnitsCommute : Prop :=
  ∀ (i j : Instr) (s s' t : State), commandUnit i = some .enc → commandUnit j = some .dec →
    exec i s = .next s' → exec j s' = .next t → ∃ s'', exec j s = .next s'' ∧ exec i s'' = .next t

/-- R72: whatever the interleaving of command words, a unit ends as if the other unit's commands (and the refused
words) had not been sent. -/
def Obligations.UnitsRunAsIfAlone : Prop :=
  ∀ (s t : State) (l : List HostEvent), s.request = none → (∀ e ∈ l, ∀ ws, e ≠ .reset ws) →
    core.run l.length (s.withInput l) = .next t →
    (∃ t' : State, core.run (l.filter (fun e => eventUnit e == some .enc)).length
        (s.withInput (l.filter (fun e => eventUnit e == some .enc))) = .next t' ∧ t'.enc = t.enc) ∧
    (∃ t' : State, core.run (l.filter (fun e => eventUnit e == some .dec)).length
        (s.withInput (l.filter (fun e => eventUnit e == some .dec))) = .next t' ∧ t'.dec = t.dec)

/-! ## Whole calls -/

/-- R131: the commands of one encoder call compute `encode`, on every call that needs at most `DICT_CAP` entries, and
end in `DICT_FULL` on every other (R10); the decoder is not touched. The outcome of the call (R200) is what its first end
shows, whatever follows it, and a completed call's codes pack to the compressed form (R66). (In an
unbounded dictionary, for inputs that cannot use up the 32-bit codes: log entry 11.) -/
def Obligations.EncodeCallComputesEncode : Prop :=
  ∀ (s : State) (d : List Symbol) (rest : List HostEvent), s.Inv → s.enc.ctl.state ≠ .run →
    s.input = encodeEvents d ++ rest →
    (s.config.dictCap = .unbounded → 255 + d.length ≤ 2 ^ 32) →
    ∃ t : State, core.run (d.length + 2) s = .next t ∧ t.input = rest ∧ t.dec = s.dec ∧ t.cmdIllegal = s.cmdIllegal ∧
      (255 + (encodeBytes d).length ≤ s.config.dictCap.limit →
        t.enc.ctl = { state := .done, cause := .none, info := 0, sticky := s.enc.ctl.sticky } ∧
        t.enc.out.map BitVec.toNat = encodeBytes d ∧
        t.enc.dict.nextCode.toNat = max 256 (255 + (encodeBytes d).length) ∧
        compress d = some (pack t.enc.out) ∧
        ∀ n, d.length + 1 ≤ n → s.encCall n = some (.done t.enc.out)) ∧
      (s.config.dictCap.limit < 255 + (encodeBytes d).length →
        t.enc.ctl.state = .fault ∧ t.enc.ctl.cause = .dictFull ∧
        ∀ n, d.length + 1 ≤ n → s.encCall n = some (.fault .dictFull t.enc.ctl.info))

/-- R151: the commands of one decoder call compute `decode`; a stream `decode` fails on ends in `INVALID_DATA`, and
one that needs more than `DICT_CAP` entries in `DICT_FULL`; the encoder is not touched. The outcome of the call (R200) is
what its first end shows, whatever follows it. (In an unbounded dictionary, for
streams that cannot use up the 32-bit codes: log entry 11.) -/
def Obligations.DecodeCallComputesDecode : Prop :=
  ∀ (s : State) (cs : List Code) (rest : List HostEvent), s.Inv → s.dec.ctl.state ≠ .run →
    s.input = decodeEvents cs ++ rest →
    (s.config.dictCap = .unbounded → 255 + cs.length ≤ 2 ^ 32) →
    ∃ t : State, core.run (cs.length + 2) s = .next t ∧ t.input = rest ∧ t.enc = s.enc ∧ t.cmdIllegal = s.cmdIllegal ∧
      (∀ d, decodeCodes (cs.map BitVec.toNat) = some d → 255 + cs.length ≤ s.config.dictCap.limit →
        t.dec.ctl = { state := .done, cause := .none, info := 0, sticky := s.dec.ctl.sticky } ∧ t.dec.out = d ∧
        t.dec.dict.nextCode.toNat = max 256 (255 + cs.length) ∧
        ∀ n, cs.length + 1 ≤ n → s.decCall n = some (.done d)) ∧
      (decodeCodes (cs.map BitVec.toNat) = none → 255 + cs.length ≤ s.config.dictCap.limit →
        t.dec.ctl.state = .fault ∧ t.dec.ctl.cause = .invalidData ∧
        ∀ n, cs.length + 1 ≤ n → s.decCall n = some (.fault .invalidData t.dec.ctl.info)) ∧
      (∀ d, decodeCodes (cs.map BitVec.toNat) = some d → s.config.dictCap.limit < 255 + cs.length →
        t.dec.ctl.state = .fault ∧ t.dec.ctl.cause = .dictFull ∧
        ∀ n, cs.length + 1 ≤ n → s.decCall n = some (.fault .dictFull t.dec.ctl.info))

/-- R156 on the functions: `decode(encode(b)) == b` for every byte sequence. (Codes are natural numbers there: log entry 19.) -/
def Obligations.DecodeOfEncodeIsTheInput : Prop :=
  ∀ d : List Symbol, decodeCodes (encodeBytes d) = some d

/-- R156 on the hardware, with R155 at the end of the call: if an `ENCODE` of `d` ends in `DONE` with `ENC.out = cs`,
then a `DECODE` of `cs` ends in `DONE` with `DEC.out = d`, and the decoder's dictionary then binds the same Strings to
the same codes as the encoder's. -/
def Obligations.DecodingTheEncodersOutputRestoresTheInput : Prop :=
  ∀ (s t : State) (d : List Symbol) (rest : List HostEvent), s.Inv →
    s.enc.ctl.state ≠ .run → s.dec.ctl.state ≠ .run → s.input = encodeEvents d ++ rest →
    core.run (d.length + 2) s = .next t → t.enc.ctl.state = .done →
    ∃ v : State, core.run (t.enc.out.length + 2) (t.withInput (decodeEvents t.enc.out)) = .next v ∧
      v.dec.ctl.state = .done ∧ v.dec.out = d ∧ v.enc = t.enc ∧
      v.dec.dict.nextCode = t.enc.dict.nextCode ∧
      ∀ k, v.dec.dict.bound k = true → v.dec.dict.decMap k = t.enc.dict.decMap k

/-- R153: a code stream is accepted exactly when `k_0 ≤ 255` and `k_i ≤ 255 + i` for every `i ≥ 1`. -/
def Obligations.AcceptedStreamsAreExactlyTheBounded : Prop :=
  ∀ cs : List Nat, (∃ d, decodeCodes cs = some d) ↔ ∀ i k, cs[i]? = some k → k ≤ 255 + i

/-! ## The boundary -/

/-- R63: `PACK` of `n` codes has `4n` bytes, each at its place. -/
def Obligations.PackWritesBigEndianBytes : Prop :=
  ∀ ks : List Code, (pack ks).length = 4 * ks.length ∧ ∀ (i : Nat) (k : Code), ks[i]? = some k →
    (pack ks)[4 * i]? = some (BitVec.ofNat 8 (k.toNat / 2 ^ 24)) ∧
    (pack ks)[4 * i + 1]? = some (BitVec.ofNat 8 (k.toNat / 2 ^ 16)) ∧
    (pack ks)[4 * i + 2]? = some (BitVec.ofNat 8 (k.toNat / 2 ^ 8)) ∧
    (pack ks)[4 * i + 3]? = some (BitVec.ofNat 8 k.toNat)

/-- R66: `UNPACK` and `PACK` are inverses of each other, and the compressed and decompressed forms are `PACK(encode(d))`
and `decode(UNPACK(b))`, so that decompressing a compressed form restores the bytes (R156); the other way round need not
hold (R157). A buffer whose length is not a multiple of 4 fails as a whole (R65), and one whose codes `decode` fails on
fails with `INVALID_DATA` (R151). That an input with a code of more than 32 bits has no compressed form, which the
equivalence for `compress` says, is the model's choice, the spec being silent (log entry 21, DESIGN CHOICE); every input
of at most 2^32 − 255 symbols has one. -/
def Obligations.PackAndUnpackAreInverse : Prop :=
  (∀ ks : List Code, unpack (pack ks) = .ok ks) ∧
  (∀ b : List Byte, 4 ∣ b.length → ∃ ks, unpack b = .ok ks ∧ pack ks = b) ∧
  (∀ b : List Byte, ¬ 4 ∣ b.length → unpack b = .error .malformedBuffer ∧ decompress b = .error .malformedBuffer) ∧
  (∀ (d : List Symbol) (b : List Byte),
    compress d = some b ↔ ∃ ks : List Code, ks.map BitVec.toNat = encodeBytes d ∧ b = pack ks) ∧
  (∀ d : List Symbol, 255 + d.length ≤ 2 ^ 32 → ∃ b, compress d = some b) ∧
  (∀ (b : List Byte) (ks : List Code), unpack b = .ok ks →
    (∀ d, decompress b = .ok d ↔ decodeCodes (ks.map BitVec.toNat) = some d) ∧
    (decompress b = .error .invalidData ↔ decodeCodes (ks.map BitVec.toNat) = none)) ∧
  (∀ (d : List Symbol) (b : List Byte), compress d = some b → decompress b = .ok d)

/-- R94: what the host does for each of the six pseudo-commands, the command words written out. -/
def Obligations.PseudoCommandsExpandToWords : Prop :=
  (∀ d : List Symbol, (ScriptLine.encBytes d).expand =
    d.map fun c => HostEvent.command (BitVec.ofNat 36 (0x200000000 + c.toNat))) ∧
  (∀ ks : List Code, (ScriptLine.decCodes ks).expand =
    ks.map fun k => HostEvent.command (BitVec.ofNat 36 (0x600000000 + k.toNat))) ∧
  (∀ d : List Symbol, (ScriptLine.encodeCall d).expand =
    .command 0x100000000 :: (ScriptLine.encBytes d).expand ++ [.command 0x300000000]) ∧
  (∀ ks : List Code, (ScriptLine.decodeCall ks).expand =
    .command 0x500000000 :: (ScriptLine.decCodes ks).expand ++ [.command 0x700000000]) ∧
  ScriptLine.resetBlock.expand = [.reset []] ∧
  ∀ w : CmdWord, (ScriptLine.raw w).expand = [.command w]
end

