-- ==== Sys2Proof/Laws/Decode.lean ====
section
/-! SUPPORT. The fields of an assembled word are the fields it was assembled from, and a word is the assembly of its fields. -/

namespace Sys2Proof

@[simp] theorem cmdOp_cmdWord (op : BitVec 4) (arg : Arg) : cmdOp (cmdWord op arg) = op :=
  BitVec.extractLsb'_append_eq_left

@[simp] theorem cmdArg_cmdWord (op : BitVec 4) (arg : Arg) : cmdArg (cmdWord op arg) = arg :=
  BitVec.extractLsb'_append_eq_right

@[simp] theorem argHigh_symArgWord (c : Symbol) : argHigh (symArgWord c) = 0 :=
  BitVec.extractLsb'_append_eq_left

@[simp] theorem argSym_symArgWord (c : Symbol) : argSym (symArgWord c) = c :=
  BitVec.extractLsb'_append_eq_right

@[simp] theorem reqDop_reqWord (dop : BitVec 3) (k : Code) (c : Symbol) : reqDop (reqWord dop k c) = dop :=
  BitVec.extractLsb'_append_eq_left

@[simp] theorem reqCode_reqWord (dop : BitVec 3) (k : Code) (c : Symbol) : reqCode (reqWord dop k c) = k := by
  have h : (dop ++ (k ++ c) : BitVec 43).extractLsb' 8 32 = (k ++ c).extractLsb' 8 32 :=
    BitVec.extractLsb'_append_eq_of_add_le (by decide)
  rw [reqCode, reqWord, h]
  exact BitVec.extractLsb'_append_eq_left

@[simp] theorem reqSym_reqWord (dop : BitVec 3) (k : Code) (c : Symbol) : reqSym (reqWord dop k c) = c := by
  have h : (dop ++ (k ++ c) : BitVec 43).extractLsb' 0 8 = (k ++ c).extractLsb' 0 8 :=
    BitVec.extractLsb'_append_eq_of_add_le (by decide)
  rw [reqSym, reqWord, h]
  exact BitVec.extractLsb'_append_eq_right

/-- Concatenation of numbers: the higher part counts in units of the lower part's range. -/
theorem toNat_append_eq {n m : Nat} (a : BitVec n) (b : BitVec m) : (a ++ b).toNat = a.toNat * 2 ^ m + b.toNat := by
  rw [BitVec.toNat_append, ← Nat.shiftLeft_add_eq_or_of_lt b.isLt, Nat.shiftLeft_eq]

theorem cmdOp_toNat (w : CmdWord) : (cmdOp w).toNat = w.toNat / 2 ^ 32 := by
  have := w.isLt
  simp only [cmdOp, BitVec.extractLsb'_toNat, Nat.shiftRight_eq_div_pow]
  omega

theorem cmdArg_toNat (w : CmdWord) : (cmdArg w).toNat = w.toNat % 2 ^ 32 := by
  simp only [cmdArg, BitVec.extractLsb'_toNat, Nat.shiftRight_zero]

theorem argHigh_toNat (a : Arg) : (argHigh a).toNat = a.toNat / 2 ^ 8 := by
  have := a.isLt
  simp only [argHigh, BitVec.extractLsb'_toNat, Nat.shiftRight_eq_div_pow]
  omega

theorem argSym_toNat (a : Arg) : (argSym a).toNat = a.toNat % 2 ^ 8 := by
  simp only [argSym, BitVec.extractLsb'_toNat, Nat.shiftRight_zero]

theorem reqDop_toNat (w : ReqWord) : (reqDop w).toNat = w.toNat / 2 ^ 40 := by
  have := w.isLt
  simp only [reqDop, BitVec.extractLsb'_toNat, Nat.shiftRight_eq_div_pow]
  omega

theorem reqCode_toNat (w : ReqWord) : (reqCode w).toNat = w.toNat / 2 ^ 8 % 2 ^ 32 := by
  simp only [reqCode, BitVec.extractLsb'_toNat, Nat.shiftRight_eq_div_pow]

theorem reqSym_toNat (w : ReqWord) : (reqSym w).toNat = w.toNat % 2 ^ 8 := by
  simp only [reqSym, BitVec.extractLsb'_toNat, Nat.shiftRight_zero]

theorem cmdWord_toNat (op : BitVec 4) (arg : Arg) : (cmdWord op arg).toNat = op.toNat * 2 ^ 32 + arg.toNat :=
  toNat_append_eq op arg

theorem symArgWord_toNat (c : Symbol) : (symArgWord c).toNat = c.toNat := by
  have := toNat_append_eq (0 : BitVec 24) c
  simpa [symArgWord] using this

theorem reqWord_toNat (dop : BitVec 3) (k : Code) (c : Symbol) :
    (reqWord dop k c).toNat = dop.toNat * 2 ^ 40 + k.toNat * 2 ^ 8 + c.toNat := by
  rw [reqWord, toNat_append_eq, toNat_append_eq, Nat.add_assoc]

/-- A command word is its two fields. -/
theorem cmdWord_fields (w : CmdWord) : cmdWord (cmdOp w) (cmdArg w) = w := by
  apply BitVec.eq_of_toNat_eq
  rw [cmdWord_toNat, cmdOp_toNat, cmdArg_toNat]
  omega

/-- An operand word with no high bits is its symbol. -/
theorem symArgWord_fields (a : Arg) (h : argHigh a = 0) : symArgWord (argSym a) = a := by
  apply BitVec.eq_of_toNat_eq
  rw [symArgWord_toNat, argSym_toNat]
  have := argHigh_toNat a
  rw [h] at this
  simp only [BitVec.toNat_ofNat, BitVec.ofNat_eq_ofNat, Nat.zero_mod] at this
  omega

/-- A request word is its three fields. -/
theorem reqWord_fields (w : ReqWord) : reqWord (reqDop w) (reqCode w) (reqSym w) = w := by
  apply BitVec.eq_of_toNat_eq
  rw [reqWord_toNat, reqDop_toNat, reqCode_toNat, reqSym_toNat]
  have := w.isLt
  omega

end Sys2Proof

/-! ## Masks (R85, R89) -/

namespace Sys2Proof

/-- Two concatenations are equal exactly when their parts are. -/
theorem append_inj_iff {n m : Nat} {a a' : BitVec n} {b b' : BitVec m} :
    a ++ b = a' ++ b' ↔ a = a' ∧ b = b' := by
  constructor
  · intro h
    have h1 := congrArg (fun x => x.extractLsb' m n) h
    have h2 := congrArg (fun x => x.extractLsb' 0 m) h
    simp only [BitVec.extractLsb'_append_eq_left, BitVec.extractLsb'_append_eq_right] at h1 h2
    exact ⟨h1, h2⟩
  · rintro ⟨rfl, rfl⟩
    rfl

/-- A row of fields is matched field by field. -/
theorem spells_cmdWord (name : String) (wo mo op : BitVec 4) (wa ma arg : Arg) :
    Row.spells ⟨name, cmdWord wo wa, cmdWord mo ma⟩ (cmdWord op arg) =
      ((op &&& mo == wo) && (arg &&& ma == wa)) := by
  have h : cmdWord op arg &&& cmdWord mo ma = cmdWord (op &&& mo) (arg &&& ma) := BitVec.and_append
  rw [Bool.eq_iff_iff]
  simp only [Row.spells, h, beq_iff_eq, Bool.and_eq_true]
  exact append_inj_iff

/-- A row of fields is matched field by field. -/
theorem spells_reqWord (name : String) (wd md d : BitVec 3) (wk mk k : Code) (ws ms c : Symbol) :
    Row.spells ⟨name, reqWord wd wk ws, reqWord md mk ms⟩ (reqWord d k c) =
      ((d &&& md == wd) && ((k &&& mk == wk) && (c &&& ms == ws))) := by
  have h1 : reqWord d k c &&& reqWord md mk ms = (d &&& md) ++ ((k ++ c) &&& (mk ++ ms)) := BitVec.and_append
  have h : reqWord d k c &&& reqWord md mk ms = reqWord (d &&& md) (k &&& mk) (c &&& ms) := by
    rw [h1, BitVec.and_append]
    rfl
  rw [Bool.eq_iff_iff]
  simp only [Row.spells, h, beq_iff_eq, Bool.and_eq_true]
  exact append_inj_iff.trans (and_congr_right fun _ => append_inj_iff)

/-- The rows of R85, their match and mask written by fields. -/
theorem commandRows_fields : commandRows =
    [⟨"ENC.START", cmdWord 1 0, cmdWord 15 (BitVec.allOnes 32)⟩,
     ⟨"ENC.SYM", cmdWord 2 0, cmdWord 15 0xFFFFFF00⟩,
     ⟨"ENC.END", cmdWord 3 0, cmdWord 15 (BitVec.allOnes 32)⟩,
     ⟨"DEC.START", cmdWord 5 0, cmdWord 15 (BitVec.allOnes 32)⟩,
     ⟨"DEC.CODE", cmdWord 6 0, cmdWord 15 0⟩,
     ⟨"DEC.END", cmdWord 7 0, cmdWord 15 (BitVec.allOnes 32)⟩] := by decide

/-- The rows of R89, their match and mask written by fields. -/
theorem requestRows_fields : requestRows =
    [⟨"D.SEED", reqWord 1 0 0, reqWord 7 (BitVec.allOnes 32) (BitVec.allOnes 8)⟩,
     ⟨"D.BOUND", reqWord 2 0 0, reqWord 7 0 (BitVec.allOnes 8)⟩,
     ⟨"D.LOOKUP", reqWord 3 0 0, reqWord 7 0 0⟩,
     ⟨"D.INSERT", reqWord 4 0 0, reqWord 7 0 0⟩,
     ⟨"D.FETCH", reqWord 5 0 0, reqWord 7 0 (BitVec.allOnes 8)⟩,
     ⟨"D.FIRST", reqWord 6 0 0, reqWord 7 0 (BitVec.allOnes 8)⟩] := by decide

/-- The mask of format S tests exactly `arg[31:8]` (R83). -/
theorem maskS_iff (a : Arg) : a &&& 0xFFFFFF00 = 0 ↔ argHigh a = 0 := by
  have ha : a = argHigh a ++ argSym a := by
    apply BitVec.eq_of_toNat_eq
    rw [toNat_append_eq, argHigh_toNat, argSym_toNat]
    omega
  have hm : (0xFFFFFF00 : Arg) = BitVec.allOnes 24 ++ (0 : BitVec 8) := by decide
  have h0 : (0 : Arg) = (0 : BitVec 24) ++ (0 : BitVec 8) := by decide
  have h : a &&& 0xFFFFFF00 = (argHigh a &&& BitVec.allOnes 24) ++ (argSym a &&& 0) := by
    conv_lhs => rw [ha, hm]
    exact BitVec.and_append
  rw [h, h0, append_inj_iff, BitVec.and_allOnes]
  simp

end Sys2Proof
end

