-- ==== Sys2Proof/Laws/Memory.lean ====
section
/-! SUPPORT. The laws of the entry memory: reading after writing, and that every write keeps the canonical form. -/

namespace Sys2Proof.Machine

/-- A cell reads as the entry last written to it. -/
theorem Memory.read_write_same (m : Memory) (k : Nat) (e : Entry) : (Memory.write m k e).read k = some e := by
  induction m with
  | nil => simp [Memory.write, Memory.read]
  | cons x m ih =>
    obtain ⟨a, x⟩ := x
    simp only [Memory.write]
    split
    · simp [Memory.read]
    · split
      · simp [Memory.read]
      · simp [Memory.read, ih, show a ≠ k by omega]

/-- A write leaves every other cell alone. -/
theorem Memory.read_write_ne (m : Memory) {k j : Nat} (e : Entry) (h : j ≠ k) :
    (Memory.write m k e).read j = Memory.read m j := by
  induction m with
  | nil => simp [Memory.write, Memory.read, Ne.symm h]
  | cons x m ih =>
    obtain ⟨a, x⟩ := x
    simp only [Memory.write]
    split
    · simp [Memory.read, Ne.symm h]
    · split
      · next hk => subst hk; simp [Memory.read, Ne.symm h]
      · simp only [Memory.read, ih]

/-- A write lists its cell and otherwise only what was listed. -/
theorem Memory.mem_write {m : Memory} {k : Nat} {e : Entry} {x : Nat × Entry} (h : x ∈ Memory.write m k e) :
    x = (k, e) ∨ x ∈ m := by
  induction m with
  | nil => simpa [Memory.write] using h
  | cons y m ih =>
    obtain ⟨a, y⟩ := y
    simp only [Memory.write] at h
    split at h
    · simpa using h
    · split at h
      · simp only [List.mem_cons] at h ⊢; tauto
      · simp only [List.mem_cons] at h ⊢
        rcases h with h | h
        · exact .inr (.inl h)
        · rcases ih h with h | h
          · exact .inl h
          · exact .inr (.inr h)

/-- Every write keeps the canonical form. -/
theorem Memory.write_wf {m : Memory} (k : Nat) (e : Entry) (h : Memory.wf m) : Memory.wf (Memory.write m k e) := by
  induction m with
  | nil => simp [Memory.wf, Memory.write]
  | cons y m ih =>
    obtain ⟨a, y⟩ := y
    simp only [Memory.wf, List.pairwise_cons] at h
    simp only [Memory.write]
    split
    · next hk =>
      simp only [Memory.wf, List.pairwise_cons, List.mem_cons]
      refine ⟨?_, h⟩
      rintro x (rfl | hx)
      · exact hk
      · exact lt_trans hk (h.1 x hx)
    · split
      · next hk => subst hk; simp only [Memory.wf, List.pairwise_cons]; exact h
      · simp only [Memory.wf, List.pairwise_cons]
        refine ⟨fun x hx => ?_, ih h.2⟩
        rcases Memory.mem_write hx with rfl | hx
        · simp only; omega
        · exact h.1 x hx

/-- The empty memory is canonical. -/
theorem Memory.empty_wf : Memory.wf [] := List.Pairwise.nil

/-- Two canonical memories that read the same at every address are the same memory. -/
theorem Memory.eq_of_read {m m' : Memory} (h : Memory.wf m) (h' : Memory.wf m')
    (hr : ∀ k, Memory.read m k = Memory.read m' k) : m = m' := by
  have listed : ∀ {l : Memory} {k : Nat} {e : Entry}, Memory.read l k = some e → ∃ x ∈ l, x.1 = k := by
    intro l
    induction l with
    | nil => intro k e h; simp [Memory.read, Memory.unlisted] at h
    | cons y l ih =>
      obtain ⟨a, y⟩ := y
      intro k e h
      simp only [Memory.read] at h
      split at h
      · next hk => exact ⟨_, List.mem_cons_self, hk⟩
      · obtain ⟨x, hx, he⟩ := ih h; exact ⟨x, List.mem_cons_of_mem _ hx, he⟩
  induction m generalizing m' with
  | nil =>
    cases m' with
    | nil => rfl
    | cons y m' => have := hr y.1; simp [Memory.read, Memory.unlisted] at this
  | cons x m ih =>
    obtain ⟨a, x⟩ := x
    cases m' with
    | nil => have := hr a; simp [Memory.read, Memory.unlisted] at this
    | cons y m' =>
      obtain ⟨b, y⟩ := y
      simp only [Memory.wf, List.pairwise_cons] at h h'
      have hab : a = b := by
        have ha := hr a
        have hb := hr b
        simp only [Memory.read, if_true] at ha hb
        by_contra hne
        rw [if_neg (Ne.symm hne)] at ha
        rw [if_neg hne] at hb
        obtain ⟨z, hz, rfl⟩ := listed ha.symm
        obtain ⟨w, hw, rfl⟩ := listed hb
        have h1 := h'.1 z hz
        have h2 := h.1 w hw
        omega
      subst hab
      have hxy : x = y := by simpa [Memory.read] using hr a
      subst hxy
      rw [ih h.2 h'.2]
      intro k
      by_cases hk : a = k
      · subst hk
        have none_of : ∀ {l : Memory}, (∀ z ∈ l, a < z.1) → Memory.read l a = none := by
          intro l hl
          cases hrd : Memory.read l a with
          | none => rfl
          | some e =>
            obtain ⟨z, hz, he⟩ := listed hrd
            have := hl z hz
            omega
        rw [none_of h.1, none_of h'.1]
      · simpa [Memory.read, hk] using hr k

end Sys2Proof.Machine
end

