-- ==== Sys2Proof/Laws/State.lean ====
section
/-! SUPPORT. One lemma per field per update of the state records, so that no later proof unfolds an update. -/

namespace Sys2Proof.Machine

variable (s : State) (e : Encoder) (d : Decoder) (l : List HostEvent)
  (q : Option (UnitId × ReqWord)) (r : Option (UnitId × Reply))

@[simp] theorem State.withEnc_config : (s.withEnc e).config = s.config := rfl
@[simp] theorem State.withEnc_enc : (s.withEnc e).enc = e := rfl
@[simp] theorem State.withEnc_dec : (s.withEnc e).dec = s.dec := rfl
@[simp] theorem State.withEnc_cmdIllegal : (s.withEnc e).cmdIllegal = s.cmdIllegal := rfl
@[simp] theorem State.withEnc_input : (s.withEnc e).input = s.input := rfl
@[simp] theorem State.withEnc_request : (s.withEnc e).request = s.request := rfl
@[simp] theorem State.withEnc_reply : (s.withEnc e).reply = s.reply := rfl
@[simp] theorem State.withEnc_self : s.withEnc s.enc = s := rfl

@[simp] theorem State.withDec_config : (s.withDec d).config = s.config := rfl
@[simp] theorem State.withDec_enc : (s.withDec d).enc = s.enc := rfl
@[simp] theorem State.withDec_dec : (s.withDec d).dec = d := rfl
@[simp] theorem State.withDec_cmdIllegal : (s.withDec d).cmdIllegal = s.cmdIllegal := rfl
@[simp] theorem State.withDec_input : (s.withDec d).input = s.input := rfl
@[simp] theorem State.withDec_request : (s.withDec d).request = s.request := rfl
@[simp] theorem State.withDec_reply : (s.withDec d).reply = s.reply := rfl
@[simp] theorem State.withDec_self : s.withDec s.dec = s := rfl

@[simp] theorem State.withInput_config : (s.withInput l).config = s.config := rfl
@[simp] theorem State.withInput_enc : (s.withInput l).enc = s.enc := rfl
@[simp] theorem State.withInput_dec : (s.withInput l).dec = s.dec := rfl
@[simp] theorem State.withInput_cmdIllegal : (s.withInput l).cmdIllegal = s.cmdIllegal := rfl
@[simp] theorem State.withInput_input : (s.withInput l).input = l := rfl
@[simp] theorem State.withInput_request : (s.withInput l).request = s.request := rfl
@[simp] theorem State.withInput_reply : (s.withInput l).reply = s.reply := rfl

@[simp] theorem State.withRequest_config : (s.withRequest q).config = s.config := rfl
@[simp] theorem State.withRequest_enc : (s.withRequest q).enc = s.enc := rfl
@[simp] theorem State.withRequest_dec : (s.withRequest q).dec = s.dec := rfl
@[simp] theorem State.withRequest_cmdIllegal : (s.withRequest q).cmdIllegal = s.cmdIllegal := rfl
@[simp] theorem State.withRequest_input : (s.withRequest q).input = s.input := rfl
@[simp] theorem State.withRequest_request : (s.withRequest q).request = q := rfl
@[simp] theorem State.withRequest_reply : (s.withRequest q).reply = s.reply := rfl

@[simp] theorem State.withReply_config : (s.withReply r).config = s.config := rfl
@[simp] theorem State.withReply_enc : (s.withReply r).enc = s.enc := rfl
@[simp] theorem State.withReply_dec : (s.withReply r).dec = s.dec := rfl
@[simp] theorem State.withReply_cmdIllegal : (s.withReply r).cmdIllegal = s.cmdIllegal := rfl
@[simp] theorem State.withReply_input : (s.withReply r).input = s.input := rfl
@[simp] theorem State.withReply_request : (s.withReply r).request = s.request := rfl
@[simp] theorem State.withReply_reply : (s.withReply r).reply = r := rfl
@[simp] theorem State.withReply_dictOf (u : UnitId) : (s.withReply r).dictOf u = s.dictOf u := by
  cases u <;> rfl

@[simp] theorem State.answer_eq (u : UnitId) (a : Reply) : s.answer u a = s.withReply (some (u, a)) := rfl

@[simp] theorem State.dictOf_enc : s.dictOf .enc = s.enc.dict := rfl
@[simp] theorem State.dictOf_dec : s.dictOf .dec = s.dec.dict := rfl

@[simp] theorem State.withDict_dictOf (u : UnitId) (x : Dict) : (s.withDict u x).dictOf u = x := by
  cases u <;> rfl
theorem State.withDict_dictOf_ne {u v : UnitId} (x : Dict) (h : u ≠ v) :
    (s.withDict u x).dictOf v = s.dictOf v := by
  cases u <;> cases v <;> first | rfl | exact absurd rfl h
@[simp] theorem State.withDict_self (u : UnitId) : s.withDict u (s.dictOf u) = s := by
  cases u <;> rfl
@[simp] theorem State.withDict_config (u : UnitId) (x : Dict) : (s.withDict u x).config = s.config := by
  cases u <;> rfl
@[simp] theorem State.withDict_cmdIllegal (u : UnitId) (x : Dict) :
    (s.withDict u x).cmdIllegal = s.cmdIllegal := by cases u <;> rfl
@[simp] theorem State.withDict_input (u : UnitId) (x : Dict) : (s.withDict u x).input = s.input := by
  cases u <;> rfl
@[simp] theorem State.withDict_request (u : UnitId) (x : Dict) :
    (s.withDict u x).request = s.request := by cases u <;> rfl
@[simp] theorem State.withDict_reply (u : UnitId) (x : Dict) : (s.withDict u x).reply = s.reply := by
  cases u <;> rfl
@[simp] theorem State.withDict_encCtl (u : UnitId) (x : Dict) :
    (s.withDict u x).enc.ctl = s.enc.ctl := by cases u <;> rfl
@[simp] theorem State.withDict_decCtl (u : UnitId) (x : Dict) :
    (s.withDict u x).dec.ctl = s.dec.ctl := by cases u <;> rfl

@[simp] theorem State.refuseWord_config : s.refuseWord.config = s.config := rfl
@[simp] theorem State.refuseWord_enc : s.refuseWord.enc = s.enc := rfl
@[simp] theorem State.refuseWord_dec : s.refuseWord.dec = s.dec := rfl
@[simp] theorem State.refuseWord_cmdIllegal : s.refuseWord.cmdIllegal = true := rfl
@[simp] theorem State.refuseWord_input : s.refuseWord.input = s.input := rfl
@[simp] theorem State.refuseWord_request : s.refuseWord.request = s.request := rfl
@[simp] theorem State.refuseWord_reply : s.refuseWord.reply = s.reply := rfl

@[simp] theorem State.afterReset_config : s.afterReset.config = s.config := rfl
@[simp] theorem State.afterReset_enc : s.afterReset.enc = s.enc.afterReset := rfl
@[simp] theorem State.afterReset_dec : s.afterReset.dec = s.dec.afterReset := rfl
@[simp] theorem State.afterReset_cmdIllegal : s.afterReset.cmdIllegal = false := rfl
@[simp] theorem State.afterReset_input : s.afterReset.input = s.input := rfl
@[simp] theorem State.afterReset_request : s.afterReset.request = none := rfl
@[simp] theorem State.afterReset_reply : s.afterReset.reply = none := rfl

variable (c : Control) (f : Cause) (v : Arg)

@[simp] theorem Control.raise_eq : c.raise f v = { state := .fault, cause := f, info := v, sticky := true } := rfl
@[simp] theorem Control.start_eq :
    c.start = { state := .run, cause := .none, info := 0, sticky := c.sticky } := rfl
@[simp] theorem Control.finish_eq : c.finish = { c with state := .done } := rfl

@[simp] theorem Encoder.raise_ctl : (e.raise f v).ctl = e.ctl.raise f v := rfl
@[simp] theorem Encoder.raise_matchValid : (e.raise f v).matchValid = e.matchValid := rfl
@[simp] theorem Encoder.raise_matchCode : (e.raise f v).matchCode = e.matchCode := rfl
@[simp] theorem Encoder.raise_out : (e.raise f v).out = e.out := rfl
@[simp] theorem Encoder.raise_dict : (e.raise f v).dict = e.dict := rfl

@[simp] theorem Decoder.raise_ctl : (d.raise f v).ctl = d.ctl.raise f v := rfl
@[simp] theorem Decoder.raise_prevValid : (d.raise f v).prevValid = d.prevValid := rfl
@[simp] theorem Decoder.raise_prevCode : (d.raise f v).prevCode = d.prevCode := rfl
@[simp] theorem Decoder.raise_out : (d.raise f v).out = d.out := rfl
@[simp] theorem Decoder.raise_dict : (d.raise f v).dict = d.dict := rfl

variable (x : Dict)

@[simp] theorem Dict.seed_nextCode : x.seed.nextCode = 256 := rfl
@[simp] theorem Dict.seed_mem : x.seed.mem = x.mem := rfl

/-! ## The outcome of a sequence -/

@[simp] theorem andThen_next {α β : Type} (a : α) (g : α → Result β) :
    andThen (Host.Outcome.next a) g = g a := rfl
@[simp] theorem andThen_fault {α β : Type} (w : Fault) (g : α → Result β) :
    andThen (Host.Outcome.fault w) g = .fault w := rfl
@[simp] theorem andThen_refused {α β : Type} (w : Refusal) (g : α → Result β) :
    andThen (Host.Outcome.refused w) g = .refused w := rfl

/-- A sequence goes through exactly when both its parts do. -/
theorem andThen_eq_next {α β : Type} {y : Result α} {g : α → Result β} {b : β} :
    andThen y g = .next b ↔ ∃ a, y = .next a ∧ g a = .next b := by
  cases y <;> simp

theorem onEnc_eq_next {s t : State} {g : Encoder → Result Encoder} :
    s.onEnc g = .next t ↔ ∃ e', g s.enc = .next e' ∧ t = s.withEnc e' := by
  simp only [State.onEnc, andThen_eq_next, Host.Outcome.next.injEq, eq_comm (b := t)]

theorem onDec_eq_next {s t : State} {g : Decoder → Result Decoder} :
    s.onDec g = .next t ↔ ∃ d', g s.dec = .next d' ∧ t = s.withDec d' := by
  simp only [State.onDec, andThen_eq_next, Host.Outcome.next.injEq, eq_comm (b := t)]

end Sys2Proof.Machine
end

