-- ==== Sys2Proof/Laws/Dict.lean ====
section
/-! SUPPORT. What each dictionary request answers and does, and that the ones that write keep the dictionary's invariant. -/

namespace Sys2Proof.Machine

/-! ## Operands -/

@[simp] theorem zext33_toNat (k : Code) : (zext33 k).toNat = k.toNat := by
  simp only [zext33, BitVec.toNat_setWidth]
  exact Nat.mod_eq_of_lt (by have := k.isLt; omega)

@[simp] theorem zext32_toNat (c : Symbol) : (zext32 c).toNat = c.toNat := by
  simp only [zext32, BitVec.toNat_setWidth]
  exact Nat.mod_eq_of_lt (by have := c.isLt; omega)

theorem lowCode_toNat (n : NextCode) : (lowCode n).toNat = n.toNat % 2 ^ 32 := by
  simp only [lowCode, BitVec.toNat_setWidth]

theorem lowCode_toNat_of_lt {n : NextCode} (h : n.toNat < 2 ^ 32) : (lowCode n).toNat = n.toNat := by
  rw [lowCode_toNat, Nat.mod_eq_of_lt h]

@[simp] theorem lowSym_zext32 (c : Symbol) : lowSym (zext32 c) = c := by
  apply BitVec.eq_of_toNat_eq
  simp only [lowSym, BitVec.toNat_setWidth, zext32_toNat]
  exact Nat.mod_eq_of_lt c.isLt

/-- The codes of the configuration's dictionary fit 32 bits. -/
theorem limit_le {cap : DictCap} (h : cap.wf = true) : cap.limit ≤ 2 ^ 32 := by
  cases cap with
  | unbounded => exact Nat.le_refl _
  | finite n => simp only [DictCap.wf, Bool.and_eq_true, decide_eq_true_eq] at h; exact h.2

theorem limit_ge {cap : DictCap} (h : cap.wf = true) : 257 ≤ cap.limit := by
  cases cap with
  | unbounded => simp [DictCap.limit]
  | finite n => simp only [DictCap.wf, Bool.and_eq_true, decide_eq_true_eq] at h; exact h.1

/-- `next_code` counts up by one without wrapping (R108). -/
theorem nextCode_succ_toNat {n : NextCode} (h : n.toNat < 2 ^ 32) : (n + 1).toNat = n.toNat + 1 := by
  simp only [BitVec.toNat_add]
  exact Nat.mod_eq_of_lt (by simp; omega)

/-! ## `D.BOUND` and the full test -/

/-- `D.BOUND` is one comparison of numbers (R105). -/
theorem bound_iff (d : Dict) (k : Code) : d.bound k = true ↔ k.toNat < d.nextCode.toNat := by
  simp [Dict.bound, BitVec.lt_def]

theorem bound_false_iff (d : Dict) (k : Code) : d.bound k = false ↔ d.nextCode.toNat ≤ k.toNat := by
  rw [← Bool.not_eq_true, bound_iff, Nat.not_lt]

theorem isFull_iff (cap : DictCap) (d : Dict) : d.isFull cap = true ↔ cap = .finite d.nextCode.toNat := by
  cases cap with
  | unbounded => simp [Dict.isFull]
  | finite n => simp only [Dict.isFull, beq_iff_eq, DictCap.finite.injEq, eq_comm (a := n)]

theorem cellExists_iff (cap : DictCap) (k : Nat) : cellExists cap k = true ↔ 256 ≤ k ∧ k < cap.limit := by
  rw [cellExists, Bool.and_eq_true, decide_eq_true_iff, decide_eq_true_iff, firstFree]

/-- A dictionary of the invariant that is not full has a cell at `next_code`, or is an exhausted unbounded one. -/
theorem room_of_not_full {cap : DictCap} {d : Dict} (hd : d.Inv cap) (h : d.isFull cap = false) :
    d.nextCode.toNat < cap.limit ∨ (cap = .unbounded ∧ d.nextCode.toNat = 2 ^ 32) := by
  have hh := hd.high
  cases cap with
  | unbounded =>
    simp only [DictCap.limit] at hh ⊢
    rcases Nat.lt_or_eq_of_le hh with h | h
    · exact .inl h
    · exact .inr ⟨trivial, h⟩
  | finite n =>
    simp only [Dict.isFull, beq_eq_false_iff_ne, DictCap.limit] at h hh ⊢
    left; omega

/-! ## `D.LOOKUP` -/

theorem scan_next {d : Dict} {e : Entry} {n k : Nat} (h : ∀ j, k ≤ j → j < k + n → ∃ x, d.mem.read j = some x) :
    (∃ j, k ≤ j ∧ j < k + n ∧ d.mem.read j = some e ∧ (∀ i, k ≤ i → i < j → d.mem.read i ≠ some e) ∧
      d.scan e n k = .next (.hit (BitVec.ofNat 32 j))) ∨
    ((∀ j, k ≤ j → j < k + n → d.mem.read j ≠ some e) ∧ d.scan e n k = .next .miss) := by
  induction n generalizing k with
  | zero => exact .inr ⟨fun j h1 h2 => by omega, rfl⟩
  | succ n ih =>
    obtain ⟨x, hx⟩ := h k (Nat.le_refl _) (by omega)
    simp only [Dict.scan, Dict.readEntry, hx, andThen_next]
    by_cases hxe : x = e
    · subst hxe
      exact .inl ⟨k, Nat.le_refl _, by omega, hx, fun i h1 h2 => by omega, by simp⟩
    · simp only [hxe, if_false]
      have key : ∀ i, k ≤ i → ¬ (k + 1 ≤ i) → d.mem.read i ≠ some e := by
        intro i h1 h2
        have : i = k := by omega
        subst this
        simpa [hx] using hxe
      rcases ih (k := k + 1) (fun j h1 h2 => h j (by omega) (by omega)) with ⟨j, h1, h2, h3, h4, h5⟩ | ⟨h1, h2⟩
      · refine .inl ⟨j, by omega, by omega, h3, fun i hi hj => ?_, h5⟩
        by_cases hk : k + 1 ≤ i
        · exact h4 i hk hj
        · exact key i hi hk
      · refine .inr ⟨fun j hj hn => ?_, h2⟩
        by_cases hk : k + 1 ≤ j
        · exact h1 j hk (by omega)
        · exact key j hj hk

/-- `D.LOOKUP` on a dictionary of the invariant (R106): the least assigned code that holds the pair, or `Miss`. -/
theorem lookup_cases {cap : DictCap} {d : Dict} {p : Code} (c : Symbol) (hd : d.Inv cap)
    (hp : d.bound p = true) :
    (∃ j, 256 ≤ j ∧ j < d.nextCode.toNat ∧ d.mem.read j = some ⟨p, c⟩ ∧
      (∀ i, 256 ≤ i → i < j → d.mem.read i ≠ some ⟨p, c⟩) ∧
      d.lookup p c = .next (.hit (BitVec.ofNat 32 j))) ∨
    ((∀ j, 256 ≤ j → j < d.nextCode.toNat → d.mem.read j ≠ some ⟨p, c⟩) ∧ d.lookup p c = .next .miss) := by
  have hlow := hd.low
  simp only [firstFree] at hlow
  have hn : 256 + (d.nextCode.toNat - 256) = d.nextCode.toNat := by omega
  have := scan_next (d := d) (e := ⟨p, c⟩) (n := d.nextCode.toNat - 256) (k := 256)
    (fun j h1 h2 => by
      obtain ⟨x, hx, -⟩ := hd.assigned j h1 (by omega)
      exact ⟨x, hx⟩)
  rw [hn] at this
  simpa [Dict.lookup, hp, firstFree] using this

/-! ## `D.INSERT` -/

/-- `D.INSERT` with room (R107). -/
theorem insert_ok {cap : DictCap} {d : Dict} {p : Code} (c : Symbol) (hp : d.bound p = true)
    (hf : d.isFull cap = false) (hc : cellExists cap (lowCode d.nextCode).toNat = true) :
    d.insert cap p c = .next (.ok (lowCode d.nextCode),
      { mem := d.mem.write (lowCode d.nextCode).toNat ⟨p, c⟩, nextCode := d.nextCode + 1 }) := by
  simp [Dict.insert, hp, hf, hc]

/-- Everything `D.INSERT` can do when it goes through: `Full` and no write, or the entry and the increment. -/
theorem insert_cases {cap : DictCap} {d d' : Dict} {p : Code} {c : Symbol} {r : InsertReply}
    (h : d.insert cap p c = .next (r, d')) :
    d.bound p = true ∧
    ((d.isFull cap = true ∧ r = .full ∧ d' = d) ∨
     (d.isFull cap = false ∧ cellExists cap (lowCode d.nextCode).toNat = true ∧ r = .ok (lowCode d.nextCode) ∧
      d' = { mem := d.mem.write (lowCode d.nextCode).toNat ⟨p, c⟩, nextCode := d.nextCode + 1 })) := by
  simp only [Dict.insert] at h
  split at h
  · next hp =>
    refine ⟨hp, ?_⟩
    split at h
    · next hf => simp only [Host.Outcome.next.injEq, Prod.mk.injEq] at h; exact .inl ⟨hf, h.1.symm, h.2.symm⟩
    · next hf =>
      split at h
      · next hc =>
        simp only [Host.Outcome.next.injEq, Prod.mk.injEq] at h
        exact .inr ⟨by simpa using hf, hc, h.1.symm, h.2.symm⟩
      · simp at h
  · simp at h

/-- An insertion keeps the dictionary's invariant. -/
theorem insert_keeps_inv {cap : DictCap} {d : Dict} {p : Code} (c : Symbol) (hd : d.Inv cap)
    (hcap : cap.wf = true) (hp : d.bound p = true) (hlt : d.nextCode.toNat < cap.limit) :
    Dict.Inv cap { mem := d.mem.write (lowCode d.nextCode).toNat ⟨p, c⟩, nextCode := d.nextCode + 1 } := by
  have hl := limit_le hcap
  have hlow := hd.low
  simp only [firstFree] at hlow
  have hn : d.nextCode.toNat < 2 ^ 32 := by omega
  have hs := nextCode_succ_toNat hn
  rw [bound_iff] at hp
  rw [lowCode_toNat_of_lt hn]
  constructor
  · simp only [hs, firstFree]; omega
  · simp only [hs]; omega
  · intro k h1 h2
    simp only [hs] at h2
    by_cases hk : k = d.nextCode.toNat
    · subst hk
      exact ⟨⟨p, c⟩, Memory.read_write_same _ _ _, hp⟩
    · obtain ⟨e, he, hlt'⟩ := hd.assigned k h1 (by omega)
      exact ⟨e, by rw [Memory.read_write_ne _ _ hk]; exact he, hlt'⟩
  · exact Memory.write_wf _ _ hd.canonical
  · intro x hx
    rcases Memory.mem_write hx with rfl | hx
    · simp [cellExists_iff]; omega
    · exact hd.cells x hx

/-- Seeding keeps the dictionary's invariant (R104). -/
theorem seed_inv {cap : DictCap} {d : Dict} (hcap : cap.wf = true) (h1 : Memory.wf d.mem)
    (h2 : ∀ x ∈ d.mem, cellExists cap x.1 = true) : d.seed.Inv cap := by
  have := limit_ge hcap
  constructor
  · simp [firstFree]
  · simp only [Dict.seed_nextCode]; simp; omega
  · intro k hk1 hk2; simp [firstFree] at hk1 hk2; omega
  · exact h1
  · exact h2

/-! ## `D.FETCH` and `D.FIRST` -/

/-- The chain walk of a seed reads no entry (R110). -/
theorem walk_seed (d : Dict) (n : Nat) {k : Code} (t : List Symbol) (h : k.toNat < 256) :
    d.walk n k t = .next ⟨lowSym k, t⟩ := by
  cases n <;> simp [Dict.walk, alphabet, h]

theorem firstWalk_seed (d : Dict) (n : Nat) {k : Code} (h : k.toNat < 256) :
    d.firstWalk n k = .next (lowSym k) := by
  cases n <;> simp [Dict.firstWalk, alphabet, h]

/-- The chain walk from an assigned code goes on from its parent (R110). -/
theorem walk_succ {d : Dict} {n : Nat} {k : Code} {e : Entry} (t : List Symbol) (h : 256 ≤ k.toNat)
    (he : d.mem.read k.toNat = some e) (hlt : e.parent.toNat < k.toNat) :
    d.walk (n + 1) k t = d.walk n e.parent (e.sym :: t) := by
  have h1 : ¬ k.toNat < 256 := by omega
  have h2 : e.parent < k := hlt
  simp [Dict.walk, alphabet, h1, Dict.readEntry, he, h2]

theorem firstWalk_succ {d : Dict} {n : Nat} {k : Code} {e : Entry} (h : 256 ≤ k.toNat)
    (he : d.mem.read k.toNat = some e) (hlt : e.parent.toNat < k.toNat) :
    d.firstWalk (n + 1) k = d.firstWalk n e.parent := by
  have h1 : ¬ k.toNat < 256 := by omega
  have h2 : e.parent < k := hlt
  simp [Dict.firstWalk, alphabet, h1, Dict.readEntry, he, h2]

/-- The reads `D.FETCH` and `D.FIRST` allow themselves are enough. -/
theorem le_fuel (n : Nat) : n ≤ n - 255 + 255 := by omega

/-- The walk of a bound code ends, whatever fuel of at least `k − 255` it is given, and its result is the same; the
symbols already collected stand at its end; the first symbol is what `first` finds; and it is short (R43 item 2). -/
theorem walk_spec {cap : DictCap} {d : Dict} (hd : d.Inv cap) :
    ∀ (b : Nat) (k : Code), k.toNat ≤ b → k.toNat < d.nextCode.toNat →
      ∃ w : Str, (∀ n t, k.toNat ≤ n + 255 → d.walk n k t = .next ⟨w.head, w.tail ++ t⟩) ∧
        (∀ n, k.toNat ≤ n + 255 → d.firstWalk n k = .next w.head) ∧
        w.tail.length + 255 ≤ max 255 k.toNat := by
  intro b
  induction b with
  | zero =>
    intro k hk hb
    have : k.toNat < 256 := by omega
    exact ⟨⟨lowSym k, []⟩, fun n t _ => by simp [walk_seed d n t this],
      fun n _ => firstWalk_seed d n this, by simp⟩
  | succ b ih =>
    intro k hk hb
    by_cases hs : k.toNat < 256
    · exact ⟨⟨lowSym k, []⟩, fun n t _ => by simp [walk_seed d n t hs],
        fun n _ => firstWalk_seed d n hs, by simp⟩
    · have hs' : 256 ≤ k.toNat := by omega
      obtain ⟨e, he, hlt⟩ := hd.assigned k.toNat hs' hb
      obtain ⟨w, hw, hf, hl⟩ := ih e.parent (by omega) (by omega)
      refine ⟨w.snoc e.sym, fun n t hn => ?_, fun n hn => ?_, ?_⟩
      · cases n with
        | zero => omega
        | succ m =>
          rw [walk_succ t hs' he hlt, hw m _ (by omega)]
          simp [Str.snoc]
      · cases n with
        | zero => omega
        | succ m =>
          rw [firstWalk_succ hs' he hlt, hf m (by omega)]
          rfl
      · simp only [Str.snoc, List.length_append, List.length_singleton]; omega

/-- A bound code has a String, `D.FETCH` answers it and `D.FIRST` its first symbol (R110, R111). -/
theorem str_spec {cap : DictCap} {d : Dict} {k : Code} (hd : d.Inv cap) (hk : d.bound k = true) :
    ∃ w : Str, d.str k = some w ∧ d.fetch k = .next w ∧ d.first k = .next w.head ∧
      w.tail.length + 255 ≤ max 255 k.toNat := by
  obtain ⟨w, h1, h2, h3⟩ := walk_spec hd k.toNat k (Nat.le_refl _) ((bound_iff d k).1 hk)
  have hf : d.fetch k = .next w := by
    simp only [Dict.fetch, hk, if_true, h1 _ [] (le_fuel _), List.append_nil]
  refine ⟨w, by simp [Dict.str, hf], hf, ?_, h3⟩
  simp [Dict.first, hk, h2 _ (le_fuel _)]

/-- The String of a seed code is its one symbol (R102). -/
theorem str_seed {d : Dict} {k : Code} (hb : d.bound k = true) (h : k.toNat < 256) :
    d.str k = some ⟨lowSym k, []⟩ := by
  simp [Dict.str, Dict.fetch, hb, walk_seed d _ [] h]

/-- The String of an assigned code is its parent's and its symbol (R102). -/
theorem str_assigned {cap : DictCap} {d : Dict} {k : Code} {e : Entry} (hd : d.Inv cap) (hb : d.bound k = true)
    (h : 256 ≤ k.toNat) (he : d.mem.read k.toNat = some e) :
    ∃ v : Str, d.str e.parent = some v ∧ d.str k = some (v.snoc e.sym) := by
  rw [bound_iff] at hb
  obtain ⟨e', he', hlt⟩ := hd.assigned k.toNat h hb
  obtain rfl : e = e' := by simpa [he] using he'
  obtain ⟨w, h1, -, -⟩ := walk_spec hd e.parent.toNat e.parent (Nat.le_refl _) (by omega)
  have hp : d.bound e.parent = true := (bound_iff _ _).2 (by omega)
  refine ⟨w, ?_, ?_⟩
  · simp [Dict.str, Dict.fetch, hp, h1 _ [] (le_fuel _)]
  · have hk : d.bound k = true := (bound_iff _ _).2 hb
    obtain ⟨m, hm⟩ : ∃ m, k.toNat - 255 = m + 1 := ⟨k.toNat - 256, by omega⟩
    simp only [Dict.str, Dict.fetch, hk, if_true, hm]
    rw [walk_succ [] h he hlt, h1 m _ (by omega)]
    simp [Str.snoc]

/-- The String of a bound code depends on the assigned cells alone (R43 item 4). -/
theorem str_congr {cap : DictCap} {d d' : Dict} (hd : d.Inv cap) (hd' : d'.Inv cap)
    (hn : d.nextCode.toNat ≤ d'.nextCode.toNat)
    (hm : ∀ k, k < d.nextCode.toNat → d'.mem.read k = d.mem.read k) :
    ∀ (b : Nat) (k : Code), k.toNat ≤ b → d.bound k = true → d'.str k = d.str k := by
  intro b
  induction b with
  | zero =>
    intro k hk hb
    have hb' : d'.bound k = true := by rw [bound_iff] at hb ⊢; omega
    rw [str_seed hb (by omega), str_seed hb' (by omega)]
  | succ b ih =>
    intro k hk hb
    have hb' : d'.bound k = true := by rw [bound_iff] at hb ⊢; omega
    by_cases hs : k.toNat < 256
    · rw [str_seed hb hs, str_seed hb' hs]
    · have hb0 := (bound_iff d k).1 hb
      obtain ⟨e, he, hlt⟩ := hd.assigned k.toNat (by simp only [firstFree]; omega) hb0
      obtain ⟨v, h1, h2⟩ := str_assigned hd hb (by omega) he
      obtain ⟨v', h1', h2'⟩ := str_assigned hd' hb' (by omega) (by rw [hm _ hb0]; exact he)
      have := ih e.parent (by omega) ((bound_iff _ _).2 (by omega))
      rw [h1, h1'] at this
      rw [h2, h2', Option.some.inj this]

@[simp] theorem Str.toList_snoc (w : Str) (c : Symbol) : (w.snoc c).toList = w.toList ++ [c] := rfl

theorem Str.toList_inj {v w : Str} : v.toList = w.toList ↔ v = w := by
  cases v; cases w; simp [Str.toList]

theorem Str.toList_ne_nil (w : Str) : w.toList ≠ [] := by simp [Str.toList]

end Sys2Proof.Machine
end

