-- ==== Sys2Proof/Laws/Units.lean ====
section
/-! SUPPORT. What the commands of the two units can do when they go through: one inversion lemma per rule, which later proofs cite instead of unfolding it. -/

namespace Sys2Proof.Machine

/-- Every command that reaches `ENC` and goes through is admitted, raises `PROTOCOL`, or is ignored (R123, R170). -/
theorem Encoder.admit_cases {e e' : Encoder} {k : CmdKind} {v : Arg} {rule : Encoder → Result Encoder}
    (h : e.judged k v rule = .next e') :
    (admission e.ctl.state k = .admitted ∧ rule e = .next e') ∨
    (admission e.ctl.state k = .protocol ∧ e' = e.raise .protocol v) ∨
    (admission e.ctl.state k = .ignored ∧ e' = e) := by
  simp only [Encoder.judged] at h
  split at h
  · exact .inl ⟨‹_›, h⟩
  · exact .inr (.inl ⟨‹_›, by simpa using h.symm⟩)
  · exact .inr (.inr ⟨‹_›, by simpa using h.symm⟩)

/-- Every command that reaches `DEC` and goes through is admitted, raises `PROTOCOL`, or is ignored (R143, R170). -/
theorem Decoder.admit_cases {d d' : Decoder} {k : CmdKind} {v : Arg} {rule : Decoder → Result Decoder}
    (h : d.judged k v rule = .next d') :
    (admission d.ctl.state k = .admitted ∧ rule d = .next d') ∨
    (admission d.ctl.state k = .protocol ∧ d' = d.raise .protocol v) ∨
    (admission d.ctl.state k = .ignored ∧ d' = d) := by
  simp only [Decoder.judged] at h
  split at h
  · exact .inl ⟨‹_›, h⟩
  · exact .inr (.inl ⟨‹_›, by simpa using h.symm⟩)
  · exact .inr (.inr ⟨‹_›, by simpa using h.symm⟩)

/-- Where each admission answer comes from (R123, R143). -/
theorem admitted_start {q : SeqState} : admission q .start = .admitted ↔ q ≠ .run := by cases q <;> simp [admission]
theorem admitted_data {q : SeqState} : admission q .data = .admitted ↔ q = .run := by cases q <;> simp [admission]
theorem admitted_finish {q : SeqState} : admission q .finish = .admitted ↔ q = .run := by
  cases q <;> simp [admission]
theorem protocol_start {q : SeqState} : admission q .start = .protocol ↔ q = .run := by cases q <;> simp [admission]
theorem protocol_data {q : SeqState} : admission q .data = .protocol ↔ q = .idle ∨ q = .done := by
  cases q <;> simp [admission]
theorem protocol_finish {q : SeqState} : admission q .finish = .protocol ↔ q = .idle ∨ q = .done := by
  cases q <;> simp [admission]
theorem ignored_start {q : SeqState} : admission q .start ≠ .ignored := by cases q <;> simp [admission]
theorem ignored_data {q : SeqState} : admission q .data = .ignored ↔ q = .fault := by
  cases q <;> simp [admission]
theorem ignored_finish {q : SeqState} : admission q .finish = .ignored ↔ q = .fault := by
  cases q <;> simp [admission]

/-- Everything the `Miss` branch of `ENC.SYM` can do when it goes through (R121). -/
theorem Encoder.missRule_cases {cap : DictCap} {c : Symbol} {e e' : Encoder} (h : e.missRule cap c = .next e') :
    (e.dict.isFull cap = true ∧ e' = e.raise .dictFull (zext32 c)) ∨
    (e.dict.isFull cap = false ∧ e.dict.bound e.matchCode = true ∧
      cellExists cap (lowCode e.dict.nextCode).toNat = true ∧
      e' = { e with
        out := e.out ++ [e.matchCode]
        dict := { mem := e.dict.mem.write (lowCode e.dict.nextCode).toNat ⟨e.matchCode, c⟩
                  nextCode := e.dict.nextCode + 1 }
        matchCode := zext32 c }) := by
  simp only [Encoder.missRule] at h
  split at h
  · next hf => exact .inl ⟨hf, by simpa using h.symm⟩
  · next hf =>
    obtain ⟨⟨r, d⟩, hi, hr⟩ := andThen_eq_next.1 h
    obtain ⟨hb, ⟨hf', -⟩ | ⟨hf', hc, -, rfl⟩⟩ := insert_cases hi
    · exact absurd hf' hf
    · exact .inr ⟨hf', hb, hc, by simpa using hr.symm⟩

/-- Everything `ENC.SYM` can do where it is admitted and goes through (R121). -/
theorem Encoder.symRule_cases {cap : DictCap} {c : Symbol} {e e' : Encoder} (h : e.symRule cap c = .next e') :
    (e.matchValid = false ∧ e' = { e with matchCode := zext32 c, matchValid := true }) ∨
    (e.matchValid = true ∧ ∃ k, e.dict.lookup e.matchCode c = .next (.hit k) ∧ e' = { e with matchCode := k }) ∨
    (e.matchValid = true ∧ e.dict.lookup e.matchCode c = .next .miss ∧ e.missRule cap c = .next e') := by
  simp only [Encoder.symRule] at h
  split at h
  · next hv =>
    obtain ⟨r, hl, hr⟩ := andThen_eq_next.1 h
    cases r with
    | hit k => exact .inr (.inl ⟨hv, k, hl, by simpa using hr.symm⟩)
    | miss => exact .inr (.inr ⟨hv, hl, hr⟩)
  · next hv => exact .inl ⟨by simpa using hv, by simpa using h.symm⟩

/-- Everything the first code of a call can do when it goes through (R141). -/
theorem Decoder.firstCodeRule_cases {k : Code} {d d' : Decoder} (h : d.firstCodeRule k = .next d') :
    (d.dict.bound k = false ∧ d' = d.raise .invalidData k) ∨
    (d.dict.bound k = true ∧ ∃ w, d.dict.fetch k = .next w ∧
      d' = { d with out := d.out ++ w.toList, prevCode := k, prevValid := true }) := by
  simp only [Decoder.firstCodeRule] at h
  split at h
  · next hb =>
    obtain ⟨w, hw, hr⟩ := andThen_eq_next.1 h
    exact .inr ⟨hb, w, hw, by simpa using hr.symm⟩
  · next hb => exact .inl ⟨by simpa using hb, by simpa using h.symm⟩

/-- What the entry of a subsequent code is (R141). -/
theorem Decoder.entryOf_cases {k : Code} {d : Decoder} {r : Option Str} (h : d.entryOf k = .next r) :
    (d.dict.bound k = true ∧ ∃ w, d.dict.fetch k = .next w ∧ r = some w) ∨
    (d.dict.bound k = false ∧ k.toNat = d.dict.nextCode.toNat ∧
      ∃ w c, d.dict.fetch d.prevCode = .next w ∧ d.dict.first d.prevCode = .next c ∧ r = some (w.snoc c)) ∨
    (d.dict.bound k = false ∧ d.dict.nextCode.toNat < k.toNat ∧ r = none) := by
  simp only [Decoder.entryOf] at h
  split at h
  · next hb =>
    obtain ⟨w, hw, hr⟩ := andThen_eq_next.1 h
    exact .inl ⟨hb, w, hw, by simpa using hr.symm⟩
  · next hb =>
    have hb' : d.dict.bound k = false := by simpa using hb
    have hge := (bound_false_iff _ _).1 hb'
    split at h
    · next hk =>
      obtain ⟨w, hw, h⟩ := andThen_eq_next.1 h
      obtain ⟨c, hc, hr⟩ := andThen_eq_next.1 h
      refine .inr (.inl ⟨hb', ?_, w, c, hw, hc, by simpa using hr.symm⟩)
      rw [← hk, zext33_toNat]
    · next hk =>
      refine .inr (.inr ⟨hb', ?_, by simpa using h.symm⟩)
      have : d.dict.nextCode.toNat ≠ k.toNat := fun hh => hk (BitVec.eq_of_toNat_eq (by rw [zext33_toNat, hh]))
      omega

/-- Everything emitting an acceptable subsequent code can do when it goes through (R141). -/
theorem Decoder.emitRule_cases {cap : DictCap} {k : Code} {w : Str} {d d' : Decoder}
    (h : d.emitRule cap k w = .next d') :
    (d.dict.isFull cap = true ∧ d' = d.raise .dictFull k) ∨
    (d.dict.isFull cap = false ∧ d.dict.bound d.prevCode = true ∧
      cellExists cap (lowCode d.dict.nextCode).toNat = true ∧
      d' = { d with
        out := d.out ++ w.toList
        dict := { mem := d.dict.mem.write (lowCode d.dict.nextCode).toNat ⟨d.prevCode, w.head⟩
                  nextCode := d.dict.nextCode + 1 }
        prevCode := k }) := by
  simp only [Decoder.emitRule] at h
  split at h
  · next hf => exact .inl ⟨hf, by simpa using h.symm⟩
  · next hf =>
    obtain ⟨⟨r, x⟩, hi, hr⟩ := andThen_eq_next.1 h
    obtain ⟨hb, ⟨hf', -⟩ | ⟨hf', hc, -, rfl⟩⟩ := insert_cases hi
    · exact absurd hf' hf
    · exact .inr ⟨hf', hb, hc, by simpa using hr.symm⟩

/-- Everything `DEC.CODE` can do where it is admitted and goes through (R141). -/
theorem Decoder.codeRule_cases {cap : DictCap} {k : Code} {d d' : Decoder} (h : d.codeRule cap k = .next d') :
    (d.prevValid = false ∧ d.firstCodeRule k = .next d') ∨
    (d.prevValid = true ∧ d.entryOf k = .next none ∧ d' = d.raise .invalidData k) ∨
    (d.prevValid = true ∧ ∃ w, d.entryOf k = .next (some w) ∧ d.emitRule cap k w = .next d') := by
  simp only [Decoder.codeRule] at h
  split at h
  · next hv =>
    simp only [Decoder.nextCodeRule] at h
    obtain ⟨r, hl, hr⟩ := andThen_eq_next.1 h
    cases r with
    | none => exact .inr (.inl ⟨hv, hl, by simpa using hr.symm⟩)
    | some w => exact .inr (.inr ⟨hv, w, hl, hr⟩)
  · next hv => exact .inl ⟨by simpa using hv, h⟩

end Sys2Proof.Machine
end

