-- ==== Sys2Proof/Laws/Step.lean ====
section
/-! SUPPORT. What one step can do: one inversion lemma for `fetch`, one for `step`, and one for the requests. -/

namespace Sys2Proof.Machine

/-- What `fetch` finds, and the state it leaves. -/
theorem fetch_cases (s : State) :
    (fetch s = .idle ∧ s.request = none ∧ s.input = []) ∨
    (∃ ws rest, fetch s = .reset (s.withInput rest) ∧ s.request = none ∧ s.input = .reset ws :: rest) ∨
    (∃ w rest i, fetch s = .run i (s.withInput rest) ∧ s.request = none ∧ s.input = .command w :: rest ∧
      decode (.command w) = .ok i) ∨
    (∃ w rest r, fetch s = .illegal (s.withInput rest) ∧ s.request = none ∧ s.input = .command w :: rest ∧
      decode (.command w) = .error r) ∨
    (∃ u w i, fetch s = .run i (s.withRequest none) ∧ s.request = some (u, w) ∧ decode (.request u w) = .ok i) ∨
    (∃ u w r, fetch s = .malformed w ∧ s.request = some (u, w) ∧ decode (.request u w) = .error r) := by
  cases hq : s.request with
  | some q =>
    obtain ⟨u, w⟩ := q
    cases hd : decode (.request u w) with
    | ok i => simp [fetch, hq, hd]
    | error r => simp [fetch, hq, hd]
  | none =>
    cases hi : s.input with
    | nil => simp [fetch, hq, hi]
    | cons ev rest =>
      cases ev with
      | reset ws => simp [fetch, hq, hi]
      | command w =>
        cases hd : decode (.command w) with
        | ok i => simp [fetch, hq, hi, hd]
        | error r => simp [fetch, hq, hi, hd]

/-- Everything a step can do when it goes through. -/
theorem step_cases {s t : State} (h : step s = .next t) :
    (fetch s = .idle ∧ t = s) ∨
    (∃ ws rest, fetch s = .reset (s.withInput rest) ∧ s.request = none ∧ s.input = .reset ws :: rest ∧
      t = (s.withInput rest).afterReset) ∨
    (∃ w rest i, fetch s = .run i (s.withInput rest) ∧ s.request = none ∧ s.input = .command w :: rest ∧
      decode (.command w) = .ok i ∧ exec i (s.withInput rest) = .next t) ∨
    (∃ w rest r, fetch s = .illegal (s.withInput rest) ∧ s.request = none ∧ s.input = .command w :: rest ∧
      decode (.command w) = .error r ∧ t = (s.withInput rest).refuseWord) ∨
    (∃ u w i, fetch s = .run i (s.withRequest none) ∧ s.request = some (u, w) ∧
      decode (.request u w) = .ok i ∧ exec i (s.withRequest none) = .next t) := by
  rcases fetch_cases s with ⟨hf, -, -⟩ | ⟨ws, rest, hf, hq, hi⟩ | ⟨w, rest, i, hf, hq, hi, hd⟩ |
    ⟨w, rest, r, hf, hq, hi, hd⟩ | ⟨u, w, i, hf, hq, hd⟩ | ⟨u, w, r, hf, hq, hd⟩
  · rw [step, hf] at h
    exact .inl ⟨hf, by simpa using h.symm⟩
  · rw [step, hf] at h
    exact .inr (.inl ⟨ws, rest, hf, hq, hi, by simpa using h.symm⟩)
  · rw [step, hf] at h
    exact .inr (.inr (.inl ⟨w, rest, i, hf, hq, hi, hd, h⟩))
  · rw [step, hf] at h
    exact .inr (.inr (.inr (.inl ⟨w, rest, r, hf, hq, hi, hd, by simpa using h.symm⟩)))
  · rw [step, hf] at h
    exact .inr (.inr (.inr (.inr ⟨u, w, i, hf, hq, hd, h⟩)))
  · rw [step, hf] at h
    simp at h

/-- A command word decodes to a command. -/
theorem decodeCommand_unit {w : CmdWord} {i : Instr} (h : decode (.command w) = .ok i) : commandUnit i ≠ none := by
  simp only [decode, decodeCommand, formatN, formatS] at h
  split at h
  all_goals first | (split at h <;> simp_all) | simp_all
  all_goals (subst h; simp [commandUnit])

/-- A request word decodes to a request. -/
theorem decodeRequest_unit {u : UnitId} {w : ReqWord} {i : Instr} (h : decode (.request u w) = .ok i) :
    commandUnit i = none := by
  simp only [decode, decodeRequest, noOperand, noSym] at h
  split at h
  all_goals first
    | (split at h <;> first | (split at h <;> simp_all) | simp_all)
    | simp_all
  all_goals (subst h; simp [commandUnit])

/-! ## The commands as acts on one unit -/

theorem exec_encStart (s : State) : exec .encStart s =
    s.onEnc fun e => e.judged .start 0 Encoder.startRule := rfl
theorem exec_encSym (c : Symbol) (s : State) : exec (.encSym c) s =
    s.onEnc fun e => e.judged .data (zext32 c) (Encoder.symRule s.config.dictCap c) := rfl
theorem exec_encEnd (s : State) : exec .encEnd s =
    s.onEnc fun e => e.judged .finish 0 Encoder.endRule := rfl
theorem exec_decStart (s : State) : exec .decStart s =
    s.onDec fun d => d.judged .start 0 Decoder.startRule := rfl
theorem exec_decCode (k : Code) (s : State) : exec (.decCode k) s =
    s.onDec fun d => d.judged .data k (Decoder.codeRule s.config.dictCap k) := rfl
theorem exec_decEnd (s : State) : exec .decEnd s =
    s.onDec fun d => d.judged .finish 0 Decoder.endRule := rfl

/-- Everything a request can do when it goes through: its answer, and for `D.SEED` and `D.INSERT` its dictionary. -/
theorem exec_request_cases {i : Instr} {s t : State} (hu : commandUnit i = none) (h : exec i s = .next t) :
    (∃ u, i = .dSeed u ∧ t = (s.withDict u (s.dictOf u).seed).withReply none) ∨
    (∃ u p c r d, i = .dInsert u p c ∧ (s.dictOf u).insert s.config.dictCap p c = .next (r, d) ∧
      t = (s.withDict u d).withReply (some (u, .insert r))) ∨
    (∃ r, i.mnemonic ∉ ["D.SEED", "D.INSERT"] ∧ t = s.withReply r) := by
  cases i with
  | encStart => simp [commandUnit] at hu
  | encSym c => simp [commandUnit] at hu
  | encEnd => simp [commandUnit] at hu
  | decStart => simp [commandUnit] at hu
  | decCode k => simp [commandUnit] at hu
  | decEnd => simp [commandUnit] at hu
  | dSeed u => exact .inl ⟨u, rfl, by simpa [exec, execDSeed] using h.symm⟩
  | dBound u k => exact .inr (.inr ⟨_, by simp [Instr.mnemonic], by simpa [exec, execDBound] using h.symm⟩)
  | dLookup u p c =>
    obtain ⟨r, -, hr⟩ := andThen_eq_next.1 h
    exact .inr (.inr ⟨_, by simp [Instr.mnemonic], by simpa using hr.symm⟩)
  | dInsert u p c =>
    obtain ⟨⟨r, d⟩, hi, hr⟩ := andThen_eq_next.1 h
    exact .inr (.inl ⟨u, p, c, r, d, rfl, hi, by simpa using hr.symm⟩)
  | dFetch u k =>
    obtain ⟨r, -, hr⟩ := andThen_eq_next.1 h
    exact .inr (.inr ⟨_, by simp [Instr.mnemonic], by simpa using hr.symm⟩)
  | dFirst u k =>
    obtain ⟨r, -, hr⟩ := andThen_eq_next.1 h
    exact .inr (.inr ⟨_, by simp [Instr.mnemonic], by simpa using hr.symm⟩)

end Sys2Proof.Machine
end

