-- ==== Sys2Proof/Laws/Run.lean ====
section
/-! SUPPORT. Runs of many steps and safe runs, one step at a time, and the step of a command word the host presents. -/

namespace Sys2Proof.Machine

/-- A run takes its first step and goes on. -/
theorem run_next {n : Nat} {s s' : State} (h : step s = .next s') : core.run (n + 1) s = core.run n s' := by
  have h' : core.step s = .next s' := h
  simp only [Host.Core.run, h']

/-- A run that goes through is a step that goes through and a run. -/
theorem run_cases {n : Nat} {s t : State} (h : core.run (n + 1) s = .next t) :
    ∃ s' : State, step s = .next s' ∧ core.run n s' = .next t := by
  simp only [Host.Core.run] at h
  cases hs : core.step s with
  | fault => simp [hs] at h
  | refused => simp [hs] at h
  | next s1 => simp only [hs] at h; exact ⟨s1, hs, h⟩

/-- A run and one step more. -/
theorem run_snoc {n : Nat} {a b c : State} (h : core.run n a = .next b) (hs : step b = .next c) :
    core.run (n + 1) a = .next c := by
  induction n generalizing a with
  | zero => cases h; rw [run_next hs]; rfl
  | succ n ih =>
    obtain ⟨a', ha, hb⟩ := run_cases h
    rw [run_next ha]
    exact ih hb

/-- A safe run of one step more is a clean state, a step that goes through, and a safe run. -/
theorem safeRun_succ {n : Nat} {s : State} :
    SafeRun (n + 1) s ↔ s.clean = true ∧ ∃ s' : State, step s = .next s' ∧ SafeRun n s' := by
  constructor
  · intro h
    obtain ⟨t, ht, hc⟩ := h 0 (Nat.zero_le _)
    cases ht
    obtain ⟨t, ht, -⟩ := h 1 (by omega)
    obtain ⟨s', hs, -⟩ := run_cases ht
    refine ⟨hc, s', hs, fun m hm => ?_⟩
    obtain ⟨v, hv, hvc⟩ := h (m + 1) (by omega)
    rw [run_next hs] at hv
    exact ⟨v, hv, hvc⟩
  · rintro ⟨hc, s', hs, h⟩ m hm
    cases m with
    | zero => exact ⟨s, rfl, hc⟩
    | succ m =>
      obtain ⟨v, hv, hvc⟩ := h m (by omega)
      exact ⟨v, by rw [run_next hs]; exact hv, hvc⟩

/-- The step of a command word that spells an instruction. -/
theorem step_command {s : State} {w : CmdWord} {rest : List HostEvent} {i : Instr} (hq : s.request = none)
    (hin : s.input = .command w :: rest) (hd : decode (.command w) = .ok i) : step s = exec i (s.withInput rest) := by
  simp [step, fetch, hq, hin, hd]

end Sys2Proof.Machine
end

