-- ==== Sys2Proof/Laws/Calls.lean ====
section
/-! SUPPORT. What the outcome of a call depends on: the states up to the first end and nothing after it. -/

namespace Sys2Proof.Machine

theorem endShown_run {α : Type} {c : Control} {out : List α} (h : c.state = .run) : endShown c out = none := by
  simp [endShown, h]

theorem endShown_done {α : Type} {c : Control} {out : List α} (h : c.state = .done) :
    endShown c out = some (.done out) := by
  simp [endShown, h]

theorem endShown_fault {α : Type} {c : Control} {out : List α} (h : c.state = .fault) :
    endShown c out = some (.fault c.cause c.info) := by
  simp [endShown, h]

/-- At an end the outcome is the one shown, however far the run goes on. -/
theorem firstEnd_shown {α : Type} {u : UnitId} {shown : State → Option (CallOutcome α)} {s : State} {o : CallOutcome α}
    (h : shown s = some o) (n : Nat) : firstEnd u shown n s = some o := by
  cases n <;> simp [firstEnd, h]

/-- At a moment of the call that is no end, the outcome is that of the rest of the run. -/
theorem firstEnd_step {α : Type} {u : UnitId} {shown : State → Option (CallOutcome α)} {s t : State}
    (h : shown s = none) (hi : (s.ctlOf u).state ≠ .idle) (hs : step s = .next t) (n : Nat) :
    firstEnd u shown (n + 1) s = firstEnd u shown n t := by
  simp [firstEnd, h, hi, hs]

/-- Everything an outcome says: some moment shows it, and at every moment of the call before that none is shown (R200). -/
theorem firstEnd_eq_some {α : Type} {u : UnitId} {shown : State → Option (CallOutcome α)} {n : Nat} {s : State}
    {o : CallOutcome α} (h : firstEnd u shown n s = some o) :
    ∃ m, m ≤ n ∧ (∃ t : State, core.run m s = .next t ∧ shown t = some o) ∧
      ∀ j, j < m → ∃ t : State, core.run j s = .next t ∧ shown t = none ∧ (t.ctlOf u).state ≠ .idle := by
  induction n generalizing s with
  | zero => exact ⟨0, Nat.le_refl _, ⟨s, rfl, h⟩, by simp⟩
  | succ n ih =>
    cases hs : shown s with
    | some o' =>
      rw [firstEnd_shown hs] at h
      exact ⟨0, Nat.zero_le _, ⟨s, rfl, by rw [hs, h]⟩, by simp⟩
    | none =>
      have hi : (s.ctlOf u).state ≠ .idle := fun hi => by simp [firstEnd, hs, hi] at h
      cases ht : step s with
      | fault => simp [firstEnd, hs, ht] at h
      | refused => simp [firstEnd, hs, ht] at h
      | next t =>
        rw [firstEnd_step hs hi ht] at h
        obtain ⟨m, hm, ⟨v, hv, ho⟩, hb⟩ := ih h
        refine ⟨m + 1, by omega, ⟨v, by rw [run_next ht]; exact hv, ho⟩, fun j hj => ?_⟩
        cases j with
        | zero => exact ⟨s, rfl, hs, hi⟩
        | succ j => rw [run_next ht]; exact hb j (by omega)

/-- An outcome once reached is the outcome of every longer run: nothing that happens later changes it (R200). -/
theorem firstEnd_mono {α : Type} {u : UnitId} {shown : State → Option (CallOutcome α)} {n m : Nat} {s : State}
    {o : CallOutcome α} (h : firstEnd u shown n s = some o) (hm : n ≤ m) : firstEnd u shown m s = some o := by
  induction n generalizing s m with
  | zero => exact firstEnd_shown h m
  | succ n ih =>
    obtain ⟨m, rfl⟩ : ∃ k, m = k + 1 := ⟨m - 1, by omega⟩
    cases hs : shown s with
    | some o' => rw [firstEnd_shown hs] at h ⊢; exact h
    | none =>
      have hi : (s.ctlOf u).state ≠ .idle := fun hi => by simp [firstEnd, hs, hi] at h
      cases ht : step s with
      | fault => simp [firstEnd, hs, ht] at h
      | refused => simp [firstEnd, hs, ht] at h
      | next t => rw [firstEnd_step hs hi ht] at h ⊢; exact ih h (by omega)

/-- Where a call begins: a `START` of the unit ran, and the unit is in `RUN` (R200). -/
theorem callBegins_eq_some {u : UnitId} {s t : State} :
    callBegins u s = some t ↔
      (∃ s', fetch s = .run (startOf u) s') ∧ step s = .next t ∧ (t.ctlOf u).state = .run := by
  simp only [callBegins]
  constructor
  · intro h
    split at h
    · next i s' t' hf hs =>
      split at h
      · next hc => cases h; exact ⟨⟨s', by rw [hf, hc.1]⟩, hs, hc.2⟩
      · cases h
    · cases h
  · rintro ⟨⟨s', hf⟩, hs, hr⟩
    simp [hf, hs, hr]

end Sys2Proof.Machine
end

