-- ==== Sys2Proof/Laws/Commands.lean ====
section
/-! SUPPORT. What each of the six commands, and any instruction, can do when it goes through: one inversion lemma per command, one for its control registers, one for the dictionaries. -/

namespace Sys2Proof.Machine

/-- Everything `ENC.START` can do (R120, R123). -/
theorem execEncStart_cases {s t : State} (h : exec .encStart s = .next t) :
    (s.enc.ctl.state ≠ .run ∧ t = s.withEnc { s.enc with
      dict := s.enc.dict.seed, matchValid := false, out := [], ctl := s.enc.ctl.start }) ∨
    (s.enc.ctl.state = .run ∧ t = s.withEnc (s.enc.raise .protocol 0)) := by
  rw [exec_encStart] at h
  obtain ⟨e', he, rfl⟩ := onEnc_eq_next.1 h
  rcases Encoder.admit_cases he with ⟨ha, hr⟩ | ⟨ha, rfl⟩ | ⟨ha, rfl⟩
  · simp [Encoder.startRule] at hr; subst hr; exact .inl ⟨admitted_start.1 ha, rfl⟩
  · exact .inr ⟨protocol_start.1 ha, rfl⟩
  · exact absurd ha ignored_start

/-- Everything `ENC.SYM` can do, up to its rule in `RUN` (R121, R123). -/
theorem execEncSym_cases {s t : State} {c : Symbol} (h : exec (.encSym c) s = .next t) :
    (s.enc.ctl.state = .run ∧ ∃ e', s.enc.symRule s.config.dictCap c = .next e' ∧ t = s.withEnc e') ∨
    ((s.enc.ctl.state = .idle ∨ s.enc.ctl.state = .done) ∧ t = s.withEnc (s.enc.raise .protocol (zext32 c))) ∨
    (s.enc.ctl.state = .fault ∧ t = s) := by
  rw [exec_encSym] at h
  obtain ⟨e', he, rfl⟩ := onEnc_eq_next.1 h
  rcases Encoder.admit_cases he with ⟨ha, hr⟩ | ⟨ha, rfl⟩ | ⟨ha, rfl⟩
  · exact .inl ⟨admitted_data.1 ha, e', hr, rfl⟩
  · exact .inr (.inl ⟨protocol_data.1 ha, rfl⟩)
  · exact .inr (.inr ⟨ignored_data.1 ha, rfl⟩)

/-- Everything `ENC.END` can do (R122, R123). -/
theorem execEncEnd_cases {s t : State} (h : exec .encEnd s = .next t) :
    (s.enc.ctl.state = .run ∧ t = s.withEnc { s.enc with
      out := if s.enc.matchValid then s.enc.out ++ [s.enc.matchCode] else s.enc.out
      matchValid := false
      ctl := s.enc.ctl.finish }) ∨
    ((s.enc.ctl.state = .idle ∨ s.enc.ctl.state = .done) ∧ t = s.withEnc (s.enc.raise .protocol 0)) ∨
    (s.enc.ctl.state = .fault ∧ t = s) := by
  rw [exec_encEnd] at h
  obtain ⟨e', he, rfl⟩ := onEnc_eq_next.1 h
  rcases Encoder.admit_cases he with ⟨ha, hr⟩ | ⟨ha, rfl⟩ | ⟨ha, rfl⟩
  · simp [Encoder.endRule] at hr; subst hr; exact .inl ⟨admitted_finish.1 ha, rfl⟩
  · exact .inr (.inl ⟨protocol_finish.1 ha, rfl⟩)
  · exact .inr (.inr ⟨ignored_finish.1 ha, rfl⟩)

/-- Everything `DEC.START` can do (R140, R143). -/
theorem execDecStart_cases {s t : State} (h : exec .decStart s = .next t) :
    (s.dec.ctl.state ≠ .run ∧ t = s.withDec { s.dec with
      dict := s.dec.dict.seed, prevValid := false, out := [], ctl := s.dec.ctl.start }) ∨
    (s.dec.ctl.state = .run ∧ t = s.withDec (s.dec.raise .protocol 0)) := by
  rw [exec_decStart] at h
  obtain ⟨e', he, rfl⟩ := onDec_eq_next.1 h
  rcases Decoder.admit_cases he with ⟨ha, hr⟩ | ⟨ha, rfl⟩ | ⟨ha, rfl⟩
  · simp [Decoder.startRule] at hr; subst hr; exact .inl ⟨admitted_start.1 ha, rfl⟩
  · exact .inr ⟨protocol_start.1 ha, rfl⟩
  · exact absurd ha ignored_start

/-- Everything `DEC.CODE` can do, up to its rule in `RUN` (R141, R143). -/
theorem execDecCode_cases {s t : State} {k : Code} (h : exec (.decCode k) s = .next t) :
    (s.dec.ctl.state = .run ∧ ∃ e', s.dec.codeRule s.config.dictCap k = .next e' ∧ t = s.withDec e') ∨
    ((s.dec.ctl.state = .idle ∨ s.dec.ctl.state = .done) ∧ t = s.withDec (s.dec.raise .protocol k)) ∨
    (s.dec.ctl.state = .fault ∧ t = s) := by
  rw [exec_decCode] at h
  obtain ⟨e', he, rfl⟩ := onDec_eq_next.1 h
  rcases Decoder.admit_cases he with ⟨ha, hr⟩ | ⟨ha, rfl⟩ | ⟨ha, rfl⟩
  · exact .inl ⟨admitted_data.1 ha, e', hr, rfl⟩
  · exact .inr (.inl ⟨protocol_data.1 ha, rfl⟩)
  · exact .inr (.inr ⟨ignored_data.1 ha, rfl⟩)

/-- Everything `DEC.END` can do (R142, R143). -/
theorem execDecEnd_cases {s t : State} (h : exec .decEnd s = .next t) :
    (s.dec.ctl.state = .run ∧ t = s.withDec { s.dec with prevValid := false, ctl := s.dec.ctl.finish }) ∨
    ((s.dec.ctl.state = .idle ∨ s.dec.ctl.state = .done) ∧ t = s.withDec (s.dec.raise .protocol 0)) ∨
    (s.dec.ctl.state = .fault ∧ t = s) := by
  rw [exec_decEnd] at h
  obtain ⟨e', he, rfl⟩ := onDec_eq_next.1 h
  rcases Decoder.admit_cases he with ⟨ha, hr⟩ | ⟨ha, rfl⟩ | ⟨ha, rfl⟩
  · simp [Decoder.endRule] at hr; subst hr; exact .inl ⟨admitted_finish.1 ha, rfl⟩
  · exact .inr (.inl ⟨protocol_finish.1 ha, rfl⟩)
  · exact .inr (.inr ⟨ignored_finish.1 ha, rfl⟩)

/-- What the rule of `ENC.SYM` does to the control registers: nothing, or the fault entry of `DICT_FULL` (R164). -/
theorem symRule_control {cap : DictCap} {c : Symbol} {e e' : Encoder} (h : e.symRule cap c = .next e') :
    e'.ctl = e.ctl ∨
    (e' = e.raise .dictFull (zext32 c) ∧ e.matchValid = true ∧ e.dict.isFull cap = true ∧
      e.dict.lookup e.matchCode c = .next .miss) := by
  rcases Encoder.symRule_cases h with ⟨-, rfl⟩ | ⟨-, k, -, rfl⟩ | ⟨hv, hl, h⟩
  · exact .inl rfl
  · exact .inl rfl
  · rcases Encoder.missRule_cases h with ⟨hf, rfl⟩ | ⟨-, -, -, rfl⟩
    · exact .inr ⟨rfl, hv, hf, hl⟩
    · exact .inl rfl

/-- What the rule of `DEC.CODE` does to the control registers: nothing, or the fault entry of `INVALID_DATA` or `DICT_FULL`
(R164). -/
theorem codeRule_control {cap : DictCap} {k : Code} {d d' : Decoder} (h : d.codeRule cap k = .next d') :
    (d'.ctl = d.ctl ∧ d'.prevValid = true) ∨
    (d' = d.raise .invalidData k ∧
      ((d.prevValid = false ∧ d.dict.nextCode.toNat ≤ k.toNat) ∨
       (d.prevValid = true ∧ d.dict.nextCode.toNat < k.toNat))) ∨
    (d' = d.raise .dictFull k ∧ d.prevValid = true ∧ k.toNat ≤ d.dict.nextCode.toNat ∧
      d.dict.isFull cap = true) := by
  rcases Decoder.codeRule_cases h with ⟨hv, h⟩ | ⟨hv, hn, rfl⟩ | ⟨hv, w, hw, h⟩
  · rcases Decoder.firstCodeRule_cases h with ⟨hb, rfl⟩ | ⟨hb, w, hw, rfl⟩
    · exact .inr (.inl ⟨rfl, .inl ⟨hv, (bound_false_iff _ _).1 hb⟩⟩)
    · exact .inl ⟨rfl, rfl⟩
  · rcases Decoder.entryOf_cases hn with ⟨-, w, -, h⟩ | ⟨-, -, w, c, -, -, h⟩ | ⟨-, hlt, -⟩
    · cases h
    · cases h
    · exact .inr (.inl ⟨rfl, .inr ⟨hv, hlt⟩⟩)
  · have hk : k.toNat ≤ d.dict.nextCode.toNat := by
      rcases Decoder.entryOf_cases hw with ⟨hb, -⟩ | ⟨-, hk, -⟩ | ⟨-, -, h⟩
      · rw [bound_iff] at hb; omega
      · omega
      · cases h
    rcases Decoder.emitRule_cases h with ⟨hf, rfl⟩ | ⟨-, -, -, rfl⟩
    · exact .inr (.inr ⟨rfl, hv, hk, hf⟩)
    · exact .inl ⟨rfl, hv⟩

/-- The three commands of `ENC` (R81). -/
theorem encCommand_cases {i : Instr} (h : commandUnit i = some .enc) :
    i = .encStart ∨ (∃ c, i = .encSym c) ∨ i = .encEnd := by
  cases i <;> simp [commandUnit] at h <;> simp

/-- The three commands of `DEC` (R81). -/
theorem decCommand_cases {i : Instr} (h : commandUnit i = some .dec) :
    i = .decStart ∨ (∃ c, i = .decCode c) ∨ i = .decEnd := by
  cases i <;> simp [commandUnit] at h <;> simp

end Sys2Proof.Machine
end

