-- ==== Sys2Proof/Laws/PerInstr.lean ====
section
/-! SUPPORT. The per-instruction family `RowMatch`: the word of an instruction matches exactly its own row of the opcode table. -/

namespace Sys2Proof.Laws.RowMatch

/-- The word that encodes `i` is matched by the row of its mnemonic and by no other (R85, R89). -/
def Statement (i : Instr) : Prop := spelledBy (encode i) = [i.mnemonic]

theorem encStart : Statement .encStart := by
  unfold Statement
  decide

theorem encSym (c : Symbol) : Statement (.encSym c) := by
  have h : symArgWord c &&& 4294967040#32 = 0#32 := (maskS_iff _).2 (argHigh_symArgWord c)
  simp [Statement, encode, spelledBy, commandRows_fields, List.filter, spells_cmdWord, h, Instr.mnemonic]

theorem encEnd : Statement .encEnd := by
  unfold Statement
  decide

theorem decStart : Statement .decStart := by
  unfold Statement
  decide

theorem decCode (k : Code) : Statement (.decCode k) := by
  simp [Statement, encode, spelledBy, commandRows_fields, List.filter, spells_cmdWord, Instr.mnemonic]

theorem decEnd : Statement .decEnd := by
  unfold Statement
  decide

theorem dSeed (u : UnitId) : Statement (.dSeed u) := by
  simp [Statement, encode, spelledBy, requestRows_fields, List.filter, spells_reqWord, Instr.mnemonic]

theorem dBound (u : UnitId) (k : Code) : Statement (.dBound u k) := by
  simp [Statement, encode, spelledBy, requestRows_fields, List.filter, spells_reqWord, Instr.mnemonic]

theorem dLookup (u : UnitId) (p : Code) (c : Symbol) : Statement (.dLookup u p c) := by
  simp [Statement, encode, spelledBy, requestRows_fields, List.filter, spells_reqWord, Instr.mnemonic]

theorem dInsert (u : UnitId) (p : Code) (c : Symbol) : Statement (.dInsert u p c) := by
  simp [Statement, encode, spelledBy, requestRows_fields, List.filter, spells_reqWord, Instr.mnemonic]

theorem dFetch (u : UnitId) (k : Code) : Statement (.dFetch u k) := by
  simp [Statement, encode, spelledBy, requestRows_fields, List.filter, spells_reqWord, Instr.mnemonic]

theorem dFirst (u : UnitId) (k : Code) : Statement (.dFirst u k) := by
  simp [Statement, encode, spelledBy, requestRows_fields, List.filter, spells_reqWord, Instr.mnemonic]

end Sys2Proof.Laws.RowMatch
end

