-- ==== Sys2Proof/Laws/Serialized.lean ====
section
/-! SUPPORT. The codes of `encode` as 32-bit codes: which list stands for which. -/

namespace Sys2Proof.Machine

/-- Everything `codesOf` can answer: the one list of 32-bit codes with these numbers (R9). -/
theorem codesOf_eq_some {ns : List Nat} {ks : List Code} : codesOf ns = some ks ↔ ks.map BitVec.toNat = ns := by
  induction ns generalizing ks with
  | nil => cases ks <;> simp [codesOf]
  | cons n ns ih =>
    simp only [codesOf]
    split
    · simp only [Option.map_eq_some_iff]
      constructor
      · rintro ⟨l, hl, rfl⟩
        simp [ih.1 hl]
        omega
      · intro h
        cases ks with
        | nil => simp at h
        | cons k ks =>
          obtain ⟨rfl, h'⟩ : k.toNat = n ∧ ks.map BitVec.toNat = ns := by simpa using h
          exact ⟨ks, ih.2 h', by simp⟩
    · simp only [reduceCtorEq, false_iff]
      intro h
      cases ks with
      | nil => simp at h
      | cons k ks =>
        have := k.isLt
        simp at h
        omega

end Sys2Proof.Machine
end

