-- ==== Sys2Proof/Laws/Strings.lean ====
section
/-! SUPPORT. The Strings of a dictionary: what an insertion does to them, and that looking up a pair looks up a String. -/

namespace Sys2Proof.Machine

theorem decMap_eq_some {d : Dict} {k : Code} {w : List Symbol} :
    d.decMap k = some w ↔ ∃ v, d.str k = some v ∧ v.toList = w := by
  simp [Dict.decMap]

/-- What an insertion with room leaves (R107): the invariant, one more code, the Strings bound before, and the new one. -/
theorem insert_str {cap : DictCap} {d : Dict} {p : Code} {c : Symbol} (hd : d.Inv cap) (hwf : cap.wf = true)
    (hb : d.bound p = true) (hlt : d.nextCode.toNat < cap.limit) :
    let d' : Dict := { mem := d.mem.write (lowCode d.nextCode).toNat ⟨p, c⟩, nextCode := d.nextCode + 1 }
    d'.Inv cap ∧ d'.nextCode.toNat = d.nextCode.toNat + 1 ∧ (lowCode d.nextCode).toNat = d.nextCode.toNat ∧
    (∀ j, d.bound j = true → d'.str j = d.str j) ∧
    (∃ v, d.str p = some v ∧ d'.str (lowCode d.nextCode) = some (v.snoc c)) ∧
    d'.mem.read d.nextCode.toNat = some ⟨p, c⟩ ∧
    (∀ j, j ≠ d.nextCode.toNat → d'.mem.read j = d.mem.read j) := by
  have hl := limit_le hwf
  have hlow := hd.low
  simp only [firstFree] at hlow
  have hn : d.nextCode.toNat < 2 ^ 32 := by omega
  intro d'
  have hi : d'.Inv cap := insert_keeps_inv c hd hwf hb hlt
  have hs : d'.nextCode.toNat = d.nextCode.toNat + 1 := nextCode_succ_toNat hn
  have hc := lowCode_toNat_of_lt hn
  have hr : ∀ j, j ≠ d.nextCode.toNat → d'.mem.read j = d.mem.read j := fun j hj =>
    Memory.read_write_ne _ _ (by rw [hc]; exact hj)
  have hr0 : d'.mem.read d.nextCode.toNat = some ⟨p, c⟩ := by
    have h := Memory.read_write_same d.mem d.nextCode.toNat ⟨p, c⟩
    show Memory.read (Memory.write d.mem (lowCode d.nextCode).toNat ⟨p, c⟩) _ = _
    rw [hc]
    exact h
  have hstr : ∀ j, d.bound j = true → d'.str j = d.str j := fun j hj =>
    str_congr hd hi (by omega) (fun k hk => hr k (by omega)) j.toNat j (Nat.le_refl _) hj
  refine ⟨hi, hs, hc, hstr, ?_, hr0, hr⟩
  have hb' : d'.bound (lowCode d.nextCode) = true := by rw [bound_iff, hs, hc]; omega
  obtain ⟨v, g1, g2⟩ := str_assigned hi hb' (by rw [hc]; exact hlow) (by rw [hc]; exact hr0)
  exact ⟨v, by rw [← hstr p hb]; exact g1, g2⟩

/-- A bound String of length two or more stands under a code whose entry is its last symbol and a code of the rest. -/
theorem encMap_snoc {cap : DictCap} {d : Dict} (hd : d.Inv cap) {v : List Symbol} {c : Symbol} {k : Code} (hv : v ≠ [])
    (h : d.encMap (v ++ [c]) k) :
    256 ≤ k.toNat ∧ ∃ p, p.toNat < k.toNat ∧ d.mem.read k.toNat = some ⟨p, c⟩ ∧ d.encMap v p := by
  obtain ⟨hb, hm⟩ := h
  obtain ⟨w, hw, hl⟩ := decMap_eq_some.1 hm
  have hk := (bound_iff d k).1 hb
  by_cases hs : k.toNat < 256
  · rw [str_seed hb hs] at hw
    cases hw
    have := congrArg List.length hl
    simp [Str.toList] at this
    exact absurd this hv
  · obtain ⟨e, he, hlt⟩ := hd.assigned k.toNat (by simp only [firstFree]; omega) hk
    obtain ⟨x, g1, g2⟩ := str_assigned hd hb (by omega) he
    rw [hw] at g2
    cases g2
    rw [Str.toList_snoc] at hl
    obtain ⟨h1, h2⟩ := List.append_inj' hl rfl
    simp at h2
    exact ⟨by omega, e.parent, hlt, by rw [he, ← h2], (bound_iff _ _).2 (by omega), decMap_eq_some.2 ⟨x, g1, h1⟩⟩

/-- The encode view is a function where no String is bound twice (R31). -/
theorem encMap_inj {d : Dict} (hu : d.Unique) {w : List Symbol} {j k : Code} (h1 : d.encMap w j)
    (h2 : d.encMap w k) : j = k := by
  obtain ⟨b1, m1⟩ := h1
  obtain ⟨b2, m2⟩ := h2
  obtain ⟨v, g1, e1⟩ := decMap_eq_some.1 m1
  obtain ⟨v', g2, e2⟩ := decMap_eq_some.1 m2
  exact hu j k b1 b2 (by rw [g1, g2, Str.toList_inj.1 (e1.trans e2.symm)])

/-- A seed is bound to its one symbol in every dictionary of the invariant (R29). -/
theorem encMap_symbol {cap : DictCap} {d : Dict} (hd : d.Inv cap) (c : Symbol) : d.encMap [c] (zext32 c) := by
  have := hd.low
  simp only [firstFree] at this
  have hc := c.isLt
  have hb : d.bound (zext32 c) = true := by rw [bound_iff, zext32_toNat]; omega
  exact ⟨hb, decMap_eq_some.2 ⟨_, str_seed hb (by rw [zext32_toNat]; omega), by simp [Str.toList]⟩⟩

end Sys2Proof.Machine
end

