-- ==== Sys2Proof/Tests/Slice0.lean ====
section
/-! SUPPORT. The model's own tests, their expected results taken from the spec's vectors, and a witness for the hypotheses of every statement that has some. -/

namespace Sys2Proof.Tests

open Sys2Proof Sys2Proof.Machine

/-! ## WellFormed: each check refuses an ill-formed term (R10, R104 to R111) -/

theorem test_wf_cap_too_small : (Config.mk (.finite 256)).wf = false := by decide
theorem test_wf_cap_least : (Config.mk (.finite 257)).wf = true := by decide
theorem test_wf_cap_greatest : (Config.mk (.finite 4294967296)).wf = true := by decide
theorem test_wf_cap_too_large : (Config.mk (.finite 4294967297)).wf = false := by decide
theorem test_wf_bound_on_encoder_port : (Instr.dBound .enc 256).wf = false := by decide
theorem test_wf_lookup_on_decoder_port : (Instr.dLookup .dec 84 79).wf = false := by decide
theorem test_wf_fetch_on_encoder_port : (Instr.dFetch .enc 265).wf = false := by decide
theorem test_wf_first_on_encoder_port : (Instr.dFirst .enc 265).wf = false := by decide
theorem test_wf_insert_on_both_ports : ((Instr.dInsert .enc 84 79).wf && (Instr.dInsert .dec 84 79).wf) = true := by
  decide

/-! ## Decoding: words written out bit by bit from R80 to R89, and the vectors W1 to W22 -/

/-- `ENC.SYM 'T'`: `op` 0010, `arg[31:8]` 0, `sym` 01010100 (R80, R83, W2). -/
theorem test_decode_encSym_bits : decode (.command 0b001000000000000000000000000001010100) = .ok (.encSym 84) := by
  decide
/-- `DEC.CODE 256`: `op` 0110, `arg` 256 (R80, R84, W7). -/
theorem test_decode_decCode_bits : decode (.command 0b011000000000000000000000000100000000) = .ok (.decCode 256) := by
  decide
/-- `D.LOOKUP 84, 79`: `dop` 011, `code` 84, `sym` 79 (R88, W19). -/
theorem test_decode_dLookup_bits :
    decode (.request .enc 0b0110000000000000000000000000101010001001111) = .ok (.dLookup .enc 84 79) := by decide

theorem test_W1 : decode (.command 0x100000000) = .ok .encStart := by decide
theorem test_W3 : decode (.command 0x200000000) = .ok (.encSym 0) := by decide
theorem test_W4 : decode (.command 0x2000000FF) = .ok (.encSym 255) := by decide
theorem test_W5 : decode (.command 0x300000000) = .ok .encEnd := by decide
theorem test_W6 : decode (.command 0x500000000) = .ok .decStart := by decide
theorem test_W8 : decode (.command 0x6FFFFFFFF) = .ok (.decCode 4294967295) := by decide
theorem test_W9 : decode (.command 0x700000000) = .ok .decEnd := by decide
theorem test_W10 : decode (.command 0x000000000) = .error (.noSuchOp 0) := by decide
theorem test_W11 : decode (.command 0x100000001) = .error (.argNotZero 1) := by decide
theorem test_W12 : decode (.command 0x200000100) = .error (.highArgNotZero 1) := by decide
theorem test_W13 : decode (.command 0x300000001) = .error (.argNotZero 1) := by decide
theorem test_W14 : decode (.command 0x400000000) = .error (.noSuchOp 4) := by decide
theorem test_W15 : decode (.command 0x700000001) = .error (.argNotZero 1) := by decide
theorem test_W16 : decode (.command 0x800000000) = .error (.noSuchOp 8) ∧
    decode (.command 0xF00000000) = .error (.noSuchOp 15) := by decide
theorem test_W17 : decode (.request .enc 0x10000000000) = .ok (.dSeed .enc) := by decide
theorem test_W18 : decode (.request .dec 0x20000010000) = .ok (.dBound .dec 256) := by decide
theorem test_W20 : decode (.request .enc 0x4000000544F) = .ok (.dInsert .enc 84 79) := by decide
theorem test_W21 : decode (.request .dec 0x50000010900) = .ok (.dFetch .dec 265) := by decide
theorem test_W22 : decode (.request .dec 0x60000010900) = .ok (.dFirst .dec 265) := by decide
/-- R90: `D.SEED` with a non-zero operand, `D.BOUND` with a non-zero `sym`, `dop` 0 and 7. -/
theorem test_no_request : decode (.request .enc 0x10000000100) = .error (.codeNotZero 1) ∧
    decode (.request .dec 0x20000010001) = .error (.symNotZero 1) ∧
    decode (.request .enc 0x00000000000) = .error (.noSuchDop 0) ∧
    decode (.request .dec 0x70000000000) = .error (.noSuchDop 7) := by decide
theorem test_table_word_command : decodeTableWord 36 0x6FFFFFFFF = some (.decCode 4294967295) := by decide
theorem test_table_word_request : decodeTableWord 43 0x50000010900 = some (.dFetch .dec 265) := by decide
theorem test_table_word_refused : decodeTableWord 36 0x400000000 = none := by decide

/-! ## A small state -/

/-- A dictionary with the one entry 256 = (65, 65), "AA" (E6). -/
def dict1 : Dict := { nextCode := 257, mem := [(256, ⟨65, 65⟩)] }

/-- The start state of T1 to T9. -/
def dict3 : Dict := { nextCode := 259, mem := [(256, ⟨84, 79⟩), (257, ⟨79, 66⟩), (258, ⟨256, 66⟩)] }

/-- Control registers in a sequencer state; in `FAULT`, after a `PROTOCOL` fault. -/
def ctl (q : SeqState) : Control :=
  match q with
  | .idle => ⟨.idle, .none, 0, false⟩
  | .run => ⟨.run, .none, 0, false⟩
  | .done => ⟨.done, .none, 0, false⟩
  | .fault => ⟨.fault, .protocol, 0, true⟩

/-- Both units in the state `q`, each with the dictionary `d`, the hold registers valid or not and holding `k`. -/
def small (cap : DictCap) (q : SeqState) (d : Dict) (v : Bool) (k : Code) : State :=
  { config := ⟨cap⟩
    enc := { ctl := ctl q, matchValid := v, matchCode := k, out := [65], dict := d }
    dec := { ctl := ctl q, prevValid := v, prevCode := k, out := [65, 65], dict := d }
    cmdIllegal := false, input := [], request := none, reply := none }

/-- A test on the state an instruction goes on to. -/
def after (r : Result State) (p : State → Bool) : Bool :=
  match r with
  | .next t => p t
  | .fault _ => false
  | .refused _ => false

/-! ## One step of each instruction -/

/-- Leaving `FAULT` (R120, R174): a new call, the cause cleared, `sticky` kept. -/
theorem test_encStart_from_fault : after (exec .encStart (small .unbounded .fault dict1 true 65)) (fun t =>
    decide (t.enc = { ctl := ⟨.run, .none, 0, true⟩, matchValid := false, matchCode := 65, out := [],
                      dict := { dict1 with nextCode := 256 } })) = true := by decide
/-- F: `ENC.START` in `RUN` (R123). -/
theorem test_encStart_in_run : after (exec .encStart (small .unbounded .run dict1 true 65)) (fun t =>
    decide (t.enc.ctl = ⟨.fault, .protocol, 0, true⟩ ∧ t.enc.dict = dict1)) = true := by decide
/-- E6, the third `'A'`: hit of the entry inserted by the command before (R202). -/
theorem test_encSym_hit : after (exec (.encSym 65) (small .unbounded .run dict1 true 65)) (fun t =>
    decide (t.enc.matchCode = 256 ∧ t.enc.out = [65] ∧ t.enc.dict = dict1)) = true := by decide
/-- E7, the fourth `'A'`: miss, emit 256, insert 257 = (256, 65). -/
theorem test_encSym_miss : after (exec (.encSym 65) (small .unbounded .run dict1 true 256)) (fun t =>
    decide (t.enc.matchCode = 65 ∧ t.enc.out = [65, 256] ∧
      t.enc.dict = { nextCode := 258, mem := [(256, ⟨65, 65⟩), (257, ⟨256, 65⟩)] })) = true := by decide
/-- `DICT_FULL` with `DICT_CAP` = 257: the symbol in `info`, nothing emitted (R166, R171). -/
theorem test_encSym_full : after (exec (.encSym 66) (small (.finite 257) .run dict1 true 65)) (fun t =>
    decide (t.enc = { ctl := ⟨.fault, .dictFull, 66, true⟩, matchValid := true, matchCode := 65, out := [65],
                      dict := dict1 })) = true := by decide
/-- E6: the last match is emitted (R122). -/
theorem test_encEnd : after (exec .encEnd (small .unbounded .run dict1 true 256)) (fun t =>
    decide (t.enc.out = [65, 256] ∧ t.enc.ctl.state = .done ∧ t.enc.matchValid = false ∧ t.enc.dict = dict1)) = true := by
  decide
/-- E1: `ENC.END` with an empty match emits nothing. -/
theorem test_encEnd_empty : after (exec .encEnd (small .unbounded .run dict1 false 256)) (fun t =>
    decide (t.enc.out = [65] ∧ t.enc.ctl.state = .done)) = true := by decide
theorem test_decStart : after (exec .decStart (small .unbounded .done dict1 false 65)) (fun t =>
    decide (t.dec = { ctl := ⟨.run, .none, 0, false⟩, prevValid := false, prevCode := 65, out := [],
                      dict := { dict1 with nextCode := 256 } })) = true := by decide
/-- K5, the third code: unknown, "AAA", insert 257 = (256, 65). -/
theorem test_decCode_unknown : after (exec (.decCode 257) (small .unbounded .run dict1 true 256)) (fun t =>
    decide (t.dec.out = [65, 65, 65, 65, 65] ∧ t.dec.prevCode = 257 ∧
      t.dec.dict = { nextCode := 258, mem := [(256, ⟨65, 65⟩), (257, ⟨256, 65⟩)] })) = true := by decide
/-- R170: above `next_code` on a full dictionary, `INVALID_DATA` is reported; at `next_code`, `DICT_FULL`. -/
theorem test_decCode_priority :
    (after (exec (.decCode 258) (small (.finite 257) .run dict1 true 65)) (fun t =>
      decide (t.dec.ctl = ⟨.fault, .invalidData, 258, true⟩ ∧ t.dec.out = [65, 65])) &&
     after (exec (.decCode 257) (small (.finite 257) .run dict1 true 65)) (fun t =>
      decide (t.dec.ctl = ⟨.fault, .dictFull, 257, true⟩ ∧ t.dec.out = [65, 65]))) = true := by decide
theorem test_decEnd : after (exec .decEnd (small .unbounded .run dict1 true 256)) (fun t =>
    decide (t.dec.out = [65, 65] ∧ t.dec.ctl.state = .done ∧ t.dec.prevValid = false)) = true := by decide
/-- T11: `mem` keeps the stale entry, and a lookup misses. -/
theorem test_dSeed : after (exec (.dSeed .enc) (small .unbounded .run dict3 true 84)) (fun t =>
    decide (t.enc.dict = { dict3 with nextCode := 256 } ∧ t.dec.dict = dict3 ∧
      t.enc.dict.bound 256 = false)) = true := by decide
/-- T2, T3, T4. -/
theorem test_dBound : (after (exec (.dBound .dec 258) (small .unbounded .run dict3 true 84)) (fun t =>
      decide (t.reply = some (.dec, .bound true))) &&
    after (exec (.dBound .dec 259) (small .unbounded .run dict3 true 84)) (fun t =>
      decide (t.reply = some (.dec, .bound false))) &&
    after (exec (.dBound .dec 4294967295) (small .unbounded .run dict3 true 84)) (fun t =>
      decide (t.reply = some (.dec, .bound false)))) = true := by decide
/-- T7. -/
theorem test_dLookup_hit : after (exec (.dLookup .enc 256 66) (small .unbounded .run dict3 true 84)) (fun t =>
    decide (t.reply = some (.enc, .lookup (.hit 258)))) = true := by decide
/-- T6. -/
theorem test_dLookup_miss : after (exec (.dLookup .enc 79 84) (small .unbounded .run dict3 true 84)) (fun t =>
    decide (t.reply = some (.enc, .lookup .miss))) = true := by decide
/-- T10. -/
theorem test_dInsert : after (exec (.dInsert .dec 258 69) (small .unbounded .run dict3 true 84)) (fun t =>
    decide (t.reply = some (.dec, .insert (.ok 259)) ∧ t.dec.dict.nextCode = 260 ∧
      t.dec.dict.mem.read 259 = some ⟨258, 69⟩ ∧ t.enc.dict = dict3)) = true := by decide
/-- T12. -/
theorem test_dInsert_full : after (exec (.dInsert .dec 65 65) (small (.finite 259) .run dict3 true 84)) (fun t =>
    decide (t.reply = some (.dec, .insert .full) ∧ t.dec.dict = dict3)) = true := by decide
/-- T8. -/
theorem test_dFetch : after (exec (.dFetch .dec 258) (small .unbounded .run dict3 true 84)) (fun t =>
    decide (t.reply = some (.dec, .fetch ⟨84, [79, 66]⟩))) = true := by decide
/-- T9. -/
theorem test_dFirst : after (exec (.dFirst .dec 257) (small .unbounded .run dict3 true 84)) (fun t =>
    decide (t.reply = some (.dec, .first 79))) = true := by decide

/-! ## Steps, the wire format, scripts -/

/-- A table word runs as the first instruction after reset. -/
theorem test_first_step : after (step (State.reset.withFetchWord 36 0x100000000)) (fun t =>
    decide (t.enc.ctl.state = .run ∧ t.input = [])) = true := by decide
/-- W10: refused, consumed, marked. -/
theorem test_refused_word : after (step (State.reset.withInput [.command 0])) (fun t =>
    decide (t = { State.reset with cmdIllegal := true })) = true := by decide
/-- R190: reset clears the sticky bits. -/
theorem test_reset_event : after (step ((small .unbounded .fault dict1 true 65).withInput [.reset []])) (fun t =>
    decide (t.enc.ctl = ⟨.idle, .none, 0, false⟩ ∧ t.dec.ctl = ⟨.idle, .none, 0, false⟩)) = true := by decide
/-- R63's example. -/
theorem test_pack : pack [84, 256] = [0x00, 0x00, 0x00, 0x54, 0x00, 0x00, 0x01, 0x00] := by decide
theorem test_unpack_short : (unpack [0, 0, 1] = .error .malformedBuffer) := by rfl
/-- R93: `'T'` is 84; a comment ends the line. -/
theorem test_script_symbol : parseLine "ENC.SYM 'T' ; first".toList = some (.encSym 84) := by decide
theorem test_script_code : parseLine "DEC.CODE 0x100".toList = some (.decCode 256) := by decide
theorem test_script_symbol_too_large : symbolOperand (.word ['2', '5', '6']) = none ∧
    symbolOperand (.word ['2', '5', '5']) = some 255 := by decide +kernel
/-- K4 on the function `decode` (R151). -/
theorem test_reference_decode : decodeCodes [65, 256] = some [65, 65, 65] := by decide +kernel

/-- R66 with R63: one byte, its code, four bytes, and back. -/
theorem test_compress : compress [84] = some [0x00, 0x00, 0x00, 0x54] := by decide +kernel
theorem test_decompress : decompress [0x00, 0x00, 0x00, 0x54] = .ok [84] := by rfl
/-- R65, R153: a buffer of three bytes, and a first code of 256. -/
theorem test_decompress_fails : decompress [0, 0, 1] = .error .malformedBuffer ∧
    decompress [0, 0, 1, 0] = .error .invalidData := ⟨rfl, rfl⟩
/-- R200: a symbol sent in `IDLE` raises `PROTOCOL`, and no call has begun. -/
theorem test_no_call : (State.reset.withInput [.command 0x200000041]).encCall 1 = none := by decide
/-- R200: the call ended in `DONE`; a `PROTOCOL` fault raised afterwards does not change its outcome (R167). -/
theorem test_call_done : (State.reset.withInput [.command 0x100000000, .command 0x300000000, .command 0x200000041]).encCall 2 =
    some (.done []) := by decide
/-- R200: a second `START` in `RUN` ends the call in `FAULT`, and begins none (R123). -/
theorem test_call_fault : (State.reset.withInput [.command 0x500000000, .command 0x500000000]).decCall 1 =
    some (.fault .protocol 0) ∧ (small .unbounded .run dict1 true 65 |>.withInput [.command 0x500000000]).decCall 1 = none := by
  decide
/-- A call that a reset cuts has no outcome (log entry 22). -/
theorem test_call_cut : (State.reset.withInput [.command 0x100000000, .reset [], .command 0x300000000]).encCall 2 = none := by
  decide

/-- R86, log entry 23: a refused word counts although a reset clears its mark; without it the run is safe. -/
theorem test_safeRun_refused_then_reset : ¬ SafeRun 2 (State.reset.withInput [.command 0, .reset []]) := by
  intro h
  obtain ⟨-, s', hs, h⟩ := safeRun_succ.1 h
  cases hs
  obtain ⟨t, ht, hc⟩ := h 0 (Nat.zero_le _)
  cases ht
  exact absurd hc (by decide)
theorem test_safeRun_start : SafeRun 1 (State.reset.withInput [.command 0x100000000]) :=
  safeRun_succ.2 ⟨rfl, _, rfl, fun m hm => by obtain rfl : m = 0 := by omega
                                              exact ⟨_, rfl, rfl⟩⟩

/-! ## Witnesses: for every statement with hypotheses, a state and operands that meet all of them

The states are `small` ones: each unit with the one entry 256 = "AA". -/

theorem dict1_inv {cap : DictCap} (h : 257 ≤ cap.limit) : dict1.Inv cap := by
  refine ⟨by decide, h, ?_, by decide, ?_⟩
  · intro k h1 h2
    have h3 : k < 257 := h2
    simp only [firstFree] at h1
    obtain rfl : k = 256 := by omega
    exact ⟨⟨65, 65⟩, rfl, by decide⟩
  · intro x hx
    obtain rfl : x = (256, ⟨65, 65⟩) := by simpa [dict1] using hx
    rw [cellExists_iff]
    exact ⟨Nat.le_refl _, h⟩

theorem dict1_unique : dict1.Unique := by
  have hi : dict1.Inv .unbounded := dict1_inv (by decide)
  have two : ∀ j : Code, dict1.bound j = true → ¬ j.toNat < 256 →
      j = 256 ∧ dict1.str j = some ⟨65, [65]⟩ := by
    intro j hj hs
    have h1 : j.toNat < 257 := (bound_iff dict1 j).1 hj
    obtain rfl : j = 256 := BitVec.eq_of_toNat_eq (show j.toNat = 256 by omega)
    exact ⟨rfl, by decide⟩
  intro j k hj hk h
  by_cases h1 : j.toNat < 256 <;> by_cases h2 : k.toNat < 256
  · rw [str_seed hj h1, str_seed hk h2] at h
    simp only [Option.some.injEq, Str.mk.injEq, and_true] at h
    have h3 := congrArg BitVec.toNat h
    simp only [lowSym, BitVec.toNat_setWidth] at h3
    exact BitVec.eq_of_toNat_eq (by omega)
  · rw [str_seed hj h1, (two k hk h2).2] at h
    simp at h
  · rw [str_seed hk h2, (two j hj h1).2] at h
    simp at h
  · rw [(two j hj h1).1, (two k hk h2).1]

theorem small_inv {cap : DictCap} {q : SeqState} {v : Bool} {k : Code} (hc : cap.wf = true)
    (hv : v = true → q = .run ∨ q = .fault) (hk : k.toNat < 257) : (small cap q dict1 v k).Inv := by
  have hl : 257 ≤ cap.limit := limit_ge hc
  have hb : dict1.bound k = true := (bound_iff dict1 k).2 hk
  have hq : (ctl q).state = q := by cases q <;> rfl
  have hctl : (ctl q).Inv := by cases q <;> constructor <;> simp [ctl]
  exact ⟨hc, ⟨dict1_inv hl, dict1_unique, fun _ => hb, hctl, fun h => by simpa [small, hq] using hv h⟩,
    ⟨dict1_inv hl, fun _ => hb, hctl, fun h => by simpa [small, hq] using hv h⟩, rfl⟩

theorem small_count (cap : DictCap) : (small cap .run dict1 true 65).enc.Count ∧ (small cap .run dict1 true 65).dec.Count := by
  refine ⟨⟨by simp [small], fun _ _ => rfl, by simp [small, ctl], fun _ j k h => ?_⟩, ⟨by simp [small], fun _ _ => by
    simp [small, dict1]⟩⟩
  cases j with
  | zero =>
    obtain rfl : 65 = k := by simpa [small] using h
    decide
  | succ j => simp [small] at h

/-- A running state with room, and one without. -/
theorem run_inv : (small .unbounded .run dict1 true 65).Inv := small_inv rfl (fun _ => .inl rfl) (by decide)
theorem full_inv : (small (.finite 257) .run dict1 true 65).Inv := small_inv rfl (fun _ => .inl rfl) (by decide)

theorem witness_ResetState : State.reset = State.reset ∨ ∃ c, State.reset = State.resetWith c := .inl rfl
theorem witness_ResetEvent : ((small .unbounded .run dict1 true 65).withInput [.reset [0]]).request = none ∧
    ((small .unbounded .run dict1 true 65).withInput [.reset [0]]).input = .reset [0] :: [] := ⟨rfl, rfl⟩
theorem witness_StickyBits : (∃ t, step ((small .unbounded .run dict1 true 65).withInput [.command 0x100000000]) = .next t ∧
      t.enc.ctl.sticky = true) ∧
    ¬ ((small .unbounded .run dict1 true 65).withInput [.command 0x100000000]).atReset :=
  ⟨⟨_, rfl, rfl⟩, by rintro ⟨-, ws, rest, h⟩; simp at h⟩
theorem witness_ConfigurationIsFixed : ∃ t, step ((small .unbounded .run dict1 true 65).withInput [.reset []]) = .next t :=
  ⟨_, rfl⟩
theorem witness_StepRuns_command : (State.reset.withInput [.command 0x2000000FF]).request = none ∧
    (State.reset.withInput [.command 0x2000000FF]).input = .command 0x2000000FF :: [] ∧
    decode (.command 0x2000000FF) = .ok (.encSym 255) := ⟨rfl, rfl, by decide⟩
theorem witness_StepRuns_request :
    (State.reset.withRequest (some (.dec, 0x50000010900))).request = some (.dec, 0x50000010900) ∧
    decode (.request .dec 0x50000010900) = .ok (.dFetch .dec 265) := ⟨rfl, by decide⟩
theorem witness_StepRuns_idle : State.reset.request = none ∧ State.reset.input = [] := ⟨rfl, rfl⟩
theorem witness_TableWord : decodeTableWord 43 0x20000010000 = some (.dBound .dec 256) := by decide
theorem witness_RefusedWords : (State.reset.withInput [.command 0x200000100]).request = none ∧
    (State.reset.withInput [.command 0x200000100]).input = .command 0x200000100 :: [] ∧
    decode (.command 0x200000100) = .error (.highArgNotZero 1) := ⟨rfl, rfl, by decide⟩
theorem witness_EncodeOfDecode : decode (.command 0x6FFFFFFFF) = .ok (.decCode 4294967295) := by decide

theorem witness_EncStart : (small .unbounded .fault dict1 true 65).enc.ctl.state ≠ .run ∧
    (small .unbounded .run dict1 true 65).enc.ctl.state = .run := by decide
theorem witness_EncSym_first : (small .unbounded .run dict1 false 65).enc.ctl.state = .run ∧
    (small .unbounded .run dict1 false 65).enc.matchValid = false := by decide
/-- The hit at the greatest assigned code. -/
theorem witness_EncSym_hit : (small .unbounded .run dict1 true 65).enc.ctl.state = .run ∧
    (small .unbounded .run dict1 true 65).enc.matchValid = true ∧
    (small .unbounded .run dict1 true 65).config.wf = true ∧
    (small .unbounded .run dict1 true 65).enc.dict.Inv .unbounded ∧
    (65 : Code).toNat < 257 ∧ dict1.mem.read 256 = some ⟨65, 65⟩ :=
  ⟨rfl, rfl, rfl, dict1_inv (by decide), by decide, by decide⟩
theorem dict1_miss : ∀ k, 256 ≤ k → k < dict1.nextCode.toNat → dict1.mem.read k ≠ some ⟨65, 66⟩ := by
  intro k h1 h2
  have h3 : k < 257 := h2
  obtain rfl : k = 256 := by omega
  decide
/-- The miss with no cell left, and with the last cell left. -/
theorem witness_EncSym_miss : (small (.finite 257) .run dict1 true 65).enc.dict.Inv (.finite 257) ∧
    (small (.finite 257) .run dict1 true 65).config.wf = true ∧
    (small (.finite 257) .run dict1 true 65).config.dictCap = .finite dict1.nextCode.toNat ∧
    (small (.finite 258) .run dict1 true 65).enc.dict.Inv (.finite 258) ∧
    (small (.finite 258) .run dict1 true 65).config.wf = true ∧
    dict1.nextCode.toNat < (small (.finite 258) .run dict1 true 65).config.dictCap.limit ∧
    (∀ k, 256 ≤ k → k < dict1.nextCode.toNat → dict1.mem.read k ≠ some ⟨65, 66⟩) :=
  ⟨dict1_inv (by decide), by decide, by decide, dict1_inv (by decide), by decide, by decide, dict1_miss⟩
theorem witness_EncSymOnStrings_hit : (small .unbounded .run dict1 true 65).Inv ∧
    (small .unbounded .run dict1 true 65).enc.ctl.state = .run ∧
    (small .unbounded .run dict1 true 65).enc.matchStr = some [65] ∧
    (∃ t, exec (.encSym 65) (small .unbounded .run dict1 true 65) = .next t ∧ t.enc.ctl.state = .run) ∧
    ∃ k, dict1.encMap ([65] ++ [65]) k := ⟨run_inv, rfl, by decide, ⟨_, rfl, rfl⟩, 256, by decide, by decide⟩
theorem witness_EncSymOnStrings_miss :
    (∃ t, exec (.encSym 66) (small .unbounded .run dict1 true 65) = .next t ∧ t.enc.ctl.state = .run) ∧
    ¬ ∃ k, dict1.encMap ([65] ++ [66]) k := by
  refine ⟨⟨_, rfl, rfl⟩, ?_⟩
  rintro ⟨k, hk⟩
  obtain ⟨h1, p, -, h3, -⟩ := encMap_snoc (dict1_inv (cap := .unbounded) (by decide)) (by simp) hk
  have h2 : k.toNat < 257 := (bound_iff dict1 k).1 hk.1
  rw [show k.toNat = 256 by omega] at h3
  have h4 : dict1.mem.read 256 = some ⟨65, 65⟩ := by decide
  rw [h4] at h3
  simp at h3
theorem witness_EncEnd : (small .unbounded .run dict1 true 65).enc.ctl.state = .run ∧
    (small .unbounded .run dict1 true 65).enc.matchValid = true ∧
    (small .unbounded .run dict1 false 65).enc.matchValid = false := by decide
theorem witness_EncoderAdmission : (small .unbounded .idle dict1 false 65).enc.ctl.state = .idle ∧
    (small .unbounded .done dict1 false 65).enc.ctl.state = .done ∧
    (small .unbounded .run dict1 false 65).enc.ctl.state = .run ∧
    (small .unbounded .fault dict1 false 65).enc.ctl.state = .fault := by decide
theorem witness_EncoderStateTransitions :
    (∃ t s', step ((small .unbounded .run dict1 true 65).withInput [.command 0x300000000]) = .next t ∧
      fetch ((small .unbounded .run dict1 true 65).withInput [.command 0x300000000]) = .run .encEnd s' ∧
      t.enc.ctl.state = .done) ∧
    (∃ t s', step ((small .unbounded .run dict1 true 65).withInput [.reset []]) = .next t ∧
      fetch ((small .unbounded .run dict1 true 65).withInput [.reset []]) = .reset s') ∧
    (∃ t s', step ((small .unbounded .run dict1 true 65).withInput [.command 0]) = .next t ∧
      fetch ((small .unbounded .run dict1 true 65).withInput [.command 0]) = .illegal s') :=
  ⟨⟨_, _, rfl, rfl, rfl⟩, ⟨_, _, rfl, rfl⟩, ⟨_, _, rfl, rfl⟩⟩
theorem witness_EmittedMatch : (small .unbounded .run dict1 true 65).Inv ∧
    (small .unbounded .run dict1 true 65).enc.matchValid = true ∧
    (small .unbounded .run dict1 true 65).enc.matchStr = some [65] ∧
    (∃ t, exec (.encSym 66) (small .unbounded .run dict1 true 65) = .next t ∧ t.enc.out = [65] ++ [65]) ∧
    (∃ t, exec .encEnd (small .unbounded .run dict1 true 65) = .next t ∧ t.enc.out = [65] ++ [65]) ∧
    dict1.encMap [65] 65 ∧ [65] <+: [65] ++ (66 : Symbol) :: [] :=
  ⟨run_inv, rfl, by decide, ⟨_, rfl, rfl⟩, ⟨_, rfl, rfl⟩, ⟨by decide, by decide⟩, ⟨[66], rfl⟩⟩

theorem witness_DecStart : (small .unbounded .idle dict1 false 65).dec.ctl.state ≠ .run ∧
    (small .unbounded .run dict1 true 65).dec.ctl.state = .run := by decide
/-- A seeded dictionary; the greatest seed and the least code that is not one. -/
theorem witness_DecCodeFirst : (small .unbounded .run Dict.reset false 65).dec.ctl.state = .run ∧
    (small .unbounded .run Dict.reset false 65).dec.prevValid = false ∧
    (small .unbounded .run Dict.reset false 65).dec.dict.nextCode = 256 ∧
    (255 : Code).toNat < 256 ∧ 256 ≤ (256 : Code).toNat := by decide
/-- The least code above `next_code`; `next_code` itself with no cell left; both acceptable kinds with the last cell left. -/
theorem witness_DecCodeSubsequent : (small (.finite 257) .run dict1 true 65).dec.ctl.state = .run ∧
    (small (.finite 257) .run dict1 true 65).dec.prevValid = true ∧
    (small (.finite 257) .run dict1 true 65).config.wf = true ∧
    (small (.finite 257) .run dict1 true 65).dec.dict.Inv (.finite 257) ∧
    (small (.finite 258) .run dict1 true 65).config.wf = true ∧
    (small (.finite 258) .run dict1 true 65).dec.dict.Inv (.finite 258) ∧
    (65 : Code).toNat < dict1.nextCode.toNat ∧
    dict1.nextCode.toNat < (258 : Code).toNat ∧
    (257 : Code).toNat ≤ dict1.nextCode.toNat ∧ DictCap.finite 257 = .finite dict1.nextCode.toNat ∧
    (256 : Code).toNat < dict1.nextCode.toNat ∧ (257 : Code).toNat = dict1.nextCode.toNat ∧
    dict1.nextCode.toNat < (DictCap.finite 258).limit :=
  ⟨rfl, rfl, by decide, dict1_inv (by decide), by decide, dict1_inv (by decide), by decide, by decide, by decide, by decide,
    by decide, by decide, by decide⟩
/-- A first code: the greatest bound code and the least that is not. -/
theorem witness_DecCodeLoop_first : (small (.finite 257) .run dict1 false 65).dec.ctl.state = .run ∧
    (small (.finite 257) .run dict1 false 65).dec.prevValid = false ∧
    (small (.finite 257) .run dict1 false 65).config.wf = true ∧
    (small (.finite 257) .run dict1 false 65).dec.dict.Inv (.finite 257) ∧
    (256 : Code).toNat < dict1.nextCode.toNat ∧ dict1.nextCode.toNat ≤ (257 : Code).toNat :=
  ⟨rfl, rfl, by decide, dict1_inv (by decide), by decide, by decide⟩
theorem witness_DecCodeLeaves : (small .unbounded .run dict1 true 65).Inv ∧
    (small .unbounded .run dict1 true 65).dec.ctl.state = .run ∧
    ∃ t, exec (.decCode 257) (small .unbounded .run dict1 true 65) = .next t ∧ t.dec.ctl.state = .run :=
  ⟨run_inv, rfl, _, rfl, rfl⟩
theorem witness_DecEnd : (small .unbounded .run dict1 true 65).dec.ctl.state = .run := by decide
theorem witness_DecoderAdmission : (small .unbounded .idle dict1 false 65).dec.ctl.state = .idle ∧
    (small .unbounded .done dict1 false 65).dec.ctl.state = .done ∧
    (small .unbounded .run dict1 false 65).dec.ctl.state = .run ∧
    (small .unbounded .fault dict1 false 65).dec.ctl.state = .fault := by decide
theorem witness_DecoderStateTransitions :
    (∃ t s', step ((small .unbounded .run dict1 true 65).withInput [.command 0x600000102]) = .next t ∧
      fetch ((small .unbounded .run dict1 true 65).withInput [.command 0x600000102]) = .run (.decCode 258) s' ∧
      t.dec.ctl.state = .fault ∧ t.dec.ctl.cause = .invalidData) ∧
    (∃ t s', step ((small .unbounded .run dict1 true 65).withInput [.reset []]) = .next t ∧
      fetch ((small .unbounded .run dict1 true 65).withInput [.reset []]) = .reset s') ∧
    (∃ t s', step ((small .unbounded .run dict1 true 65).withInput [.command 0]) = .next t ∧
      fetch ((small .unbounded .run dict1 true 65).withInput [.command 0]) = .illegal s') :=
  ⟨⟨_, _, rfl, rfl, rfl, rfl⟩, ⟨_, _, rfl, rfl⟩, ⟨_, _, rfl, rfl⟩⟩

theorem witness_WhichCommandRaises : (small (.finite 257) .run dict1 true 65).Inv ∧
    (∃ t, exec .encStart (small (.finite 257) .run dict1 true 65) = .next t) ∧
    (∃ t, exec (.encSym 66) (small (.finite 257) .run dict1 true 65) = .next t) ∧
    (∃ t, exec .encEnd (small (.finite 257) .run dict1 true 65) = .next t) ∧
    (∃ t, exec .decStart (small (.finite 257) .run dict1 true 65) = .next t) ∧
    (∃ t, exec (.decCode 257) (small (.finite 257) .run dict1 true 65) = .next t) ∧
    (∃ t, exec .decEnd (small (.finite 257) .run dict1 true 65) = .next t) :=
  ⟨full_inv, ⟨_, rfl⟩, ⟨_, rfl⟩, ⟨_, rfl⟩, ⟨_, rfl⟩, ⟨_, rfl⟩, ⟨_, rfl⟩⟩
theorem witness_FaultEntry :
    (∃ t, exec (.encSym 66) (small (.finite 257) .run dict1 true 65) = .next t ∧
      takesFault (small (.finite 257) .run dict1 true 65).enc.ctl t.enc.ctl .dictFull) ∧
    (∃ t, exec (.decCode 258) (small (.finite 257) .run dict1 true 65) = .next t ∧
      takesFault (small (.finite 257) .run dict1 true 65).dec.ctl t.dec.ctl .invalidData) :=
  ⟨⟨_, rfl, by decide, rfl, rfl⟩, ⟨_, rfl, by decide, rfl, rfl⟩⟩
theorem witness_OnlyStartAndReset :
    (∃ t, step ((small .unbounded .fault dict1 true 65).withInput [.command 0x100000000]) = .next t ∧
      t.enc.ctl.state ≠ .fault) ∧
    (∃ t, step ((small .unbounded .fault dict1 true 65).withInput [.reset []]) = .next t ∧ t.dec.ctl.state ≠ .fault) ∧
    (small .unbounded .fault dict1 true 65).enc.ctl.state = .fault :=
  ⟨⟨_, rfl, by decide⟩, ⟨_, rfl, by decide⟩, rfl⟩
theorem witness_RecordedFaults :
    (∃ t, core.run 1 ((small .unbounded .fault dict1 true 65).withInput [.command 0x100000000]) = .next t) ∧
    ((small .unbounded .fault dict1 true 65).withInput [.command 0x100000000]).request = none ∧
    (∀ e ∈ ((small .unbounded .fault dict1 true 65).withInput [.command 0x100000000]).input, ∀ ws, e ≠ .reset ws) ∧
    ((small .unbounded .fault dict1 true 65).withInput [.command 0x100000000]).clean = false :=
  ⟨⟨_, rfl⟩, rfl, by simp, by decide⟩

theorem witness_EncoderCommandsTouch : commandUnit (.encSym 66) = some .enc ∧
    ∃ t, exec (.encSym 66) (small .unbounded .run dict1 true 65) = .next t := ⟨rfl, _, rfl⟩
theorem witness_DecoderCommandsTouch : commandUnit (.decCode 257) = some .dec ∧
    ∃ t, exec (.decCode 257) (small .unbounded .run dict1 true 65) = .next t := ⟨rfl, _, rfl⟩
theorem witness_RegistersNotWritten :
    (∃ t, exec .encStart (small .unbounded .fault dict1 true 65) = .next t ∧ t.enc.ctl.state ≠ .fault) ∧
    (∃ t, exec (.encSym 66) (small .unbounded .run dict1 true 65) = .next t ∧ t.enc.ctl.state ≠ .fault) ∧
    (∃ t, exec .encEnd (small .unbounded .run dict1 true 65) = .next t ∧ t.enc.ctl.state ≠ .fault) ∧
    (∃ t, exec .decStart (small .unbounded .fault dict1 true 65) = .next t ∧ t.dec.ctl.state ≠ .fault) ∧
    (∃ t, exec (.decCode 256) (small .unbounded .run dict1 true 65) = .next t ∧ t.dec.ctl.state ≠ .fault) ∧
    (∃ t, exec .decEnd (small .unbounded .run dict1 true 65) = .next t ∧ t.dec.ctl.state ≠ .fault) :=
  ⟨⟨_, rfl, by decide⟩, ⟨_, rfl, by decide⟩, ⟨_, rfl, by decide⟩, ⟨_, rfl, by decide⟩, ⟨_, rfl, by decide⟩,
    ⟨_, rfl, by decide⟩⟩
/-- An insertion, a hit that moves nothing, and an instruction of the other unit. -/
theorem witness_MemoryIsWritten :
    (∃ t, exec (.encSym 66) (small .unbounded .run dict1 true 65) = .next t ∧ (t.dictOf .enc).nextCode = 258) ∧
    (∃ t, exec (.encSym 65) (small .unbounded .run dict1 true 65) = .next t ∧
      (t.dictOf .enc).nextCode = ((small .unbounded .run dict1 true 65).dictOf .enc).nextCode) ∧
    (∃ t, exec (.decCode 66) (small .unbounded .run dict1 true 65) = .next t ∧ ownerOf (.decCode 66) ≠ .enc) :=
  ⟨⟨_, rfl, rfl⟩, ⟨_, rfl, rfl⟩, ⟨_, rfl, by decide⟩⟩

theorem witness_Lookup : (small .unbounded .run dict1 true 65).config.wf = true ∧
    ((small .unbounded .run dict1 true 65).dictOf .enc).Inv .unbounded ∧
    (256 : Code).toNat < ((small .unbounded .run dict1 true 65).dictOf .enc).nextCode.toNat :=
  ⟨rfl, dict1_inv (by decide), by decide⟩
theorem witness_LookupIsTheEncodeView : (small .unbounded .run dict1 true 65).config.wf = true ∧
    ((small .unbounded .run dict1 true 65).dictOf .enc).Inv .unbounded ∧
    ((small .unbounded .run dict1 true 65).dictOf .enc).Unique ∧
    ((small .unbounded .run dict1 true 65).dictOf .enc).decMap 256 = some [65, 65] :=
  ⟨rfl, dict1_inv (by decide), dict1_unique, by decide⟩
theorem witness_Insert : ((small (.finite 258) .run dict1 true 65).dictOf .dec).Inv (.finite 258) ∧
    (256 : Code).toNat < ((small (.finite 257) .run dict1 true 65).dictOf .dec).nextCode.toNat ∧
    (small (.finite 257) .run dict1 true 65).config.dictCap =
      .finite ((small (.finite 257) .run dict1 true 65).dictOf .dec).nextCode.toNat ∧
    256 ≤ ((small (.finite 258) .run dict1 true 65).dictOf .dec).nextCode.toNat ∧
    ((small (.finite 258) .run dict1 true 65).dictOf .dec).nextCode.toNat <
      (small (.finite 258) .run dict1 true 65).config.dictCap.limit ∧
    (small (.finite 258) .run dict1 true 65).config.wf = true :=
  ⟨dict1_inv (by decide), by decide, by decide, by decide, by decide, by decide⟩
/-- The greatest seed and the least assigned code. -/
theorem witness_Fetch : ((small .unbounded .run dict1 true 65).dictOf .dec).Inv .unbounded ∧
    (255 : Code).toNat < ((small .unbounded .run dict1 true 65).dictOf .dec).nextCode.toNat ∧ (255 : Code).toNat < 256 ∧
    (256 : Code).toNat < ((small .unbounded .run dict1 true 65).dictOf .dec).nextCode.toNat ∧ 256 ≤ (256 : Code).toNat ∧
    ((small .unbounded .run dict1 true 65).dictOf .dec).mem.read (256 : Code).toNat = some ⟨65, 65⟩ :=
  ⟨dict1_inv (by decide), by decide, by decide, by decide, by decide, by decide⟩
theorem witness_First : ((small .unbounded .run dict1 true 65).dictOf .dec).Inv .unbounded ∧
    (256 : Code).toNat < ((small .unbounded .run dict1 true 65).dictOf .dec).nextCode.toNat :=
  ⟨dict1_inv (by decide), by decide⟩
theorem witness_Unbound : ((small .unbounded .run dict1 true 65).dictOf .dec).nextCode.toNat ≤ (257 : Code).toNat := by
  decide
theorem witness_RequestsTouch : commandUnit (.dBound .dec 256) = none ∧
    (Instr.dBound .dec 256).mnemonic ∉ ["D.SEED", "D.INSERT"] ∧
    ∃ t, exec (.dBound .dec 256) (small .unbounded .run dict1 true 65) = .next t := ⟨rfl, by decide, _, rfl⟩

theorem witness_ResetInvariant : (Config.mk (.finite 257)).wf = true := by decide
/-- A step that inserts, from a state of the invariant. -/
theorem witness_StepKeepsTheInvariant : ((small .unbounded .run dict1 true 65).withInput [.command 0x200000042]).Inv ∧
    ∃ t, step ((small .unbounded .run dict1 true 65).withInput [.command 0x200000042]) = .next t ∧
      t.enc.dict.nextCode = 258 :=
  ⟨⟨run_inv.config, run_inv.enc, run_inv.dec, rfl⟩, _, rfl, rfl⟩
theorem witness_HostEvents : (small .unbounded .run dict1 true 65).Inv ∧
    ((small .unbounded .run dict1 true 65).config.dictCap = .unbounded →
      (small .unbounded .run dict1 true 65).enc.dict.nextCode.toNat < 2 ^ 32 ∧
      (small .unbounded .run dict1 true 65).dec.dict.nextCode.toNat < 2 ^ 32) := ⟨run_inv, fun _ => by decide⟩
theorem witness_StepKeepsTheCounts : ((small .unbounded .run dict1 true 65).withInput [.command 0x200000042]).Inv ∧
    ((small .unbounded .run dict1 true 65).withInput [.command 0x200000042]).enc.Count ∧
    ((small .unbounded .run dict1 true 65).withInput [.command 0x200000042]).dec.Count ∧
    ∃ t, step ((small .unbounded .run dict1 true 65).withInput [.command 0x200000042]) = .next t :=
  ⟨⟨run_inv.config, run_inv.enc, run_inv.dec, rfl⟩, (small_count .unbounded).1, (small_count .unbounded).2, _, rfl⟩
theorem witness_NextCodeGrows : ((small .unbounded .run dict1 true 65).withInput [.command 0x600000100]).Inv ∧
    ∃ t, step ((small .unbounded .run dict1 true 65).withInput [.command 0x600000100]) = .next t ∧
      (t.dictOf .dec).nextCode = 258 := ⟨⟨run_inv.config, run_inv.enc, run_inv.dec, rfl⟩, _, rfl, rfl⟩
/-- Two states that differ in both hold registers while their valid bits are 0. -/
theorem witness_UnspecifiedValues : (small .unbounded .done dict1 false 65).Inv ∧ (small .unbounded .done dict1 false 66).Inv ∧
    (small .unbounded .done dict1 false 65).Agree (small .unbounded .done dict1 false 66) ∧
    (∃ t, step (small .unbounded .done dict1 false 65) = .next t) ∧
    small .unbounded .done dict1 false 65 ≠ small .unbounded .done dict1 false 66 := by
  refine ⟨small_inv rfl (by simp) (by decide), small_inv rfl (by simp) (by decide), ?_, ⟨_, rfl⟩, by decide⟩
  exact ⟨rfl, ⟨rfl, rfl, by simp [small], rfl, ⟨rfl, fun _ _ => rfl⟩⟩,
    ⟨rfl, rfl, by simp [small], rfl, ⟨rfl, fun _ _ => rfl⟩⟩, rfl, rfl, rfl, rfl⟩
theorem witness_Prefixes : dict1.Inv .unbounded ∧ dict1.encMap ([65] ++ [65]) 256 ∧ [(65 : Symbol)] ≠ [] :=
  ⟨dict1_inv (by decide), ⟨by decide, by decide⟩, by decide⟩

theorem witness_Commute : commandUnit (.encSym 66) = some .enc ∧ commandUnit (.decCode 66) = some .dec ∧
    ∃ s' t, exec (.encSym 66) (small .unbounded .run dict1 true 65) = .next s' ∧ exec (.decCode 66) s' = .next t :=
  ⟨rfl, rfl, _, _, rfl, rfl⟩
/-- An encoder word, a refused word and a decoder word. -/
theorem witness_UnitsRunAsIfAlone : (small .unbounded .run dict1 true 65).request = none ∧
    (∀ e ∈ [HostEvent.command 0x200000042, .command 0, .command 0x600000042], ∀ ws, e ≠ .reset ws) ∧
    ∃ t, core.run 3 ((small .unbounded .run dict1 true 65).withInput
      [.command 0x200000042, .command 0, .command 0x600000042]) = .next t :=
  ⟨rfl, by simp, _, rfl⟩
theorem witness_EncodeCall : ((small (.finite 257) .done dict1 false 65).withInput (encodeEvents [66] ++ [])).Inv ∧
    ((small (.finite 257) .done dict1 false 65).withInput (encodeEvents [66] ++ [])).enc.ctl.state ≠ .run ∧
    ((small (.finite 257) .done dict1 false 65).withInput (encodeEvents [66] ++ [])).input = encodeEvents [66] ++ [] ∧
    (DictCap.finite 257 = .unbounded → 255 + [(66 : Symbol)].length ≤ 2 ^ 32) := by
  have h : (small (.finite 257) .done dict1 false 65).Inv := small_inv rfl (by simp) (by decide)
  exact ⟨⟨h.config, h.enc, h.dec, rfl⟩, by decide, rfl, by simp⟩
/-- Both sides of the capacity: with `DICT_CAP` = 257 (the least), two codes fit and three do not. -/
theorem witness_EncodeCall_clauses : 255 + (encodeBytes [65, 66]).length ≤ (DictCap.finite 257).limit ∧
    (DictCap.finite 257).limit < 255 + (encodeBytes [65, 66, 67]).length := by decide +kernel
theorem witness_DecodeCall : ((small (.finite 257) .done dict1 false 65).withInput (decodeEvents [65, 66] ++ [])).Inv ∧
    ((small (.finite 257) .done dict1 false 65).withInput (decodeEvents [65, 66] ++ [])).dec.ctl.state ≠ .run ∧
    ((small (.finite 257) .done dict1 false 65).withInput (decodeEvents [65, 66] ++ [])).input =
      decodeEvents [65, 66] ++ [] := by
  have h : (small (.finite 257) .done dict1 false 65).Inv := small_inv rfl (by simp) (by decide)
  exact ⟨⟨h.config, h.enc, h.dec, rfl⟩, by decide, rfl⟩
/-- The three clauses: the greatest call that fits, a stream that fails (K8), the least call that does not fit. -/
theorem witness_DecodeCall_clauses : decodeCodes [65, 66] = some [65, 66] ∧ 255 + 2 ≤ (DictCap.finite 257).limit ∧
    decodeCodes [255, 257] = none ∧ decodeCodes [65, 66, 67] = some [65, 66, 67] ∧
    (DictCap.finite 257).limit < 255 + 3 := by decide +kernel
theorem witness_RoundTrip : ((small .unbounded .done dict1 false 65).withInput (encodeEvents [66] ++ [])).Inv ∧
    (small .unbounded .done dict1 false 65).enc.ctl.state ≠ .run ∧
    (small .unbounded .done dict1 false 65).dec.ctl.state ≠ .run ∧
    ∃ t : State, core.run 3 ((small .unbounded .done dict1 false 65).withInput (encodeEvents [66] ++ [])) = .next t ∧
      t.enc.ctl.state = .done := by
  have h : (small .unbounded .done dict1 false 65).Inv := small_inv rfl (by simp) (by decide)
  exact ⟨⟨h.config, h.enc, h.dec, rfl⟩, by decide, by decide, _, rfl, rfl⟩
theorem witness_Pack : [(84 : Code), 256][1]? = some 256 := by decide
theorem witness_Unpack : 4 ∣ [(0 : Byte), 0, 1, 0].length ∧ ¬ 4 ∣ [(0 : Byte), 0, 1].length := by decide
/-- A buffer that unpacks and decodes, one that unpacks and does not decode, and an input with a compressed form. -/
theorem witness_Compress : 255 + [(84 : Symbol)].length ≤ 2 ^ 32 ∧ compress [84] = some [0x00, 0x00, 0x00, 0x54] ∧
    unpack [0x00, 0x00, 0x00, 0x54] = .ok [84] ∧ decodeCodes [84] = some [84] ∧
    unpack [0, 0, 1, 0] = .ok [256] ∧ decodeCodes [256] = none :=
  ⟨by decide, test_compress, rfl, rfl, rfl, rfl⟩

end Sys2Proof.Tests
end

/-! PROOFS. What an instruction leaves unchanged and what it does to the control registers; the statements on reset, the
configuration, the sticky bits and the registers a command does not write. -/

namespace Sys2Proof.Machine

/-! ## What an instruction leaves unchanged -/

/-- A command of `ENC` that goes through replaces the encoder unit and nothing else (R125). -/
theorem exec_encCommand_frame {i : Instr} {s t : State} (hu : commandUnit i = some .enc) (h : exec i s = .next t) :
    t = s.withEnc t.enc := by
  have acts : ∃ f, exec i s = s.onEnc f := by
    rcases encCommand_cases hu with rfl | ⟨c, rfl⟩ | rfl
    · exact ⟨_, exec_encStart s⟩
    · exact ⟨_, exec_encSym c s⟩
    · exact ⟨_, exec_encEnd s⟩
  obtain ⟨f, hf⟩ := acts
  obtain ⟨e, -, rfl⟩ := onEnc_eq_next.1 (hf ▸ h)
  rfl

/-- A command of `DEC` that goes through replaces the decoder unit and nothing else (R146). -/
theorem exec_decCommand_frame {i : Instr} {s t : State} (hu : commandUnit i = some .dec) (h : exec i s = .next t) :
    t = s.withDec t.dec := by
  have acts : ∃ f, exec i s = s.onDec f := by
    rcases decCommand_cases hu with rfl | ⟨k, rfl⟩ | rfl
    · exact ⟨_, exec_decStart s⟩
    · exact ⟨_, exec_decCode k s⟩
    · exact ⟨_, exec_decEnd s⟩
  obtain ⟨f, hf⟩ := acts
  obtain ⟨d, -, rfl⟩ := onDec_eq_next.1 (hf ▸ h)
  rfl

/-- No instruction writes the configuration, `cmd_illegal`, or what stands on the ports. -/
theorem exec_frame {i : Instr} {s t : State} (h : exec i s = .next t) :
    t.config = s.config ∧ t.cmdIllegal = s.cmdIllegal ∧ t.input = s.input ∧ t.request = s.request := by
  cases hu : commandUnit i with
  | none =>
    rcases exec_request_cases hu h with ⟨u, -, rfl⟩ | ⟨u, p, c, r, d, -, -, rfl⟩ | ⟨r, -, rfl⟩ <;> simp
  | some u =>
    cases u with
    | enc => rw [exec_encCommand_frame hu h]; simp
    | dec => rw [exec_decCommand_frame hu h]; simp

/-! ## What an instruction does to the control registers -/

/-- The four things that can happen to a unit's control registers between two moments: nothing, fault entry (R171), the
beginning of a call (R120, R140, R174), the end of one (R122, R142). -/
inductive Control.Moves : Control → Control → Prop where
  | keep (c : Control) : Moves c c
  | raise (c : Control) (f : Cause) (v : Arg) (hs : c.state ≠ .fault) (hf : f ≠ .none) : Moves c (c.raise f v)
  | start (c : Control) : Moves c c.start
  | finish (c : Control) (hs : c.state = .run) : Moves c c.finish

/-- Outside `RUN` and `FAULT`, a command that is not admitted takes the fault `PROTOCOL` (R123, R143, R167). -/
theorem Control.Moves.protocol {c : Control} (v : Arg) (h : c.state = .idle ∨ c.state = .done) :
    c.Moves (c.raise .protocol v) :=
  .raise c _ v (by rcases h with h | h <;> simp [h]) (by simp)

/-- A command of `ENC` moves the encoder's control registers (R164, R132). -/
theorem exec_encCommand_moves {i : Instr} {s t : State} (hu : commandUnit i = some .enc) (h : exec i s = .next t) :
    s.enc.ctl.Moves t.enc.ctl := by
  rcases encCommand_cases hu with rfl | ⟨c, rfl⟩ | rfl
  · rcases execEncStart_cases h with ⟨-, rfl⟩ | ⟨hs, rfl⟩
    · exact .start _
    · exact .raise _ _ _ (by simp [hs]) (by simp)
  · rcases execEncSym_cases h with ⟨hs, e', he, rfl⟩ | ⟨hs, rfl⟩ | ⟨-, rfl⟩
    · rcases symRule_control he with hc | ⟨rfl, -⟩
      · rw [State.withEnc_enc, hc]; exact .keep _
      · exact .raise _ _ _ (by simp [hs]) (by simp)
    · exact .protocol _ hs
    · exact .keep _
  · rcases execEncEnd_cases h with ⟨hs, rfl⟩ | ⟨hs, rfl⟩ | ⟨-, rfl⟩
    · exact .finish _ hs
    · exact .protocol _ hs
    · exact .keep _

/-- A command of `DEC` moves the decoder's control registers (R164, R152). -/
theorem exec_decCommand_moves {i : Instr} {s t : State} (hu : commandUnit i = some .dec) (h : exec i s = .next t) :
    s.dec.ctl.Moves t.dec.ctl := by
  rcases decCommand_cases hu with rfl | ⟨k, rfl⟩ | rfl
  · rcases execDecStart_cases h with ⟨-, rfl⟩ | ⟨hs, rfl⟩
    · exact .start _
    · exact .raise _ _ _ (by simp [hs]) (by simp)
  · rcases execDecCode_cases h with ⟨hs, d', hd, rfl⟩ | ⟨hs, rfl⟩ | ⟨-, rfl⟩
    · rcases codeRule_control hd with ⟨hc, -⟩ | ⟨rfl, -⟩ | ⟨rfl, -⟩
      · rw [State.withDec_dec, hc]; exact .keep _
      · exact .raise _ _ _ (by simp [hs]) (by simp)
      · exact .raise _ _ _ (by simp [hs]) (by simp)
    · exact .protocol _ hs
    · exact .keep _
  · rcases execDecEnd_cases h with ⟨hs, rfl⟩ | ⟨hs, rfl⟩ | ⟨-, rfl⟩
    · exact .finish _ hs
    · exact .protocol _ hs
    · exact .keep _

/-- Every instruction moves the control registers of both units; a request keeps them. -/
theorem exec_moves {i : Instr} {s t : State} (h : exec i s = .next t) :
    s.enc.ctl.Moves t.enc.ctl ∧ s.dec.ctl.Moves t.dec.ctl := by
  cases hu : commandUnit i with
  | none =>
    have kept : t.enc.ctl = s.enc.ctl ∧ t.dec.ctl = s.dec.ctl := by
      rcases exec_request_cases hu h with ⟨u, -, rfl⟩ | ⟨u, p, c, r, d, -, -, rfl⟩ | ⟨r, -, rfl⟩ <;> simp
    rw [kept.1, kept.2]
    exact ⟨.keep _, .keep _⟩
  | some u =>
    cases u with
    | enc =>
      refine ⟨exec_encCommand_moves hu h, ?_⟩
      rw [exec_encCommand_frame hu h]
      exact .keep _
    | dec =>
      refine ⟨?_, exec_decCommand_moves hu h⟩
      rw [exec_decCommand_frame hu h]
      exact .keep _

/-- A sticky bit records exactly the faults taken (R35, R171, R174). -/
theorem Control.Moves.sticky_iff {c c' : Control} (h : c.Moves c') :
    c'.sticky = true ↔ c.sticky = true ∨ ∃ f, takesFault c c' f := by
  cases h with
  | keep => simp only [takesFault]; tauto
  | raise f v hs => simp [takesFault, hs]
  | start => simp [takesFault]
  | finish => simp [takesFault]

/-- The control registers keep R43 item 5 whatever happens to them. -/
theorem Control.Moves.keeps_inv {c c' : Control} (h : c.Moves c') (hc : c.Inv) : c'.Inv := by
  cases h with
  | keep => exact hc
  | raise f v _ hf => exact ⟨by simp [hf], by simp [hf], by simp⟩
  | start => exact ⟨by simp, by simp, by simp⟩
  | finish hs =>
    have hn : c.cause = .none := by
      by_contra hne
      simp [hc.cause.1 hne] at hs
    exact ⟨by simp [hn], by simpa using hc.info, by simp⟩

theorem Control.reset_inv : Control.reset.Inv := by constructor <;> simp [Control.reset]

/-- The block is idle exactly when nothing stands at its inputs (R191). -/
theorem fetch_idle_iff (s : State) : fetch s = .idle ↔ s.request = none ∧ s.input = [] := by
  rcases fetch_cases s with ⟨hf, hq, hi⟩ | ⟨ws, rest, hf, hq, hi⟩ | ⟨w, rest, i, hf, hq, hi, hd⟩ |
    ⟨w, rest, r, hf, hq, hi, hd⟩ | ⟨u, w, i, hf, hq, hd⟩ | ⟨u, w, r, hf, hq, hd⟩ <;> simp [*]

/-- The block refuses a command word exactly when `fetch` says so (R86). -/
theorem fetch_illegal_iff (s : State) : (∃ s', fetch s = .illegal s') ↔
    s.request = none ∧ ∃ w rest r, s.input = .command w :: rest ∧ decode (.command w) = .error r := by
  rcases fetch_cases s with ⟨hf, hq, hi⟩ | ⟨ws, rest, hf, hq, hi⟩ | ⟨w, rest, i, hf, hq, hi, hd⟩ |
    ⟨w, rest, r, hf, hq, hi, hd⟩ | ⟨u, w, i, hf, hq, hd⟩ | ⟨u, w, r, hf, hq, hd⟩ <;> simp [*]

/-! ## The obligations on reset, the configuration and the sticky bits -/


/-- Settles O1: the fields of the reset state are literals. -/
theorem resetStateHoldsTheStatedValues : Obligations.ResetStateHoldsTheStatedValues := by
  rintro s (rfl | ⟨c, rfl⟩)
  all_goals
    simp [State.reset, State.resetWith, Encoder.reset, Decoder.reset, Control.reset, Dict.reset, SeqState.code,
      Cause.code]

/-- Settles O2: the status outputs of the reset state are literals, whatever the configuration. -/
theorem statusOutputsAfterReset : Obligations.StatusOutputsAfterReset :=
  fun _ => rfl

/-- Settles O5: no instruction writes the configuration, and neither do reset and a refused word. -/
theorem configurationIsFixed : Obligations.ConfigurationIsFixed := by
  intro s t h
  rcases step_cases h with ⟨-, rfl⟩ | ⟨ws, rest, -, -, -, rfl⟩ | ⟨w, rest, i, -, -, -, -, h⟩ |
    ⟨w, rest, r, -, -, -, -, rfl⟩ | ⟨u, w, i, -, -, -, h⟩
  · rfl
  · rfl
  · simpa using (exec_frame h).1
  · rfl
  · simpa using (exec_frame h).1

/-- Settles O4, by what an instruction does to the control registers: a sticky bit is set by fault entry alone, and
`cmd_illegal` by a refused word alone. -/
theorem stickyBitsRecordUntilReset : Obligations.StickyBitsRecordUntilReset := by
  intro s t h hreset
  rw [← fetch_illegal_iff]
  rcases step_cases h with ⟨hf, rfl⟩ | ⟨ws, rest, -, hq, hi, -⟩ | ⟨w, rest, i, hf, -, -, -, h⟩ |
    ⟨w, rest, r, hf, -, -, -, rfl⟩ | ⟨u, w, i, hf, -, -, h⟩
  · exact ⟨(Control.Moves.keep _).sticky_iff, (Control.Moves.keep _).sticky_iff, by simp [hf]⟩
  · exact absurd ⟨hq, ws, rest, hi⟩ hreset
  · obtain ⟨henc, hdec⟩ := exec_moves h
    exact ⟨henc.sticky_iff, hdec.sticky_iff, by simp [hf, (exec_frame h).2.1]⟩
  · exact ⟨(Control.Moves.keep _).sticky_iff, (Control.Moves.keep _).sticky_iff, by simp [hf]⟩
  · obtain ⟨henc, hdec⟩ := exec_moves h
    exact ⟨henc.sticky_iff, hdec.sticky_iff, by simp [hf, (exec_frame h).2.1]⟩

/-- Settles O33: each clause is read off what its command can do when it goes through. -/
theorem registersACommandDoesNotWrite : Obligations.RegistersACommandDoesNotWrite := by
  intro s t
  refine ⟨fun h => ?_, fun c h hn => ?_, fun h => ?_, fun h => ?_, fun k h hn => ?_, fun h => ?_⟩
  · rcases execEncStart_cases h with ⟨-, rfl⟩ | ⟨-, rfl⟩ <;> simp
  · rcases execEncSym_cases h with ⟨-, e', he, rfl⟩ | ⟨-, rfl⟩ | ⟨-, rfl⟩
    · rcases symRule_control he with hc | ⟨rfl, -⟩
      · exact hc
      · simp at hn
    · simp at hn
    · rfl
  · rcases execEncEnd_cases h with ⟨-, rfl⟩ | ⟨-, rfl⟩ | ⟨-, rfl⟩ <;> simp
  · rcases execDecStart_cases h with ⟨-, rfl⟩ | ⟨-, rfl⟩ <;> simp
  · rcases execDecCode_cases h with ⟨-, d', hd, rfl⟩ | ⟨-, rfl⟩ | ⟨-, rfl⟩
    · rcases codeRule_control hd with ⟨hc, -⟩ | ⟨rfl, -⟩ | ⟨rfl, -⟩
      · exact hc
      · simp at hn
      · simp at hn
    · simp at hn
    · rfl
  · rcases execDecEnd_cases h with ⟨-, rfl⟩ | ⟨-, rfl⟩ | ⟨-, rfl⟩ <;> simp

end Sys2Proof.Machine

/-! PROOFS. The invariant of R43: the reset state satisfies it and every step keeps it. -/

namespace Sys2Proof.Machine

/-! ## The invariant of a dictionary -/

/-- No String is bound twice in a dictionary that binds the seeds alone (R29). -/
theorem unique_of_seeds {d : Dict} (h : d.nextCode = 256) : d.Unique := by
  intro j k hj hk hs
  have lt_256 : ∀ {i : Code}, d.bound i = true → i.toNat < 256 := fun hi => by
    simpa [h] using (bound_iff d _).1 hi
  rw [str_seed hj (lt_256 hj), str_seed hk (lt_256 hk)] at hs
  have hsym : lowSym j = lowSym k := by simpa using hs
  have hnum : j.toNat % 256 = k.toNat % 256 := by
    simpa [lowSym, BitVec.toNat_setWidth] using congrArg BitVec.toNat hsym
  apply BitVec.eq_of_toNat_eq
  rwa [Nat.mod_eq_of_lt (lt_256 hj), Nat.mod_eq_of_lt (lt_256 hk)] at hnum

/-- Seeding a dictionary of the invariant keeps it (R104). -/
theorem Dict.Inv.seed {cap : DictCap} {d : Dict} (hcap : cap.wf = true) (hd : d.Inv cap) : d.seed.Inv cap :=
  seed_inv hcap hd.canonical hd.cells

theorem Dict.reset_inv {cap : DictCap} (hcap : cap.wf = true) : Dict.reset.Inv cap :=
  seed_inv (d := Dict.reset) hcap Memory.empty_wf (by simp [Dict.reset])

/-- A seed is bound in every dictionary of the invariant. -/
theorem Dict.Inv.bound_zext32 {cap : DictCap} {d : Dict} (hd : d.Inv cap) (c : Symbol) : d.bound (zext32 c) = true :=
  (encMap_symbol hd c).1

/-- Where an insertion goes through, a code is left: `next_code` does not wrap (R108). -/
theorem Dict.Inv.lt_limit {cap : DictCap} {d : Dict} (hd : d.Inv cap) (hf : d.isFull cap = false)
    (hc : cellExists cap (lowCode d.nextCode).toNat = true) : d.nextCode.toNat < cap.limit := by
  rcases room_of_not_full hd hf with hlt | ⟨-, hn⟩
  · exact hlt
  · simp [cellExists_iff, lowCode_toNat, hn] at hc

/-- Binding a pair that no assigned cell holds binds no String twice (R109). -/
theorem insert_keeps_unique {cap : DictCap} {d : Dict} {p : Code} {c : Symbol} (hd : d.Inv cap) (hu : d.Unique)
    (hwf : cap.wf = true) (hb : d.bound p = true) (hlt : d.nextCode.toNat < cap.limit)
    (hmiss : ∀ j, 256 ≤ j → j < d.nextCode.toNat → d.mem.read j ≠ some ⟨p, c⟩) :
    Dict.Unique { mem := d.mem.write (lowCode d.nextCode).toNat ⟨p, c⟩, nextCode := d.nextCode + 1 } := by
  obtain ⟨-, hn, hlow, hold, ⟨v, hv, hnew⟩, -, -⟩ := insert_str (c := c) hd hwf hb hlt
  -- a code bound after the insertion is one bound before it, or the new one
  have old_or_new : ∀ {i : Code}, Dict.bound _ i = true → d.bound i = true ∨ i = lowCode d.nextCode := fun {i} hi => by
    rw [bound_iff, hn] at hi
    by_cases hi' : i.toNat < d.nextCode.toNat
    · exact .inl ((bound_iff d i).2 hi')
    · exact .inr (BitVec.eq_of_toNat_eq (by omega))
  -- the new String was bound to no code: that code's cell would hold the pair
  have fresh : ∀ {i : Code}, d.bound i = true → d.str i ≠ some (v.snoc c) := fun {i} hi hs => by
    have hmap : d.encMap (v.toList ++ [c]) i := ⟨hi, decMap_eq_some.2 ⟨_, hs, Str.toList_snoc v c⟩⟩
    obtain ⟨h256, q, -, hread, hq⟩ := encMap_snoc hd v.toList_ne_nil hmap
    obtain rfl : q = p := encMap_inj hu hq ⟨hb, decMap_eq_some.2 ⟨v, hv, rfl⟩⟩
    exact hmiss i.toNat h256 ((bound_iff d i).1 hi) hread
  intro j k hj hk hs
  rcases old_or_new hj with hj | rfl <;> rcases old_or_new hk with hk | rfl
  · rw [hold j hj, hold k hk] at hs
    exact hu j k hj hk hs
  · rw [hold j hj, hnew] at hs
    exact absurd hs (fresh hj)
  · rw [hold k hk, hnew] at hs
    exact absurd hs.symm (fresh hk)
  · rfl

/-! ## The invariant of the encoder -/

/-- An encoder that holds no match satisfies R43 when its dictionary and its control registers do. -/
theorem Encoder.inv_of_noMatch {cap : DictCap} {e : Encoder} (hd : e.dict.Inv cap) (hu : e.dict.Unique)
    (hc : e.ctl.Inv) (hv : e.matchValid = false) : e.Inv cap :=
  ⟨hd, hu, by simp [hv], hc, by simp [hv]⟩

/-- Fault entry keeps the encoder's invariant: the hold register may stay valid (R171, R43 item 6). -/
theorem Encoder.Inv.raise {cap : DictCap} {e : Encoder} (he : e.Inv cap) {f : Cause} (hf : f ≠ .none) (v : Arg) :
    (e.raise f v).Inv cap :=
  ⟨he.dict, he.unique, he.matchBound, ⟨by simp [hf], by simp [hf], by simp⟩, fun _ => .inr rfl⟩

/-- The `Miss` branch of `ENC.SYM` keeps the encoder's invariant when the candidate is indeed in no cell. -/
theorem Encoder.Inv.missRule {cap : DictCap} {e e' : Encoder} {c : Symbol} (hcap : cap.wf = true) (he : e.Inv cap)
    (hrun : e.ctl.state = .run)
    (hmiss : ∀ j, 256 ≤ j → j < e.dict.nextCode.toNat → e.dict.mem.read j ≠ some ⟨e.matchCode, c⟩)
    (h : e.missRule cap c = .next e') : e'.Inv cap := by
  rcases Encoder.missRule_cases h with ⟨-, rfl⟩ | ⟨hf, hb, hcell, rfl⟩
  · exact he.raise (by simp) _
  · have hlt := he.dict.lt_limit hf hcell
    have hd := insert_keeps_inv c he.dict hcap hb hlt
    exact ⟨hd, insert_keeps_unique he.dict he.unique hcap hb hlt hmiss, fun _ => hd.bound_zext32 c, he.ctl,
      fun _ => .inl hrun⟩

/-- `ENC.SYM` in `RUN` keeps the encoder's invariant (R121). -/
theorem Encoder.Inv.symRule {cap : DictCap} {e e' : Encoder} {c : Symbol} (hcap : cap.wf = true) (he : e.Inv cap)
    (hrun : e.ctl.state = .run) (h : e.symRule cap c = .next e') : e'.Inv cap := by
  rcases Encoder.symRule_cases h with ⟨-, rfl⟩ | ⟨hv, k, hl, rfl⟩ | ⟨hv, hl, h⟩
  · exact ⟨he.dict, he.unique, fun _ => he.dict.bound_zext32 c, he.ctl, fun _ => .inl hrun⟩
  · rcases lookup_cases c he.dict (he.matchBound hv) with ⟨j, -, hj, -, -, hl'⟩ | ⟨-, hl'⟩
    · have hk : k = BitVec.ofNat 32 j := by simpa [hl] using hl'
      have hj32 : j < 2 ^ 32 := lt_of_lt_of_le hj (he.dict.high.trans (limit_le hcap))
      have hkb : e.dict.bound k = true := by
        rwa [bound_iff, hk, BitVec.toNat_ofNat, Nat.mod_eq_of_lt hj32]
      exact ⟨he.dict, he.unique, fun _ => hkb, he.ctl, he.holding⟩
    · simp [hl] at hl'
  · rcases lookup_cases c he.dict (he.matchBound hv) with ⟨j, -, -, -, -, hl'⟩ | ⟨hmiss, -⟩
    · simp [hl] at hl'
    · exact he.missRule hcap hrun hmiss h

/-- Every command of `ENC` keeps the encoder's invariant. -/
theorem exec_encCommand_keeps_inv {i : Instr} {s t : State} (hcap : s.config.dictCap.wf = true)
    (he : s.enc.Inv s.config.dictCap) (hu : commandUnit i = some .enc) (h : exec i s = .next t) :
    t.enc.Inv s.config.dictCap := by
  have hctl := (exec_encCommand_moves hu h).keeps_inv he.ctl
  rcases encCommand_cases hu with rfl | ⟨c, rfl⟩ | rfl
  · rcases execEncStart_cases h with ⟨-, rfl⟩ | ⟨-, rfl⟩
    · exact Encoder.inv_of_noMatch (he.dict.seed hcap) (unique_of_seeds rfl) hctl rfl
    · exact he.raise (by simp) _
  · rcases execEncSym_cases h with ⟨hrun, e', hr, rfl⟩ | ⟨-, rfl⟩ | ⟨-, rfl⟩
    · exact he.symRule hcap hrun hr
    · exact he.raise (by simp) _
    · exact he
  · rcases execEncEnd_cases h with ⟨-, rfl⟩ | ⟨-, rfl⟩ | ⟨-, rfl⟩
    · exact Encoder.inv_of_noMatch he.dict he.unique hctl rfl
    · exact he.raise (by simp) _
    · exact he

/-- Reset brings the encoder to its invariant (R190). -/
theorem Encoder.Inv.afterReset {cap : DictCap} {e : Encoder} (hcap : cap.wf = true) (hd : e.dict.Inv cap) :
    e.afterReset.Inv cap :=
  Encoder.inv_of_noMatch (hd.seed hcap) (unique_of_seeds rfl) Control.reset_inv rfl

/-! ## The invariant of the decoder -/

/-- A decoder that holds no previous code satisfies R43 when its dictionary and its control registers do. -/
theorem Decoder.inv_of_noPrev {cap : DictCap} {d : Decoder} (hd : d.dict.Inv cap) (hc : d.ctl.Inv)
    (hv : d.prevValid = false) : d.Inv cap :=
  ⟨hd, by simp [hv], hc, by simp [hv]⟩

/-- Fault entry keeps the decoder's invariant (R171). -/
theorem Decoder.Inv.raise {cap : DictCap} {d : Decoder} (hd : d.Inv cap) {f : Cause} (hf : f ≠ .none) (v : Arg) :
    (d.raise f v).Inv cap :=
  ⟨hd.dict, hd.prevBound, ⟨by simp [hf], by simp [hf], by simp⟩, fun _ => .inr rfl⟩

/-- Emitting an acceptable code keeps the decoder's invariant: a code up to `next_code` is bound after the insertion. -/
theorem Decoder.Inv.emitRule {cap : DictCap} {d d' : Decoder} {k : Code} {w : Str} (hcap : cap.wf = true)
    (hd : d.Inv cap) (hrun : d.ctl.state = .run) (hk : k.toNat ≤ d.dict.nextCode.toNat)
    (h : d.emitRule cap k w = .next d') : d'.Inv cap := by
  rcases Decoder.emitRule_cases h with ⟨-, rfl⟩ | ⟨hf, hb, hcell, rfl⟩
  · exact hd.raise (by simp) _
  · have hlt := hd.dict.lt_limit hf hcell
    have hn := nextCode_succ_toNat (lt_of_lt_of_le hlt (limit_le hcap))
    have hkb : k.toNat < (d.dict.nextCode + 1).toNat := by omega
    exact ⟨insert_keeps_inv _ hd.dict hcap hb hlt, fun _ => (bound_iff _ k).2 hkb, hd.ctl, fun _ => .inl hrun⟩

/-- `DEC.CODE` in `RUN` keeps the decoder's invariant (R141). -/
theorem Decoder.Inv.codeRule {cap : DictCap} {d d' : Decoder} {k : Code} (hcap : cap.wf = true) (hd : d.Inv cap)
    (hrun : d.ctl.state = .run) (h : d.codeRule cap k = .next d') : d'.Inv cap := by
  rcases Decoder.codeRule_cases h with ⟨-, h⟩ | ⟨-, -, rfl⟩ | ⟨-, w, hw, h⟩
  · rcases Decoder.firstCodeRule_cases h with ⟨-, rfl⟩ | ⟨hb, w, -, rfl⟩
    · exact hd.raise (by simp) _
    · exact ⟨hd.dict, fun _ => hb, hd.ctl, fun _ => .inl hrun⟩
  · exact hd.raise (by simp) _
  · have hk : k.toNat ≤ d.dict.nextCode.toNat := by
      rcases Decoder.entryOf_cases hw with ⟨hb, -⟩ | ⟨-, hk, -⟩ | ⟨-, -, hn⟩
      · exact ((bound_iff _ k).1 hb).le
      · exact hk.le
      · cases hn
    exact hd.emitRule hcap hrun hk h

/-- Every command of `DEC` keeps the decoder's invariant. -/
theorem exec_decCommand_keeps_inv {i : Instr} {s t : State} (hcap : s.config.dictCap.wf = true)
    (hd : s.dec.Inv s.config.dictCap) (hu : commandUnit i = some .dec) (h : exec i s = .next t) :
    t.dec.Inv s.config.dictCap := by
  have hctl := (exec_decCommand_moves hu h).keeps_inv hd.ctl
  rcases decCommand_cases hu with rfl | ⟨k, rfl⟩ | rfl
  · rcases execDecStart_cases h with ⟨-, rfl⟩ | ⟨-, rfl⟩
    · exact Decoder.inv_of_noPrev (hd.dict.seed hcap) hctl rfl
    · exact hd.raise (by simp) _
  · rcases execDecCode_cases h with ⟨hrun, d', hr, rfl⟩ | ⟨-, rfl⟩ | ⟨-, rfl⟩
    · exact hd.codeRule hcap hrun hr
    · exact hd.raise (by simp) _
    · exact hd
  · rcases execDecEnd_cases h with ⟨-, rfl⟩ | ⟨-, rfl⟩ | ⟨-, rfl⟩
    · exact Decoder.inv_of_noPrev hd.dict hctl rfl
    · exact hd.raise (by simp) _
    · exact hd

/-- Reset brings the decoder to its invariant (R190). -/
theorem Decoder.Inv.afterReset {cap : DictCap} {d : Decoder} (hcap : cap.wf = true) (hd : d.dict.Inv cap) :
    d.afterReset.Inv cap :=
  Decoder.inv_of_noPrev (hd.seed hcap) Control.reset_inv rfl

/-! ## The invariant of the block -/

/-- Taking the host's next event keeps the invariant, which does not speak of the input. -/
theorem State.Inv.withInput {s : State} (hs : s.Inv) (l : List HostEvent) : (s.withInput l).Inv :=
  ⟨hs.config, hs.enc, hs.dec, hs.port⟩

/-- A command keeps the invariant of the block: its unit's part by its rule, the other's because it is untouched. -/
theorem exec_command_keeps_inv {i : Instr} {s t : State} (hs : s.Inv) (hu : commandUnit i ≠ none)
    (h : exec i s = .next t) : t.Inv := by
  obtain ⟨u, hu⟩ := Option.ne_none_iff_exists'.1 hu
  cases u with
  | enc =>
    have he := exec_encCommand_keeps_inv hs.config hs.enc hu h
    rw [exec_encCommand_frame hu h]
    exact ⟨hs.config, he, hs.dec, hs.port⟩
  | dec =>
    have hd := exec_decCommand_keeps_inv hs.config hs.dec hu h
    rw [exec_decCommand_frame hu h]
    exact ⟨hs.config, hs.enc, hd, hs.port⟩

/-- Settles O45: no request stands between commands, so that a step is idle, a reset, a refused word or a command. -/
theorem stepKeepsTheInvariant : Obligations.StepKeepsTheInvariant := by
  intro s t hs h
  rcases step_cases h with ⟨-, rfl⟩ | ⟨ws, rest, -, -, -, rfl⟩ | ⟨w, rest, i, -, -, -, hd, h⟩ |
    ⟨w, rest, r, -, -, -, -, rfl⟩ | ⟨u, w, i, -, hq, -, -⟩
  · exact hs
  · exact ⟨hs.config, .afterReset hs.config hs.enc.dict, .afterReset hs.config hs.dec.dict, rfl⟩
  · exact exec_command_keeps_inv (hs.withInput rest) (decodeCommand_unit hd) h
  · exact ⟨hs.config, hs.enc, hs.dec, hs.port⟩
  · simp [hs.port] at hq

/-- Settles O44: the power-on units are reset units over an empty, seeded dictionary. -/
theorem resetStateSatisfiesTheInvariant : Obligations.ResetStateSatisfiesTheInvariant := by
  have holds : ∀ c : Config, c.wf = true → (State.resetWith c).Inv := fun c hc =>
    ⟨hc, Encoder.Inv.afterReset (e := Encoder.reset) hc (Dict.reset_inv hc),
      Decoder.Inv.afterReset (d := Decoder.reset) hc (Dict.reset_inv hc), rfl⟩
  exact ⟨holds _ rfl, holds⟩

end Sys2Proof.Machine

/-! PROOFS. Unassigned cells and invalid hold registers are never read (R43 item 4): states that differ in them alone step
to states that differ in them alone. -/

namespace Sys2Proof.Machine

/-! ## Outcomes that agree -/

/-- `y` goes through where `x` does, with a value the relation gives. -/
def Follows {α : Type} (R : α → α → Prop) (x y : Result α) : Prop :=
  ∀ a, x = .next a → ∃ b, y = .next b ∧ R a b

theorem Follows.next {α : Type} {R : α → α → Prop} {a b : α} (h : R a b) : Follows R (.next a) (.next b) := by
  rintro _ ⟨⟩
  exact ⟨b, rfl, h⟩

/-- Two sequences agree when their first parts do and the rest does on agreeing values. -/
theorem Follows.andThen {α β : Type} {R : α → α → Prop} {S : β → β → Prop} {x y : Result α} {f g : α → Result β}
    (h : Follows R x y) (hfg : ∀ a b, R a b → Follows S (f a) (g b)) :
    Follows S (Machine.andThen x f) (Machine.andThen y g) := by
  intro r hr
  obtain ⟨a, ha, hf⟩ := andThen_eq_next.1 hr
  obtain ⟨b, hb, hab⟩ := h a ha
  obtain ⟨r', hg, hS⟩ := hfg a b hab r hf
  exact ⟨r', andThen_eq_next.2 ⟨b, hb, hg⟩, hS⟩

/-- Two sequences with the same first part agree when the rest does. -/
theorem Follows.andThen_same {α β : Type} {S : β → β → Prop} {x : Result α} {f g : α → Result β}
    (hfg : ∀ a, Follows S (f a) (g a)) : Follows S (Machine.andThen x f) (Machine.andThen x g) :=
  Follows.andThen (R := Eq) (fun a ha => ⟨a, ha, rfl⟩) fun a _ h => h ▸ hfg a

/-! ## The requests on dictionaries that agree -/

section
variable {d d' : Dict} (h : d.Agree d')
include h

theorem Dict.Agree.bound_eq (k : Code) : d'.bound k = d.bound k := by
  simp only [Dict.bound, h.next]

theorem Dict.Agree.isFull_eq (cap : DictCap) : d'.isFull cap = d.isFull cap := by
  simp only [Dict.isFull, h.next]

theorem Dict.Agree.readEntry_eq {k : Nat} (hk : k < d.nextCode.toNat) : d'.readEntry k = d.readEntry k := by
  simp only [Dict.readEntry, h.assigned k hk]

/-- A search that stays below `next_code` reads assigned cells alone. -/
theorem Dict.Agree.scan_eq (e : Entry) {n k : Nat} (hn : k + n ≤ d.nextCode.toNat) : d'.scan e n k = d.scan e n k := by
  induction n generalizing k with
  | zero => rfl
  | succ n ih => simp only [Dict.scan, h.readEntry_eq (k := k) (by omega), ih (k := k + 1) (by omega)]

theorem Dict.Agree.lookup_eq (hlow : firstFree ≤ d.nextCode.toNat) (p : Code) (c : Symbol) :
    d'.lookup p c = d.lookup p c := by
  have hn : firstFree + (d.nextCode.toNat - firstFree) ≤ d.nextCode.toNat := by omega
  simp only [Dict.lookup, h.bound_eq, h.next, h.scan_eq _ hn]

/-- The chain of a bound code stays below it, so that the walk reads assigned cells alone. -/
theorem Dict.Agree.walk_eq {n : Nat} {k : Code} (t : List Symbol) (hk : k.toNat < d.nextCode.toNat) :
    d'.walk n k t = d.walk n k t := by
  induction n generalizing k t with
  | zero => rfl
  | succ n ih =>
    simp only [Dict.walk, h.readEntry_eq hk]
    congr 2
    funext e
    split
    · next hlt => exact ih _ (lt_trans hlt hk)
    · rfl

theorem Dict.Agree.firstWalk_eq {n : Nat} {k : Code} (hk : k.toNat < d.nextCode.toNat) :
    d'.firstWalk n k = d.firstWalk n k := by
  induction n generalizing k with
  | zero => rfl
  | succ n ih =>
    simp only [Dict.firstWalk, h.readEntry_eq hk]
    congr 2
    funext e
    split
    · next hlt => exact ih (lt_trans hlt hk)
    · rfl

theorem Dict.Agree.fetch_eq (k : Code) : d'.fetch k = d.fetch k := by
  simp only [Dict.fetch, h.bound_eq]
  split
  · next hb => exact h.walk_eq _ ((bound_iff d k).1 hb)
  · rfl

theorem Dict.Agree.first_eq (k : Code) : d'.first k = d.first k := by
  simp only [Dict.first, h.bound_eq]
  split
  · next hb => exact h.firstWalk_eq ((bound_iff d k).1 hb)
  · rfl

/-- Seeded dictionaries agree: no assigned cell is left, and below 256 no cell differed. -/
theorem Dict.Agree.seed (hlow : firstFree ≤ d.nextCode.toNat) : d.seed.Agree d'.seed :=
  ⟨rfl, fun k hk => h.assigned k (lt_of_lt_of_le hk hlow)⟩

/-- Insertions into dictionaries that agree give the same answer, and the dictionaries agree afterwards: the cell that
becomes assigned is the one written. -/
theorem Dict.Agree.insert {cap : DictCap} (hcap : cap.wf = true) (hd : d.Inv cap) (p : Code) (c : Symbol) :
    Follows (fun r r' => r'.1 = r.1 ∧ r.2.Agree r'.2) (d.insert cap p c) (d'.insert cap p c) := by
  rintro ⟨r, x⟩ hx
  obtain ⟨hb, ⟨hf, rfl, rfl⟩ | ⟨hf, hc, rfl, rfl⟩⟩ := insert_cases hx
  · exact ⟨(.full, d'), by simp [Dict.insert, h.bound_eq, h.isFull_eq, hb, hf], rfl, h⟩
  · have hlt := lt_of_lt_of_le (hd.lt_limit hf hc) (limit_le hcap)
    refine ⟨_, insert_ok c (by rwa [h.bound_eq]) (by rwa [h.isFull_eq]) (by rwa [h.next]), ?_⟩
    simp only [h.next, lowCode_toNat_of_lt hlt, true_and]
    refine ⟨rfl, fun k hk => ?_⟩
    rw [nextCode_succ_toNat hlt] at hk
    by_cases hkn : k = d.nextCode.toNat
    · subst hkn
      rw [Memory.read_write_same, Memory.read_write_same]
    · rw [Memory.read_write_ne _ _ hkn, Memory.read_write_ne _ _ hkn]
      exact h.assigned k (by omega)

end

/-! ## The commands of encoders that agree -/

/-- Fault entry reads no hold register and no cell. -/
theorem Encoder.Agree.raise {e e' : Encoder} (h : e.Agree e') (f : Cause) (v : Arg) :
    (e.raise f v).Agree (e'.raise f v) :=
  ⟨by simp, h.valid, h.code, h.out, h.dict⟩

/-- Admission is judged on registers that agree; so a command's outcomes agree when its rule's do. -/
theorem Encoder.Agree.judged {e e' : Encoder} (h : e.Agree e') {k : CmdKind} {v : Arg}
    {rule : Encoder → Result Encoder} (hr : Follows Encoder.Agree (rule e) (rule e')) :
    Follows Encoder.Agree (e.judged k v rule) (e'.judged k v rule) := by
  simp only [Encoder.judged, h.ctl]
  split
  · exact hr
  · exact .next (h.raise _ _)
  · exact .next h

theorem Encoder.Agree.startRule {cap : DictCap} {e e' : Encoder} (h : e.Agree e') (he : e.Inv cap) :
    Follows Encoder.Agree e.startRule e'.startRule :=
  .next ⟨by simp [h.ctl], rfl, by simp, rfl, h.dict.seed he.dict.low⟩

theorem Encoder.Agree.missRule {cap : DictCap} {e e' : Encoder} (h : e.Agree e') (hcap : cap.wf = true)
    (he : e.Inv cap) (hv : e.matchValid = true) (c : Symbol) :
    Follows Encoder.Agree (e.missRule cap c) (e'.missRule cap c) := by
  simp only [Encoder.missRule, h.dict.isFull_eq, h.code hv]
  split
  · exact .next (h.raise _ _)
  · exact (h.dict.insert hcap he.dict _ c).andThen fun r r' hr =>
      .next ⟨h.ctl, h.valid, fun _ => rfl, by simp [h.out], hr.2⟩

/-- `ENC.SYM` reads `match_code` only while `match_valid` is 1 (R121). -/
theorem Encoder.Agree.symRule {cap : DictCap} {e e' : Encoder} (h : e.Agree e') (hcap : cap.wf = true)
    (he : e.Inv cap) (c : Symbol) : Follows Encoder.Agree (e.symRule cap c) (e'.symRule cap c) := by
  simp only [Encoder.symRule, h.valid]
  split
  · next hv =>
    rw [h.code hv, h.dict.lookup_eq he.dict.low]
    refine .andThen_same fun r => ?_
    cases r with
    | hit k => exact .next ⟨h.ctl, rfl, fun _ => rfl, h.out, h.dict⟩
    | miss => exact h.missRule hcap he hv c
  · exact .next ⟨h.ctl, rfl, fun _ => rfl, h.out, h.dict⟩

/-- `ENC.END` reads `match_code` only while `match_valid` is 1 (R122). -/
theorem Encoder.Agree.endRule {e e' : Encoder} (h : e.Agree e') : Follows Encoder.Agree e.endRule e'.endRule := by
  have hout : (if e'.matchValid then e'.out ++ [e'.matchCode] else e'.out) =
      if e.matchValid then e.out ++ [e.matchCode] else e.out := by
    rw [h.valid, h.out]
    split
    · next hv => rw [h.code hv]
    · rfl
  exact .next ⟨by simp [h.ctl], rfl, by simp, hout, h.dict⟩

theorem Encoder.Agree.afterReset {cap : DictCap} {e e' : Encoder} (h : e.Agree e') (he : e.Inv cap) :
    e.afterReset.Agree e'.afterReset :=
  ⟨rfl, rfl, by simp [Encoder.afterReset], rfl, h.dict.seed he.dict.low⟩

/-! ## The commands of decoders that agree -/

/-- Fault entry reads no hold register and no cell. -/
theorem Decoder.Agree.raise {d d' : Decoder} (h : d.Agree d') (f : Cause) (v : Arg) :
    (d.raise f v).Agree (d'.raise f v) :=
  ⟨by simp, h.valid, h.code, h.out, h.dict⟩

/-- Admission is judged on registers that agree; so a command's outcomes agree when its rule's do. -/
theorem Decoder.Agree.judged {d d' : Decoder} (h : d.Agree d') {k : CmdKind} {v : Arg}
    {rule : Decoder → Result Decoder} (hr : Follows Decoder.Agree (rule d) (rule d')) :
    Follows Decoder.Agree (d.judged k v rule) (d'.judged k v rule) := by
  simp only [Decoder.judged, h.ctl]
  split
  · exact hr
  · exact .next (h.raise _ _)
  · exact .next h

theorem Decoder.Agree.startRule {cap : DictCap} {d d' : Decoder} (h : d.Agree d') (hd : d.Inv cap) :
    Follows Decoder.Agree d.startRule d'.startRule :=
  .next ⟨by simp [h.ctl], rfl, by simp, rfl, h.dict.seed hd.dict.low⟩

theorem Decoder.Agree.firstCodeRule {d d' : Decoder} (h : d.Agree d') (k : Code) :
    Follows Decoder.Agree (d.firstCodeRule k) (d'.firstCodeRule k) := by
  simp only [Decoder.firstCodeRule, h.dict.bound_eq, h.dict.fetch_eq]
  split
  · exact .andThen_same fun w => .next ⟨h.ctl, rfl, fun _ => rfl, by simp [h.out], h.dict⟩
  · exact .next (h.raise _ _)

/-- A valid previous code names the same String in decoders that agree. -/
theorem Decoder.Agree.entryOf_eq {d d' : Decoder} (h : d.Agree d') (hv : d.prevValid = true) (k : Code) :
    d'.entryOf k = d.entryOf k := by
  simp only [Decoder.entryOf, h.dict.bound_eq, h.dict.fetch_eq, h.dict.first_eq, h.dict.next, h.code hv]

theorem Decoder.Agree.emitRule {cap : DictCap} {d d' : Decoder} (h : d.Agree d') (hcap : cap.wf = true)
    (hd : d.Inv cap) (hv : d.prevValid = true) (k : Code) (w : Str) :
    Follows Decoder.Agree (d.emitRule cap k w) (d'.emitRule cap k w) := by
  simp only [Decoder.emitRule, h.dict.isFull_eq, h.code hv]
  split
  · exact .next (h.raise _ _)
  · exact (h.dict.insert hcap hd.dict _ _).andThen fun r r' hr =>
      .next ⟨h.ctl, h.valid, fun _ => rfl, by simp [h.out], hr.2⟩

/-- `DEC.CODE` reads `prev_code` only while `prev_valid` is 1 (R141). -/
theorem Decoder.Agree.codeRule {cap : DictCap} {d d' : Decoder} (h : d.Agree d') (hcap : cap.wf = true)
    (hd : d.Inv cap) (k : Code) : Follows Decoder.Agree (d.codeRule cap k) (d'.codeRule cap k) := by
  simp only [Decoder.codeRule, h.valid]
  split
  · next hv =>
    simp only [Decoder.nextCodeRule, h.entryOf_eq hv]
    refine .andThen_same fun r => ?_
    cases r with
    | some w => exact h.emitRule hcap hd hv k w
    | none => exact .next (h.raise _ _)
  · exact h.firstCodeRule k

theorem Decoder.Agree.endRule {d d' : Decoder} (h : d.Agree d') : Follows Decoder.Agree d.endRule d'.endRule :=
  .next ⟨by simp [h.ctl], rfl, by simp, h.out, h.dict⟩

theorem Decoder.Agree.afterReset {cap : DictCap} {d d' : Decoder} (h : d.Agree d') (hd : d.Inv cap) :
    d.afterReset.Agree d'.afterReset :=
  ⟨rfl, rfl, by simp [Decoder.afterReset], rfl, h.dict.seed hd.dict.low⟩

/-! ## The steps of states that agree -/

theorem State.Agree.withInput {s s' : State} (h : s.Agree s') (l : List HostEvent) :
    (s.withInput l).Agree (s'.withInput l) :=
  ⟨h.config, h.enc, h.dec, h.cmdIllegal, rfl, h.request, h.reply⟩

theorem State.Agree.refuseWord {s s' : State} (h : s.Agree s') : s.refuseWord.Agree s'.refuseWord :=
  ⟨h.config, h.enc, h.dec, rfl, h.input, h.request, h.reply⟩

theorem State.Agree.afterReset {s s' : State} (h : s.Agree s') (hs : s.Inv) : s.afterReset.Agree s'.afterReset :=
  ⟨h.config, h.enc.afterReset hs.enc, h.dec.afterReset hs.dec, rfl, h.input, rfl, rfl⟩

theorem State.Agree.onEnc {s s' : State} (h : s.Agree s') {f f' : Encoder → Result Encoder}
    (hf : Follows Encoder.Agree (f s.enc) (f' s'.enc)) : Follows State.Agree (s.onEnc f) (s'.onEnc f') :=
  hf.andThen fun _ _ he => .next ⟨h.config, he, h.dec, h.cmdIllegal, h.input, h.request, h.reply⟩

theorem State.Agree.onDec {s s' : State} (h : s.Agree s') {f f' : Decoder → Result Decoder}
    (hf : Follows Decoder.Agree (f s.dec) (f' s'.dec)) : Follows State.Agree (s.onDec f) (s'.onDec f') :=
  hf.andThen fun _ _ hd => .next ⟨h.config, h.enc, hd, h.cmdIllegal, h.input, h.request, h.reply⟩

/-- No command reads a value the states may differ in. -/
theorem State.Agree.exec_command {i : Instr} {s s' : State} (h : s.Agree s') (hs : s.Inv)
    (hu : commandUnit i ≠ none) : Follows State.Agree (exec i s) (exec i s') := by
  obtain ⟨u, hu⟩ := Option.ne_none_iff_exists'.1 hu
  cases u with
  | enc =>
    rcases encCommand_cases hu with rfl | ⟨c, rfl⟩ | rfl
    · rw [exec_encStart, exec_encStart]
      exact h.onEnc (h.enc.judged (h.enc.startRule hs.enc))
    · rw [exec_encSym, exec_encSym, h.config]
      exact h.onEnc (h.enc.judged (h.enc.symRule hs.config hs.enc c))
    · rw [exec_encEnd, exec_encEnd]
      exact h.onEnc (h.enc.judged h.enc.endRule)
  | dec =>
    rcases decCommand_cases hu with rfl | ⟨k, rfl⟩ | rfl
    · rw [exec_decStart, exec_decStart]
      exact h.onDec (h.dec.judged (h.dec.startRule hs.dec))
    · rw [exec_decCode, exec_decCode, h.config]
      exact h.onDec (h.dec.judged (h.dec.codeRule hs.config hs.dec k))
    · rw [exec_decEnd, exec_decEnd]
      exact h.onDec (h.dec.judged h.dec.endRule)

/-- Settles O49: the two states find the same word at their inputs, and neither reset, a refused word nor a command
reads a value they may differ in. -/
theorem unspecifiedValuesAreNeverRead : Obligations.UnspecifiedValuesAreNeverRead := by
  intro s s' t hs _ h ht
  have hq : s'.request = none := h.request.trans hs.port
  rcases step_cases ht with ⟨hf, rfl⟩ | ⟨ws, rest, -, -, hi, rfl⟩ | ⟨w, rest, i, -, -, hi, hd, he⟩ |
    ⟨w, rest, r, -, -, hi, hd, rfl⟩ | ⟨u, w, i, -, hq', -, -⟩
  · have hi := ((fetch_idle_iff t).1 hf).2
    exact ⟨s', by simp [step, fetch, hq, h.input, hi], h⟩
  · exact ⟨_, by simp [step, fetch, hq, h.input, hi], (h.withInput rest).afterReset (hs.withInput rest)⟩
  · obtain ⟨t', he', hag⟩ := (h.withInput rest).exec_command (hs.withInput rest) (decodeCommand_unit hd) t he
    exact ⟨t', (step_command hq (h.input.trans hi) hd).trans he', hag⟩
  · exact ⟨_, by simp [step, fetch, hq, h.input, hi, hd], (h.withInput rest).refuseWord⟩
  · simp [hs.port] at hq'

end Sys2Proof.Machine

/-! PROOFS. The independence of the two units: a command of one unit reads and writes that unit alone, so commands of
different units commute and every interleaving leaves each unit where it would be alone (R72). -/

namespace Sys2Proof.Machine

/-! ## A command depends on its own unit alone -/

/-- A command of `ENC` acts on the encoder unit, by a rule in which no other register but the configuration occurs
(R125). -/
theorem exec_encCommand_acts {i : Instr} (hu : commandUnit i = some .enc) :
    ∃ f : Config → Encoder → Result Encoder, ∀ s, exec i s = s.onEnc (f s.config) := by
  rcases encCommand_cases hu with rfl | ⟨c, rfl⟩ | rfl
  · exact ⟨fun _ e => e.judged .start 0 Encoder.startRule, exec_encStart⟩
  · exact ⟨fun p e => e.judged .data (zext32 c) (Encoder.symRule p.dictCap c), exec_encSym c⟩
  · exact ⟨fun _ e => e.judged .finish 0 Encoder.endRule, exec_encEnd⟩

/-- A command of `DEC` acts on the decoder unit, by a rule in which no other register but the configuration occurs
(R146). -/
theorem exec_decCommand_acts {i : Instr} (hu : commandUnit i = some .dec) :
    ∃ f : Config → Decoder → Result Decoder, ∀ s, exec i s = s.onDec (f s.config) := by
  rcases decCommand_cases hu with rfl | ⟨k, rfl⟩ | rfl
  · exact ⟨fun _ d => d.judged .start 0 Decoder.startRule, exec_decStart⟩
  · exact ⟨fun p d => d.judged .data k (Decoder.codeRule p.dictCap k), exec_decCode k⟩
  · exact ⟨fun _ d => d.judged .finish 0 Decoder.endRule, exec_decEnd⟩

/-- A command of `ENC` does the same to the same encoder, whatever stands around it. -/
theorem exec_encCommand_transfer {i : Instr} {s s' t : State} (hu : commandUnit i = some .enc)
    (hc : s'.config = s.config) (he : s'.enc = s.enc) (h : exec i s = .next t) :
    exec i s' = .next (s'.withEnc t.enc) := by
  obtain ⟨f, hf⟩ := exec_encCommand_acts hu
  rw [hf] at h ⊢
  obtain ⟨e, hr, rfl⟩ := onEnc_eq_next.1 h
  exact onEnc_eq_next.2 ⟨e, by rw [hc, he, hr], rfl⟩

/-- A command of `DEC` does the same to the same decoder, whatever stands around it. -/
theorem exec_decCommand_transfer {i : Instr} {s s' t : State} (hu : commandUnit i = some .dec)
    (hc : s'.config = s.config) (hd : s'.dec = s.dec) (h : exec i s = .next t) :
    exec i s' = .next (s'.withDec t.dec) := by
  obtain ⟨f, hf⟩ := exec_decCommand_acts hu
  rw [hf] at h ⊢
  obtain ⟨d, hr, rfl⟩ := onDec_eq_next.1 h
  exact onDec_eq_next.2 ⟨d, by rw [hc, hd, hr], rfl⟩

/-- Settles O51: each command finds its own unit as the other order left it, and replaces that unit alone. -/
theorem commandsOfTheTwoUnitsCommute : Obligations.CommandsOfTheTwoUnitsCommute := by
  intro i j s s' t hi hj h h'
  have hs' : s' = s.withEnc s'.enc := exec_encCommand_frame hi h
  have ht : t = s'.withDec t.dec := exec_decCommand_frame hj h'
  have hconfig : s.config = s'.config := by rw [hs', State.withEnc_config]
  have hdec : s.dec = s'.dec := by rw [hs', State.withEnc_dec]
  have swap : t = (s.withDec t.dec).withEnc s'.enc := calc
    t = s'.withDec t.dec := ht
    _ = (s.withEnc s'.enc).withDec t.dec := by rw [← hs']
    _ = (s.withDec t.dec).withEnc s'.enc := rfl
  have back := exec_encCommand_transfer (s := s) (s' := s.withDec t.dec) hi rfl rfl h
  exact ⟨s.withDec t.dec, exec_decCommand_transfer hj hconfig hdec h', by rw [back, ← swap]⟩

/-! ## Runs of a unit alone -/

/-- The registers of a unit are the same in two states. -/
def State.SameUnit (s s' : State) : UnitId → Prop
  | .enc => s'.enc = s.enc
  | .dec => s'.dec = s.dec

/-- Two states between which a unit cannot tell: its registers and the configuration are the same, and no request
stands on a private port of either. -/
structure State.Alike (u : UnitId) (s s' : State) : Prop where
  config : s'.config = s.config
  unit : s.SameUnit s' u
  port : s.request = none
  port' : s'.request = none

theorem State.Alike.refl (u : UnitId) {s : State} (h : s.request = none) : s.Alike u s :=
  ⟨rfl, by cases u <;> rfl, h, h⟩

theorem State.Alike.withInput {u : UnitId} {s s' : State} (h : s.Alike u s') (l l' : List HostEvent) :
    (s.withInput l).Alike u (s'.withInput l') :=
  ⟨h.config, by cases u <;> exact h.unit, h.port, h.port'⟩

/-- A refused word is seen by no unit (R86). -/
theorem State.Alike.refuseWord {u : UnitId} {s s' : State} (h : s.Alike u s') : s.refuseWord.Alike u s' :=
  ⟨h.config, by cases u <;> exact h.unit, h.port, h.port'⟩

/-- A command of another unit is not seen by this one (R125, R146). -/
theorem State.Alike.exec_other {u v : UnitId} {i : Instr} {s s' t : State} (h : s.Alike u s')
    (hi : commandUnit i = some v) (hv : v ≠ u) (ht : exec i s = .next t) : t.Alike u s' := by
  obtain ⟨hconfig, -, -, hrequest⟩ := exec_frame ht
  refine ⟨h.config.trans hconfig.symm, ?_, hrequest.trans h.port, h.port'⟩
  cases v with
  | enc =>
    cases u with
    | enc => exact absurd rfl hv
    | dec => rw [exec_encCommand_frame hi ht]; exact h.unit
  | dec =>
    cases u with
    | enc => rw [exec_decCommand_frame hi ht]; exact h.unit
    | dec => exact absurd rfl hv

/-- A command of the unit goes through in both states and leaves the unit the same in both. -/
theorem State.Alike.exec_own {u : UnitId} {i : Instr} {s s' t : State} (h : s.Alike u s')
    (hi : commandUnit i = some u) (ht : exec i s = .next t) :
    ∃ t', exec i s' = .next t' ∧ t'.input = s'.input ∧ t.Alike u t' := by
  obtain ⟨hconfig, -, -, hrequest⟩ := exec_frame ht
  have hc : s'.config = t.config := h.config.trans hconfig.symm
  have hq : t.request = none := hrequest.trans h.port
  cases u with
  | enc => exact ⟨_, exec_encCommand_transfer hi h.config h.unit ht, rfl, hc, rfl, hq, h.port'⟩
  | dec => exact ⟨_, exec_decCommand_transfer hi h.config h.unit ht, rfl, hc, rfl, hq, h.port'⟩

/-- A command word that decodes is addressed to the unit of its command (R56). -/
theorem eventUnit_of_decode {w : CmdWord} {i : Instr} (h : decode (.command w) = .ok i) :
    eventUnit (.command w) = commandUnit i := by
  have h' : decodeCommand w = .ok i := h
  simp only [eventUnit, h']

/-- A refused word is addressed to no unit (R86). -/
theorem eventUnit_of_refused {w : CmdWord} {r : Reject} (h : decode (.command w) = .error r) :
    eventUnit (.command w) = none := by
  have h' : decodeCommand w = .error r := h
  simp only [eventUnit, h']

/-- The step of a command word that spells none (R86). -/
theorem step_refused {s : State} {w : CmdWord} {rest : List HostEvent} {r : Reject} (hq : s.request = none)
    (hin : s.input = .command w :: rest) (hd : decode (.command w) = .error r) :
    step s = .next (s.withInput rest).refuseWord := by
  simp [step, fetch, hq, hin, hd]

/-- R72 for one unit: its words alone, sent to a state in which it is the same, leave it as the whole list does. -/
theorem run_alone (u : UnitId) {l : List HostEvent} {s s' t : State} (h : s.Alike u s')
    (hl : ∀ e ∈ l, ∀ ws, e ≠ .reset ws) (hin : s.input = l)
    (hin' : s'.input = l.filter (fun e => eventUnit e == some u)) (ht : core.run l.length s = .next t) :
    ∃ t' : State, core.run (l.filter (fun e => eventUnit e == some u)).length s' = .next t' ∧ t.SameUnit t' u := by
  induction l generalizing s s' with
  | nil => cases ht; exact ⟨s', rfl, h.unit⟩
  | cons e l ih =>
    cases e with
    | reset ws => exact absurd rfl (hl _ List.mem_cons_self ws)
    | command w =>
      have hl' : ∀ e ∈ l, ∀ ws, e ≠ .reset ws := fun e he => hl e (List.mem_cons_of_mem _ he)
      obtain ⟨s₁, hs₁, ht⟩ := run_cases ht
      cases hd : decode (.command w) with
      | error r =>
        rw [step_refused h.port hin hd] at hs₁
        cases hs₁
        simp only [List.filter_cons, eventUnit_of_refused hd] at hin' ⊢
        exact ih (h.withInput l s'.input).refuseWord hl' rfl hin' ht
      | ok i =>
        rw [step_command h.port hin hd] at hs₁
        have hin₁ : s₁.input = l := (exec_frame hs₁).2.2.1
        obtain ⟨v, hv⟩ := Option.ne_none_iff_exists'.1 (decodeCommand_unit hd)
        by_cases hvu : v = u
        · subst hvu
          simp only [List.filter_cons, eventUnit_of_decode hd, hv, beq_self_eq_true, if_true] at hin' ⊢
          obtain ⟨t₁, ht₁, hinput, hal⟩ :=
            (h.withInput l (l.filter (fun e => eventUnit e == some v))).exec_own hv hs₁
          rw [List.length_cons, run_next ((step_command h.port' hin' hd).trans ht₁)]
          exact ih hal hl' hin₁ hinput ht
        · have hskip : (some v == some u) = false := by simp [hvu]
          simp only [List.filter_cons, eventUnit_of_decode hd, hv, hskip] at hin' ⊢
          exact ih ((h.withInput l s'.input).exec_other hv hvu hs₁) hl' hin₁ hin' ht

/-- Settles O52, by induction over the words: a word of the unit acts on it as it does alone, any other word leaves
it. -/
theorem unitsRunAsIfAlone : Obligations.UnitsRunAsIfAlone := by
  intro s t l hq hl ht
  exact ⟨run_alone .enc ((State.Alike.refl .enc hq).withInput l _) hl rfl rfl ht,
    run_alone .dec ((State.Alike.refl .dec hq).withInput l _) hl rfl rfl ht⟩

end Sys2Proof.Machine

/-! PROOFS. What an instruction can do to the entry memory of each dictionary, and what a request can do to the state
(R53, R54). -/

namespace Sys2Proof.Machine

/-- `d'` is `d` after an insertion: one cell is written, at `next_code[31:0]`, and `next_code` is one more (R107). -/
def Dict.Inserted (d d' : Dict) : Prop :=
  ∃ e, d' = { mem := d.mem.write (lowCode d.nextCode).toNat e, nextCode := d.nextCode + 1 }

/-- An insertion moves `next_code`. -/
theorem Dict.Inserted.nextCode_ne {d d' : Dict} (h : d.Inserted d') : d'.nextCode ≠ d.nextCode := by
  obtain ⟨e, rfl⟩ := h
  simp

/-- An insertion leaves every cell but the one at `next_code[31:0]`. -/
theorem Dict.Inserted.read_ne {d d' : Dict} (h : d.Inserted d') {a : Nat} (ha : a ≠ (lowCode d.nextCode).toNat) :
    d'.mem.read a = d.mem.read a := by
  obtain ⟨e, rfl⟩ := h
  exact Memory.read_write_ne _ _ ha

/-- Where `ENC.SYM` is admitted, its one access to memory that writes is an insertion (R121). -/
theorem Encoder.symRule_memory {cap : DictCap} {c : Symbol} {e e' : Encoder} (h : e.symRule cap c = .next e') :
    e'.dict.mem = e.dict.mem ∨ e.dict.Inserted e'.dict := by
  rcases Encoder.symRule_cases h with ⟨-, rfl⟩ | ⟨-, k, -, rfl⟩ | ⟨-, -, h⟩
  · exact .inl rfl
  · exact .inl rfl
  · rcases Encoder.missRule_cases h with ⟨-, rfl⟩ | ⟨-, -, -, rfl⟩
    · exact .inl rfl
    · exact .inr ⟨_, rfl⟩

/-- Where `DEC.CODE` is admitted, its one access to memory that writes is an insertion (R141). -/
theorem Decoder.codeRule_memory {cap : DictCap} {k : Code} {d d' : Decoder} (h : d.codeRule cap k = .next d') :
    d'.dict.mem = d.dict.mem ∨ d.dict.Inserted d'.dict := by
  rcases Decoder.codeRule_cases h with ⟨-, h⟩ | ⟨-, -, rfl⟩ | ⟨-, w, -, h⟩
  · rcases Decoder.firstCodeRule_cases h with ⟨-, rfl⟩ | ⟨-, w, -, rfl⟩ <;> exact .inl rfl
  · exact .inl rfl
  · rcases Decoder.emitRule_cases h with ⟨-, rfl⟩ | ⟨-, -, -, rfl⟩
    · exact .inl rfl
    · exact .inr ⟨_, rfl⟩

/-- What an instruction may do to the memory of a dictionary of `u`: leave it as it is, or insert, the second only if
it is the owner's and one of the three that insert. -/
def Instr.MemoryEffect (i : Instr) (u : UnitId) (d d' : Dict) : Prop :=
  d'.mem = d.mem ∨ (ownerOf i = u ∧ i.mnemonic ∈ ["ENC.SYM", "DEC.CODE", "D.INSERT"] ∧ d.Inserted d')

/-- A command of `ENC` and the entry memories. -/
theorem exec_encCommand_memory {i : Instr} {s t : State} (hu : commandUnit i = some .enc) (h : exec i s = .next t)
    (u : UnitId) : Instr.MemoryEffect i u (s.dictOf u) (t.dictOf u) := by
  cases u with
  | dec => rw [exec_encCommand_frame hu h]; exact .inl rfl
  | enc =>
    rcases encCommand_cases hu with rfl | ⟨c, rfl⟩ | rfl
    · rcases execEncStart_cases h with ⟨-, rfl⟩ | ⟨-, rfl⟩ <;> exact .inl rfl
    · rcases execEncSym_cases h with ⟨-, e', he, rfl⟩ | ⟨-, rfl⟩ | ⟨-, rfl⟩
      · exact (Encoder.symRule_memory he).imp id fun hi => ⟨rfl, by simp [Instr.mnemonic], hi⟩
      · exact .inl rfl
      · exact .inl rfl
    · rcases execEncEnd_cases h with ⟨-, rfl⟩ | ⟨-, rfl⟩ | ⟨-, rfl⟩ <;> exact .inl rfl

/-- A command of `DEC` and the entry memories. -/
theorem exec_decCommand_memory {i : Instr} {s t : State} (hu : commandUnit i = some .dec) (h : exec i s = .next t)
    (u : UnitId) : Instr.MemoryEffect i u (s.dictOf u) (t.dictOf u) := by
  cases u with
  | enc => rw [exec_decCommand_frame hu h]; exact .inl rfl
  | dec =>
    rcases decCommand_cases hu with rfl | ⟨k, rfl⟩ | rfl
    · rcases execDecStart_cases h with ⟨-, rfl⟩ | ⟨-, rfl⟩ <;> exact .inl rfl
    · rcases execDecCode_cases h with ⟨-, d', hd, rfl⟩ | ⟨-, rfl⟩ | ⟨-, rfl⟩
      · exact (Decoder.codeRule_memory hd).imp id fun hi => ⟨rfl, by simp [Instr.mnemonic], hi⟩
      · exact .inl rfl
      · exact .inl rfl
    · rcases execDecEnd_cases h with ⟨-, rfl⟩ | ⟨-, rfl⟩ | ⟨-, rfl⟩ <;> exact .inl rfl

/-- A request and the entry memories. -/
theorem exec_request_memory {i : Instr} {s t : State} (hu : commandUnit i = none) (h : exec i s = .next t)
    (u : UnitId) : Instr.MemoryEffect i u (s.dictOf u) (t.dictOf u) := by
  rcases exec_request_cases hu h with ⟨v, rfl, rfl⟩ | ⟨v, p, c, r, d, rfl, hins, rfl⟩ | ⟨r, -, rfl⟩
  · rw [State.withReply_dictOf]
    by_cases hv : v = u
    · subst hv; rw [State.withDict_dictOf]; exact .inl rfl
    · rw [State.withDict_dictOf_ne _ _ hv]; exact .inl rfl
  · rw [State.withReply_dictOf]
    by_cases hv : v = u
    · subst hv
      rw [State.withDict_dictOf]
      obtain ⟨-, ⟨-, -, rfl⟩ | ⟨-, -, -, rfl⟩⟩ := insert_cases hins
      · exact .inl rfl
      · exact .inr ⟨rfl, by simp [Instr.mnemonic], _, rfl⟩
    · rw [State.withDict_dictOf_ne _ _ hv]; exact .inl rfl
  · rw [State.withReply_dictOf]; exact .inl rfl

/-- Every instruction that goes through leaves a dictionary's memory or inserts (R53, R54). -/
theorem exec_memory {i : Instr} {s t : State} (h : exec i s = .next t) (u : UnitId) :
    Instr.MemoryEffect i u (s.dictOf u) (t.dictOf u) := by
  cases hu : commandUnit i with
  | none => exact exec_request_memory hu h u
  | some v =>
    cases v with
    | enc => exact exec_encCommand_memory hu h u
    | dec => exact exec_decCommand_memory hu h u

/-- Settles O34: a memory that is kept reads the same everywhere, and an insertion writes one cell and moves
`next_code`. -/
theorem memoryIsWrittenOnlyAtNextCode : Obligations.MemoryIsWrittenOnlyAtNextCode := by
  intro i s t u h
  rcases exec_memory h u with hmem | ⟨howner, hname, hins⟩
  · rw [hmem]
    exact ⟨fun _ _ => rfl, fun _ _ => rfl, fun _ _ => rfl⟩
  · refine ⟨fun a ha => hins.read_ne ha, fun hnext => absurd hnext hins.nextCode_ne, ?_⟩
    rintro (hother | hnot)
    · exact absurd howner hother
    · exact absurd hname hnot

/-- Settles O43: `D.SEED` and `D.INSERT` replace the owner's dictionary and the answer, the four others the answer. -/
theorem requestsTouchOnlyTheirDictionary : Obligations.RequestsTouchOnlyTheirDictionary := by
  intro i s t hu h
  rcases exec_request_cases hu h with ⟨u, rfl, rfl⟩ | ⟨u, p, c, r, d, rfl, -, rfl⟩ | ⟨r, -, rfl⟩
  · rw [State.withReply_dictOf, ownerOf, State.withDict_dictOf]
    exact ⟨rfl, fun hn => absurd (by simp [Instr.mnemonic]) hn⟩
  · rw [State.withReply_dictOf, ownerOf, State.withDict_dictOf]
    exact ⟨rfl, fun hn => absurd (by simp [Instr.mnemonic]) hn⟩
  · rw [State.withReply_dictOf, State.withDict_self]
    exact ⟨rfl, fun _ => rfl⟩

end Sys2Proof.Machine

/-! PROOFS. The boundary: `PACK` and `UNPACK` (R63 to R65). -/

namespace Sys2Proof.Machine

/-! ## One code and its four bytes -/

/-- The bytes of a code are the digits of its number to the base 256, the highest first (R63). -/
theorem packCode_eq_ofNat (k : Code) : packCode k =
    [BitVec.ofNat 8 (k.toNat / 2 ^ 24), BitVec.ofNat 8 (k.toNat / 2 ^ 16), BitVec.ofNat 8 (k.toNat / 2 ^ 8),
      BitVec.ofNat 8 k.toNat] := by
  simp only [packCode, BitVec.extractLsb', Nat.shiftRight_eq_div_pow, Nat.pow_zero, Nat.div_one]

theorem groupCode_toNat (b0 b1 b2 b3 : Byte) : (groupCode b0 b1 b2 b3).toNat =
    b0.toNat * 2 ^ 24 + b1.toNat * 2 ^ 16 + b2.toNat * 2 ^ 8 + b3.toNat := by
  rw [groupCode, toNat_append_eq, toNat_append_eq, toNat_append_eq]
  omega

/-- The four bytes of a code assemble to it. -/
theorem groupCode_bytes (k : Code) :
    groupCode (k.extractLsb' 24 8) (k.extractLsb' 16 8) (k.extractLsb' 8 8) (k.extractLsb' 0 8) = k := by
  apply BitVec.eq_of_toNat_eq
  have := k.isLt
  simp only [groupCode_toNat, BitVec.extractLsb'_toNat, Nat.shiftRight_eq_div_pow]
  omega

/-- A code assembled from four bytes packs to them. -/
theorem packCode_groupCode (b0 b1 b2 b3 : Byte) : packCode (groupCode b0 b1 b2 b3) = [b0, b1, b2, b3] := by
  have h0 := b0.isLt
  have h1 := b1.isLt
  have h2 := b2.isLt
  have h3 := b3.isLt
  simp only [packCode, List.cons.injEq, and_true]
  refine ⟨?_, ?_, ?_, ?_⟩ <;> apply BitVec.eq_of_toNat_eq <;>
    simp only [BitVec.extractLsb'_toNat, Nat.shiftRight_eq_div_pow, groupCode_toNat] <;> omega

/-! ## `PACK` -/

theorem pack_length (ks : List Code) : (pack ks).length = 4 * ks.length := by
  induction ks with
  | nil => rfl
  | cons k ks ih => simp only [pack, packCode, List.length_append, List.length_cons, List.length_nil, ih]; omega

/-- `PACK` puts the bytes of code `i` at `4i` to `4i + 3` (R63). -/
theorem pack_getElem? {ks : List Code} {i : Nat} {k : Code} (h : ks[i]? = some k) {j : Nat} (hj : j < 4) :
    (pack ks)[4 * i + j]? = (packCode k)[j]? := by
  induction ks generalizing i with
  | nil => simp at h
  | cons k' ks ih =>
    cases i with
    | zero =>
      obtain rfl : k' = k := by simpa using h
      rw [pack, List.getElem?_append_left (by simp [packCode]; omega), Nat.mul_zero, Nat.zero_add]
    | succ i =>
      rw [pack, List.getElem?_append_right (by simp [packCode]; omega)]
      rw [← ih (i := i) (by simpa using h)]
      congr 1
      simp only [packCode, List.length_cons, List.length_nil]
      omega

/-- Settles O58: the bytes of a code are its digits to the base 256. -/
theorem packWritesBigEndianBytes : Obligations.PackWritesBigEndianBytes := by
  intro ks
  refine ⟨pack_length ks, fun i k h => ?_⟩
  have bytes := fun j (hj : j < 4) => pack_getElem? h hj
  rw [packCode_eq_ofNat] at bytes
  exact ⟨bytes 0 (by decide), bytes 1 (by decide), bytes 2 (by decide), bytes 3 (by decide)⟩

/-! ## `UNPACK` -/

/-- `UNPACK` takes four bytes at a time, and each group gives its code (R64). -/
theorem unpack_packCode_append {k : Code} {b : List Byte} {ks : List Code} (h : unpack b = .ok ks) :
    unpack (packCode k ++ b) = .ok (k :: ks) := by
  simp [packCode, unpack, h, groupCode_bytes]

theorem unpack_pack (ks : List Code) : unpack (pack ks) = .ok ks := by
  induction ks with
  | nil => rfl
  | cons k ks ih => exact unpack_packCode_append ih

/-- A buffer unpacks to the codes that pack to it, or its length is not a multiple of 4 and it is refused (R64, R65). -/
theorem unpack_cases : ∀ b : List Byte,
    (4 ∣ b.length ∧ ∃ ks, unpack b = .ok ks ∧ pack ks = b) ∨ (¬ 4 ∣ b.length ∧ unpack b = .error .malformedBuffer)
  | [] => .inl ⟨by simp, [], rfl, rfl⟩
  | [_] => .inr ⟨by simp, rfl⟩
  | [_, _] => .inr ⟨by simp, rfl⟩
  | [_, _, _] => .inr ⟨by simp, rfl⟩
  | b0 :: b1 :: b2 :: b3 :: rest => by
    have hlen : 4 ∣ (b0 :: b1 :: b2 :: b3 :: rest).length ↔ 4 ∣ rest.length := by
      simp only [List.length_cons]; omega
    rw [hlen]
    refine (unpack_cases rest).imp ?_ ?_
    · rintro ⟨hd, ks, hks, rfl⟩
      exact ⟨hd, groupCode b0 b1 b2 b3 :: ks, by simp [unpack, hks], by simp [pack, packCode_groupCode]⟩
    · rintro ⟨hd, he⟩
      exact ⟨hd, by simp [unpack, he]⟩

theorem unpack_of_dvd {b : List Byte} (h : 4 ∣ b.length) : ∃ ks, unpack b = .ok ks ∧ pack ks = b :=
  (unpack_cases b).elim (·.2) fun hn => absurd h hn.1

theorem unpack_of_not_dvd {b : List Byte} (h : ¬ 4 ∣ b.length) : unpack b = .error .malformedBuffer :=
  (unpack_cases b).elim (fun hd => absurd hd.1 h) (·.2)

end Sys2Proof.Machine

/-! PROOFS. The functions `encode` and `decode`: the loop of `decode` follows that of `encode` one insertion behind, so
that decoding restores what was encoded (R131, R151, R156). -/

namespace Sys2Proof.Machine

/-! ## The loop of `decode` over a list of codes -/

/-- What the loop of `decode` carries after a non-empty list of codes (R151); `none` is `INVALID_DATA`. -/
def decodeLoop : List Nat → Option DecLoop
  | [] => none
  | k :: ks => (DecLoop.first k).bind fun l => ks.foldlM DecLoop.turn l

/-- `decode` gives what its loop has collected. -/
theorem decodeCodes_of_decodeLoop {ks : List Nat} {l : DecLoop} (h : decodeLoop ks = some l) :
    decodeCodes ks = some l.out := by
  cases ks with
  | nil => simp [decodeLoop] at h
  | cons k ks =>
    simp only [decodeLoop] at h
    simp only [decodeCodes, h]

/-- One code more is one turn more. -/
theorem decodeLoop_snoc {ks : List Nat} {l : DecLoop} (h : decodeLoop ks = some l) (k : Nat) :
    decodeLoop (ks ++ [k]) = l.turn k := by
  cases ks with
  | nil => simp [decodeLoop] at h
  | cons k' ks =>
    simp only [decodeLoop] at h
    obtain ⟨l₀, hfirst, hrest⟩ := Option.bind_eq_some_iff.1 h
    simp [decodeLoop, hfirst, List.foldlM_append, hrest]

/-- A code whose String is `w` makes the loop emit `w` and insert the previous String with the first symbol of `w`. -/
theorem DecLoop.turn_of_entry {l : DecLoop} {k : Nat} {w : List Symbol} (h : l.entry k = some w) :
    l.turn k = some { dict := l.dict ++ [l.prev ++ w.take 1], prev := w, out := l.out ++ w } := by
  simp only [DecLoop.turn, h]

/-- `decode` is one insertion behind `encode`: it has every String of the encoder's dictionary but the last, and of the
last one it knows all but the final symbol, which is the first of the String it is to emit (R151, R203). -/
theorem DecLoop.entry_idxOf {l : DecLoop} {w : List Symbol} (hprev : l.prev ≠ [])
    (hw : w ∈ l.dict ++ [l.prev ++ w.take 1]) : l.entry ((l.dict ++ [l.prev ++ w.take 1]).idxOf w) = some w := by
  have hlt := List.idxOf_lt_length_iff.2 hw
  have hget := List.getElem?_idxOf hw
  generalize (l.dict ++ [l.prev ++ w.take 1]).idxOf w = n at hlt hget
  rw [List.length_append, List.length_singleton] at hlt
  by_cases hn : n < l.dict.length
  · rw [List.getElem?_append_left hn] at hget
    simp only [DecLoop.entry, hn, if_true, hget]
  · obtain rfl : n = l.dict.length := by omega
    have hlast : l.prev ++ w.take 1 = w := by simpa using hget
    have htake : w.take 1 = l.prev.take 1 := by
      conv_lhs => rw [← hlast]
      exact List.take_append_of_le_length (List.length_pos_iff.2 hprev)
    simp only [DecLoop.entry, lt_irrefl, if_false, if_true, ← htake, hlast]

/-! ## The loop of `encode`, and `decode` following it -/

/-- What the loop of `encode` carries after the symbols `d`: codes that are below the length of the dictionary, one
String more for each code, and a state of the loop of `decode` on those codes that is one insertion behind. -/
structure EncLoop.Inv (d : List Symbol) (l : EncLoop) : Prop where
  symbols : ∀ c : Symbol, [c] ∈ l.dict
  cur_mem : l.cur ≠ [] → l.cur ∈ l.dict
  size : l.dict.length = 256 + l.out.length
  consumed : l.out.length + l.cur.length ≤ d.length
  codes : ∀ k ∈ l.out, k < l.dict.length
  behind : (l.out = [] ∧ l.dict = seedStrings ∧ l.cur = d) ∨
    (l.cur ≠ [] ∧ ∃ x, decodeLoop l.out = some x ∧ x.prev ≠ [] ∧ l.dict = x.dict ++ [x.prev ++ l.cur.take 1] ∧
      x.out ++ l.cur = d)

theorem symbol_mem_seedStrings (c : Symbol) : [c] ∈ seedStrings :=
  List.mem_map.2 ⟨c.toNat, List.mem_range.2 c.isLt, by simp⟩

theorem EncLoop.Inv.init : EncLoop.Inv [] EncLoop.init where
  symbols := symbol_mem_seedStrings
  cur_mem := fun h => absurd rfl h
  size := by simp [EncLoop.init, seedStrings]
  consumed := Nat.le_refl _
  codes := by simp [EncLoop.init]
  behind := .inl ⟨rfl, rfl, rfl⟩

/-- Given the code of the match, `decode` has caught up: the same dictionary, and all symbols emitted (R155). -/
theorem EncLoop.Inv.decodeLoop_match {d : List Symbol} {l : EncLoop} (h : l.Inv d) (hcur : l.cur ≠ []) :
    decodeLoop (l.out ++ [l.dict.idxOf l.cur]) = some { dict := l.dict, prev := l.cur, out := d } := by
  have hmem := h.cur_mem hcur
  rcases h.behind with ⟨hout, hdict, rfl⟩ | ⟨-, x, hx, hprev, hdict, hd⟩
  · have hget := List.getElem?_idxOf hmem
    rw [hdict] at hget ⊢
    simp [hout, decodeLoop, DecLoop.first, hget]
  · rw [hdict] at hmem ⊢
    rw [decodeLoop_snoc hx, DecLoop.turn_of_entry (DecLoop.entry_idxOf hprev hmem), hd]

/-- A turn that finds the longer match only lengthens it. -/
theorem EncLoop.Inv.extend {d : List Symbol} {l : EncLoop} {c : Symbol} (h : l.Inv d)
    (hmem : l.cur ++ [c] ∈ l.dict) : EncLoop.Inv (d ++ [c]) { l with cur := l.cur ++ [c] } where
  symbols := h.symbols
  cur_mem := fun _ => hmem
  size := h.size
  consumed := by have := h.consumed; simp only [List.length_append, List.length_singleton]; omega
  codes := h.codes
  behind := by
    rcases h.behind with ⟨hout, hdict, rfl⟩ | ⟨hcur, x, hx, hprev, hdict, rfl⟩
    · exact .inl ⟨hout, hdict, rfl⟩
    · have htake : (l.cur ++ [c]).take 1 = l.cur.take 1 :=
        List.take_append_of_le_length (List.length_pos_iff.2 hcur)
      exact .inr ⟨by simp, x, hx, hprev, by rw [htake]; exact hdict, by simp⟩

/-- A turn that does not find the longer match emits the match, and inserts what `decode` will insert one code later. -/
theorem EncLoop.Inv.emit {d : List Symbol} {l : EncLoop} {c : Symbol} (h : l.Inv d)
    (hnot : l.cur ++ [c] ∉ l.dict) :
    EncLoop.Inv (d ++ [c])
      { dict := l.dict ++ [l.cur ++ [c]], cur := [c], out := l.out ++ [l.dict.idxOf l.cur] } := by
  have hcur : l.cur ≠ [] := fun h0 => hnot (by rw [h0]; exact h.symbols c)
  have hpos : 0 < l.cur.length := List.length_pos_iff.2 hcur
  exact {
    symbols := fun c' => List.mem_append_left _ (h.symbols c')
    cur_mem := fun _ => List.mem_append_left _ (h.symbols c)
    size := by simp only [List.length_append, List.length_singleton, h.size]; omega
    consumed := by have := h.consumed; simp only [List.length_append, List.length_singleton]; omega
    codes := by
      intro k hk
      simp only [List.length_append, List.length_singleton]
      rcases List.mem_append.1 hk with hk | hk
      · have := h.codes k hk; omega
      · have := List.idxOf_lt_length_iff.2 (h.cur_mem hcur)
        rw [List.mem_singleton.1 hk]; omega
    behind := .inr ⟨by simp, _, h.decodeLoop_match hcur, hcur, rfl, rfl⟩ }

theorem EncLoop.Inv.turn {d : List Symbol} {l : EncLoop} (h : l.Inv d) (c : Symbol) :
    EncLoop.Inv (d ++ [c]) (l.turn c) := by
  rw [EncLoop.turn]
  split
  · next hmem => exact h.extend hmem
  · next hnot => exact h.emit hnot

/-- The loop of `encode` keeps its invariant. -/
theorem encodeLoop_inv (d : List Symbol) : EncLoop.Inv d (d.foldl EncLoop.turn EncLoop.init) := by
  induction d using List.reverseRecOn with
  | nil => exact EncLoop.Inv.init
  | append_singleton d c ih => rw [List.foldl_concat]; exact ih.turn c

/-- No match is held only before the first symbol. -/
theorem EncLoop.Inv.of_cur_nil {d : List Symbol} {l : EncLoop} (h : l.Inv d) (hcur : l.cur = []) :
    d = [] ∧ l.out = [] := by
  rcases h.behind with ⟨hout, -, hd⟩ | ⟨hne, -⟩
  · exact ⟨by rw [← hd, hcur], hout⟩
  · exact absurd hcur hne

/-- R156 on the functions: `decode` gives back what was encoded. -/
theorem decodeCodes_encodeBytes (d : List Symbol) : decodeCodes (encodeBytes d) = some d := by
  have h := encodeLoop_inv d
  rw [encodeBytes, EncLoop.flush]
  split
  · next hcur =>
    obtain ⟨hd, hout⟩ := h.of_cur_nil hcur
    rw [hout, hd]
    rfl
  · next hcur => exact decodeCodes_of_decodeLoop (h.decodeLoop_match hcur)

/-- The codes of `encode` count up no faster than the symbols (R60). -/
theorem encodeBytes_lt {d : List Symbol} {k : Nat} (hk : k ∈ encodeBytes d) : k < 255 + d.length := by
  have h := encodeLoop_inv d
  have hsize := h.size
  have hconsumed := h.consumed
  rw [encodeBytes, EncLoop.flush] at hk
  split at hk
  · next hcur => simp [(h.of_cur_nil hcur).2] at hk
  · next hcur =>
    have hpos := List.length_pos_iff.2 hcur
    rcases List.mem_append.1 hk with hk | hk
    · have := h.codes k hk; omega
    · have := List.idxOf_lt_length_iff.2 (h.cur_mem hcur)
      rw [List.mem_singleton.1 hk]; omega

end Sys2Proof.Machine

/-! PROOFS. The compressed and the decompressed form (R66). -/

namespace Sys2Proof.Machine

/-- Numbers below 2^32 are 32-bit codes. -/
theorem exists_codes {ns : List Nat} (h : ∀ n ∈ ns, n < 2 ^ 32) : ∃ ks : List Code, ks.map BitVec.toNat = ns := by
  refine ⟨ns.map (BitVec.ofNat 32), ?_⟩
  rw [List.map_map]
  refine (List.map_congr_left fun n hn => ?_).trans (List.map_id ns)
  exact (BitVec.toNat_ofNat n 32).trans (Nat.mod_eq_of_lt (h n hn))

theorem compress_eq_some {d : List Symbol} {b : List Byte} :
    compress d = some b ↔ ∃ ks : List Code, ks.map BitVec.toNat = encodeBytes d ∧ b = pack ks := by
  simp only [compress, Option.map_eq_some_iff, codesOf_eq_some, eq_comm (a := b)]

theorem compress_exists {d : List Symbol} (h : 255 + d.length ≤ 2 ^ 32) : ∃ b, compress d = some b := by
  obtain ⟨ks, hks⟩ := exists_codes fun k hk => (encodeBytes_lt (d := d) hk).trans_le h
  exact ⟨pack ks, compress_eq_some.2 ⟨ks, hks, rfl⟩⟩

theorem decompress_of_malformed {b : List Byte} (h : unpack b = .error .malformedBuffer) :
    decompress b = .error .malformedBuffer := by
  simp [decompress, h]

section
variable {b : List Byte} {ks : List Code} (h : unpack b = .ok ks)
include h

theorem decompress_eq_ok {d : List Symbol} :
    decompress b = .ok d ↔ decodeCodes (ks.map BitVec.toNat) = some d := by
  simp only [decompress, h]
  split <;> simp [*]

theorem decompress_eq_invalidData :
    decompress b = .error .invalidData ↔ decodeCodes (ks.map BitVec.toNat) = none := by
  simp only [decompress, h]
  split <;> simp [*]

end

/-- R156 on the forms. -/
theorem decompress_compress {d : List Symbol} {b : List Byte} (h : compress d = some b) : decompress b = .ok d := by
  obtain ⟨ks, hks, rfl⟩ := compress_eq_some.1 h
  rw [decompress_eq_ok (unpack_pack ks), hks]
  exact decodeCodes_encodeBytes d

/-- Settles O59: `UNPACK` undoes `PACK`, and `decode` undoes `encode`. -/
theorem packAndUnpackAreInverse : Obligations.PackAndUnpackAreInverse := by
  refine ⟨unpack_pack, fun b => unpack_of_dvd, fun b h => ?_, fun d b => compress_eq_some, fun d => compress_exists,
    fun b ks h => ⟨fun d => decompress_eq_ok h, decompress_eq_invalidData h⟩, fun d b => decompress_compress⟩
  exact ⟨unpack_of_not_dvd h, decompress_of_malformed (unpack_of_not_dvd h)⟩

end Sys2Proof.Machine

/-! PROOFS. The rows of the opcode table that a word matches, by the fields of the word; the words the decoder refuses;
and what the pseudo-commands expand to. -/

namespace Sys2Proof.Machine

open Laws

/-! ## The decoder and the rows (R85, R89) -/

/-- The rows that the decoder's answer to a word names: the row of the instruction, or none. -/
def rowsOf : Except Reject Instr → List String
  | .ok i => [i.mnemonic]
  | .error _ => []

theorem rowsOf_eq_nil_iff (d : Except Reject Instr) : rowsOf d = [] ↔ ∃ r, d = .error r := by
  cases d <;> simp [rowsOf]

/-- The command words that no row matches (R86), by their fields. -/
theorem spelledBy_cmdWord_eq_nil_iff (op : BitVec 4) (arg : Arg) : spelledBy (.command (cmdWord op arg)) = [] ↔
    (op = 1 → arg ≠ 0) ∧ (op = 2 → argHigh arg ≠ 0) ∧ (op = 3 → arg ≠ 0) ∧ (op = 5 → arg ≠ 0) ∧ op ≠ 6 ∧
      (op = 7 → arg ≠ 0) := by
  have hop : op &&& 15 = op := BitVec.and_allOnes
  have harg : arg &&& BitVec.allOnes 32 = arg := BitVec.and_allOnes
  simp only [spelledBy, commandRows_fields, List.map_eq_nil_iff, List.filter_eq_nil_iff, List.forall_mem_cons,
    spells_cmdWord, hop, harg, Bool.and_eq_true, beq_iff_eq, not_and, maskS_iff]
  simp

/-- The request words that no row matches (R90), by their fields. -/
theorem spelledBy_reqWord_eq_nil_iff (u : UnitId) (dop : BitVec 3) (k : Code) (c : Symbol) :
    spelledBy (.request u (reqWord dop k c)) = [] ↔
      (dop = 1 → k = 0 → c ≠ 0) ∧ (dop = 2 → c ≠ 0) ∧ dop ≠ 3 ∧ dop ≠ 4 ∧ (dop = 5 → c ≠ 0) ∧ (dop = 6 → c ≠ 0) := by
  have hdop : dop &&& 7 = dop := BitVec.and_allOnes
  have hk : k &&& BitVec.allOnes 32 = k := BitVec.and_allOnes
  have hc : c &&& BitVec.allOnes 8 = c := BitVec.and_allOnes
  simp only [spelledBy, requestRows_fields, List.map_eq_nil_iff, List.filter_eq_nil_iff, List.forall_mem_cons,
    spells_reqWord, hdop, hk, hc, Bool.and_eq_true, beq_iff_eq, not_and]
  simp

/-- Format N matches a row by mask where it decodes (R82). -/
theorem spelledBy_of_formatN {op : BitVec 4} {arg : Arg} {i : Instr}
    (hzero : spelledBy (.command (cmdWord op 0)) = [i.mnemonic])
    (hne : arg ≠ 0 → spelledBy (.command (cmdWord op arg)) = []) :
    spelledBy (.command (cmdWord op arg)) = rowsOf (formatN arg i) := by
  unfold formatN
  split
  next harg => rw [harg]; exact hzero
  next harg => exact hne harg

/-- A request without a symbol matches a row by mask where it decodes (R88). -/
theorem spelledBy_of_noSym {u : UnitId} {dop : BitVec 3} {k : Code} {c : Symbol} {i : Instr}
    (hzero : spelledBy (.request u (reqWord dop k 0)) = [i.mnemonic])
    (hne : c ≠ 0 → spelledBy (.request u (reqWord dop k c)) = []) :
    spelledBy (.request u (reqWord dop k c)) = rowsOf (noSym (reqWord dop k c) i) := by
  rw [noSym, reqSym_reqWord]
  split
  next hc => rw [hc]; exact hzero
  next hc => exact hne hc

/-- R85, by `op` as the decoder reads it. -/
theorem spelledBy_cmdWord (op : BitVec 4) (arg : Arg) :
    spelledBy (.command (cmdWord op arg)) = rowsOf (decode (.command (cmdWord op arg))) := by
  have unspelled := (spelledBy_cmdWord_eq_nil_iff op arg).2
  simp only [decode, decodeCommand, cmdOp_cmdWord, cmdArg_cmdWord]
  split
  next h =>
    obtain rfl : op = 1 := BitVec.eq_of_toNat_eq h
    exact spelledBy_of_formatN RowMatch.encStart fun harg => unspelled (by simpa using harg)
  next h =>
    obtain rfl : op = 2 := BitVec.eq_of_toNat_eq h
    unfold formatS
    split
    next harg =>
      have row := RowMatch.encSym (argSym arg)
      rwa [RowMatch.Statement, encode, symArgWord_fields arg harg] at row
    next harg => exact unspelled (by simpa using harg)
  next h =>
    obtain rfl : op = 3 := BitVec.eq_of_toNat_eq h
    exact spelledBy_of_formatN RowMatch.encEnd fun harg => unspelled (by simpa using harg)
  next h =>
    obtain rfl : op = 5 := BitVec.eq_of_toNat_eq h
    exact spelledBy_of_formatN RowMatch.decStart fun harg => unspelled (by simpa using harg)
  next h =>
    obtain rfl : op = 6 := BitVec.eq_of_toNat_eq h
    exact RowMatch.decCode arg
  next h =>
    obtain rfl : op = 7 := BitVec.eq_of_toNat_eq h
    exact spelledBy_of_formatN RowMatch.decEnd fun harg => unspelled (by simpa using harg)
  next h1 h2 h3 h5 h6 h7 =>
    refine unspelled ⟨?_, ?_, ?_, ?_, ?_, ?_⟩ <;> rintro rfl <;> contradiction

/-- R89, by `dop` as the decoder reads it. -/
theorem spelledBy_reqWord (u : UnitId) (dop : BitVec 3) (k : Code) (c : Symbol) :
    spelledBy (.request u (reqWord dop k c)) = rowsOf (decode (.request u (reqWord dop k c))) := by
  have unspelled := (spelledBy_reqWord_eq_nil_iff u dop k c).2
  simp only [decode, decodeRequest, reqDop_reqWord, reqCode_reqWord, reqSym_reqWord]
  split
  next h =>
    obtain rfl : dop = 1 := BitVec.eq_of_toNat_eq h
    rw [noOperand, reqCode_reqWord]
    split
    next hk =>
      subst hk
      exact spelledBy_of_noSym (RowMatch.dSeed u) fun hc => unspelled (by simpa using hc)
    next hk => exact unspelled (by simpa using fun h0 => absurd h0 hk)
  next h =>
    obtain rfl : dop = 2 := BitVec.eq_of_toNat_eq h
    exact spelledBy_of_noSym (RowMatch.dBound u k) fun hc => unspelled (by simpa using hc)
  next h =>
    obtain rfl : dop = 3 := BitVec.eq_of_toNat_eq h
    exact RowMatch.dLookup u k c
  next h =>
    obtain rfl : dop = 4 := BitVec.eq_of_toNat_eq h
    exact RowMatch.dInsert u k c
  next h =>
    obtain rfl : dop = 5 := BitVec.eq_of_toNat_eq h
    exact spelledBy_of_noSym (RowMatch.dFetch u k) fun hc => unspelled (by simpa using hc)
  next h =>
    obtain rfl : dop = 6 := BitVec.eq_of_toNat_eq h
    exact spelledBy_of_noSym (RowMatch.dFirst u k) fun hc => unspelled (by simpa using hc)
  next h1 h2 h3 h4 h5 h6 =>
    refine unspelled ⟨?_, ?_, ?_, ?_, ?_, ?_⟩ <;> rintro rfl <;> contradiction

/-- The rows a word matches are the rows the decoder's answer names. -/
theorem spelledBy_eq_rowsOf_decode (p : PortWord) : spelledBy p = rowsOf (decode p) := by
  cases p with
  | command w =>
    rw [← cmdWord_fields w]
    exact spelledBy_cmdWord _ _
  | request u w =>
    rw [← reqWord_fields w]
    exact spelledBy_reqWord _ _ _ _

/-- Settles O9: by the fields of the word, and by the law `RowMatch` of each instruction where the word decodes. -/
theorem decoderAgreesWithTheMaskTable : Obligations.DecoderAgreesWithTheMaskTable :=
  spelledBy_eq_rowsOf_decode

/-! ## Refused words (R86) -/

/-- A word is refused exactly when no row matches it. -/
theorem decode_error_iff (p : PortWord) : (∃ r, decode p = .error r) ↔ spelledBy p = [] := by
  rw [spelledBy_eq_rowsOf_decode, rowsOf_eq_nil_iff]

/-- The refused command words (R86), by their fields. -/
theorem decode_command_error_iff (w : CmdWord) : (∃ r, decode (.command w) = .error r) ↔
    (cmdOp w = 1 → cmdArg w ≠ 0) ∧ (cmdOp w = 2 → argHigh (cmdArg w) ≠ 0) ∧ (cmdOp w = 3 → cmdArg w ≠ 0) ∧
      (cmdOp w = 5 → cmdArg w ≠ 0) ∧ cmdOp w ≠ 6 ∧ (cmdOp w = 7 → cmdArg w ≠ 0) := by
  rw [decode_error_iff, ← spelledBy_cmdWord_eq_nil_iff, cmdWord_fields]

/-- Settles O8: the fields of a refused word are read as numbers, and its step is that of a word that spells no
command. -/
theorem refusedWordsOnlySetCmdIllegal : Obligations.RefusedWordsOnlySetCmdIllegal := by
  intro w
  constructor
  · have hop : w.toNat / 2 ^ 32 < 16 := Nat.div_lt_of_lt_mul w.isLt
    rw [decode_command_error_iff]
    simp only [← BitVec.toNat_inj, ne_eq, cmdOp_toNat, argHigh_toNat, cmdArg_toNat]
    generalize w.toNat / 2 ^ 32 = op at hop ⊢
    interval_cases op <;> simp
  · intro s rest r hq hin hd
    exact step_refused hq hin hd

/-! ## Pseudo-commands (R94) -/

/-- The word of `ENC.SYM c` is 0x200000000 + c. -/
theorem commandEvent_encSym (c : Symbol) :
    commandEvent (.encSym c) = [.command (BitVec.ofNat 36 (0x200000000 + c.toNat))] := by
  have hw : cmdWord 2 (symArgWord c) = BitVec.ofNat 36 (0x200000000 + c.toNat) := by
    apply BitVec.eq_of_toNat_eq
    rw [cmdWord_toNat, symArgWord_toNat, BitVec.toNat_ofNat, Nat.mod_eq_of_lt (by omega)]
    rfl
  rw [← hw]
  rfl

/-- The word of `DEC.CODE k` is 0x600000000 + k. -/
theorem commandEvent_decCode (k : Code) :
    commandEvent (.decCode k) = [.command (BitVec.ofNat 36 (0x600000000 + k.toNat))] := by
  have hw : cmdWord 6 k = BitVec.ofNat 36 (0x600000000 + k.toNat) := by
    apply BitVec.eq_of_toNat_eq
    rw [cmdWord_toNat, BitVec.toNat_ofNat, Nat.mod_eq_of_lt (by omega)]
    rfl
  rw [← hw]
  rfl

theorem symEvents_eq_map (d : List Symbol) :
    symEvents d = d.map fun c => HostEvent.command (BitVec.ofNat 36 (0x200000000 + c.toNat)) := by
  induction d with
  | nil => rfl
  | cons c d ih => rw [symEvents, commandEvent_encSym, ih]; rfl

theorem codeEvents_eq_map (ks : List Code) :
    codeEvents ks = ks.map fun k => HostEvent.command (BitVec.ofNat 36 (0x600000000 + k.toNat)) := by
  induction ks with
  | nil => rfl
  | cons k ks ih => rw [codeEvents, commandEvent_decCode, ih]; rfl

/-- Settles O60: the words of one operand, in order, and the four fixed words around a whole call. -/
theorem pseudoCommandsExpandToWords : Obligations.PseudoCommandsExpandToWords :=
  ⟨symEvents_eq_map, codeEvents_eq_map, fun _ => rfl, fun _ => rfl, rfl, fun _ => rfl⟩

end Sys2Proof.Machine

/-! PROOFS. The six dictionary requests: what each answers on a bound and on an unbound code, and how `next_code` moves
in a step (R104 to R114). -/

namespace Sys2Proof.Machine

/-! ## The requests as acts on the owner's dictionary -/

theorem exec_dSeed (u : UnitId) (s : State) :
    exec (.dSeed u) s = .next ((s.withDict u (s.dictOf u).seed).withReply none) := rfl
theorem exec_dBound (u : UnitId) (k : Code) (s : State) :
    exec (.dBound u k) s = .next (s.withReply (some (u, .bound ((s.dictOf u).bound k)))) := rfl
theorem exec_dLookup (u : UnitId) (p : Code) (c : Symbol) (s : State) : exec (.dLookup u p c) s =
    andThen ((s.dictOf u).lookup p c) fun r => .next (s.withReply (some (u, .lookup r))) := rfl
theorem exec_dInsert (u : UnitId) (p : Code) (c : Symbol) (s : State) : exec (.dInsert u p c) s =
    andThen ((s.dictOf u).insert s.config.dictCap p c) fun r =>
      .next ((s.withDict u r.2).withReply (some (u, .insert r.1))) := rfl
theorem exec_dFetch (u : UnitId) (k : Code) (s : State) : exec (.dFetch u k) s =
    andThen ((s.dictOf u).fetch k) fun w => .next (s.withReply (some (u, .fetch w))) := rfl
theorem exec_dFirst (u : UnitId) (k : Code) (s : State) : exec (.dFirst u k) s =
    andThen ((s.dictOf u).first k) fun c => .next (s.withReply (some (u, .first c))) := rfl

/-! ## Unbound codes (R112) -/

section
variable {d : Dict} {k : Code} (h : d.bound k = false)
include h

theorem lookup_of_unbound (c : Symbol) : d.lookup k c = .refused (.unboundCode k) := by
  simp [Dict.lookup, h]

theorem insert_of_unbound (cap : DictCap) (c : Symbol) : d.insert cap k c = .refused (.unboundCode k) := by
  simp [Dict.insert, h]

theorem fetch_of_unbound : d.fetch k = .refused (.unboundCode k) := by
  simp [Dict.fetch, h]

theorem first_of_unbound : d.first k = .refused (.unboundCode k) := by
  simp [Dict.first, h]

end

/-- Settles O42: the four operations on an unbound code are refused, and so are their requests. -/
theorem unboundRequestsAreRefused : Obligations.UnboundRequestsAreRefused := by
  intro u k c s hk
  have hb : (s.dictOf u).bound k = false := (bound_false_iff _ k).2 hk
  refine ⟨?_, ?_, ?_, ?_⟩
  · rw [exec_dLookup, lookup_of_unbound hb, andThen_refused]
  · rw [exec_dInsert, insert_of_unbound hb, andThen_refused]
  · rw [exec_dFetch, fetch_of_unbound hb, andThen_refused]
  · rw [exec_dFirst, first_of_unbound hb, andThen_refused]

/-! ## `D.SEED` and `D.BOUND` -/

/-- A bound seed code stands for its one symbol (R29, R102). -/
theorem decMap_zext32 {d : Dict} {c : Symbol} (hb : d.bound (zext32 c) = true) : d.decMap (zext32 c) = some [c] :=
  decMap_eq_some.2 ⟨_, str_seed hb (by rw [zext32_toNat]; exact c.isLt), by rw [lowSym_zext32]; rfl⟩

/-- After seeding exactly the seed codes are bound (R104). -/
theorem bound_seed_iff (d : Dict) (k : Code) : d.seed.bound k = true ↔ k.toNat < 256 :=
  bound_iff d.seed k

/-- Settles O35: the bound codes of a seeded dictionary are the seeds, and a seed's String reads no cell. -/
theorem seedWritesOnlyNextCode : Obligations.SeedWritesOnlyNextCode := by
  intro u s
  refine ⟨_, exec_dSeed u s, rfl, ?_, ?_⟩
  all_goals rw [State.withReply_dictOf, State.withDict_dictOf]
  · exact bound_seed_iff _
  · exact fun c => decMap_zext32 ((bound_seed_iff _ _).2 (by rw [zext32_toNat]; exact c.isLt))

theorem bound_eq_decide (d : Dict) (k : Code) : d.bound k = decide (k.toNat < d.nextCode.toNat) := by
  rw [Bool.eq_iff_iff, bound_iff, decide_eq_true_iff]

/-- Settles O36: `D.BOUND` is one comparison of numbers. -/
theorem boundAnswersBelowNextCode : Obligations.BoundAnswersBelowNextCode := by
  intro u k s
  rw [exec_dBound, bound_eq_decide]
  rfl

/-! ## `D.FETCH` and `D.FIRST` -/

/-- A code has a String exactly when `D.FETCH` answers it (R110). -/
theorem str_eq_some {d : Dict} {k : Code} {w : Str} : d.str k = some w ↔ d.fetch k = .next w := by
  unfold Dict.str
  split <;> simp [*]

/-- Only a bound code has a String (R102). -/
theorem bound_of_str {d : Dict} {k : Code} {w : Str} (h : d.str k = some w) : d.bound k = true := by
  by_contra hb
  rw [str_eq_some, fetch_of_unbound (by simpa using hb)] at h
  cases h

theorem exec_dFetch_of_str {u : UnitId} {k : Code} {s : State} {w : Str} (h : (s.dictOf u).str k = some w) :
    exec (.dFetch u k) s = .next (s.withReply (some (u, .fetch w))) := by
  rw [exec_dFetch, str_eq_some.1 h, andThen_next]

/-- Settles O40: the String of a seed is its symbol, that of an assigned code its parent's and its own symbol. -/
theorem fetchAnswersTheString : Obligations.FetchAnswersTheString := by
  intro u k s hd hk
  have hb := (bound_iff _ k).2 hk
  obtain ⟨w, hw, -, -, hlen⟩ := str_spec hd hb
  refine ⟨w, exec_dFetch_of_str hw, fun hseed => ?_, fun e h256 he => ?_, fun h256 => ?_⟩
  · rw [str_seed hb hseed] at hw
    exact (Option.some.inj hw).symm
  · obtain ⟨v, hv, hvw⟩ := str_assigned hd hb h256 he
    exact ⟨v, exec_dFetch_of_str hv, Option.some.inj (hw.symm.trans hvw)⟩
  · rw [Str.toList, List.length_cons]
    omega

/-- Settles O41: both requests walk the same chain. -/
theorem firstAnswersTheFirstSymbol : Obligations.FirstAnswersTheFirstSymbol := by
  intro u k s hd hk
  obtain ⟨w, hw, -, hfirst, -⟩ := str_spec hd ((bound_iff _ k).2 hk)
  refine ⟨w, exec_dFetch_of_str hw, ?_⟩
  rw [exec_dFirst, hfirst]
  rfl

/-! ## `D.LOOKUP` -/

/-- What `D.LOOKUP` answers, as an equivalence for each answer (R106). -/
theorem lookup_answers {cap : DictCap} {d : Dict} {p : Code} (c : Symbol) (hcap : cap.wf = true) (hd : d.Inv cap)
    (hp : d.bound p = true) : ∃ r, d.lookup p c = .next r ∧
      (∀ k, r = .hit k ↔ 256 ≤ k.toNat ∧ k.toNat < d.nextCode.toNat ∧ d.mem.read k.toNat = some ⟨p, c⟩ ∧
        ∀ j, 256 ≤ j → j < k.toNat → d.mem.read j ≠ some ⟨p, c⟩) ∧
      (r = .miss ↔ ∀ k, 256 ≤ k → k < d.nextCode.toNat → d.mem.read k ≠ some ⟨p, c⟩) := by
  rcases lookup_cases c hd hp with ⟨j, h256, hlt, hread, hleast, hl⟩ | ⟨hnone, hl⟩
  · have hj : (BitVec.ofNat 32 j).toNat = j :=
      Nat.mod_eq_of_lt (hlt.trans_le (hd.high.trans (limit_le hcap)))
    refine ⟨_, hl, fun k => ⟨?_, ?_⟩, ?_⟩
    · rintro ⟨⟩
      rw [hj]
      exact ⟨h256, hlt, hread, hleast⟩
    · rintro ⟨k256, -, kread, kleast⟩
      have hjk : ¬ j < k.toNat := fun h => kleast j h256 h hread
      have hkj : ¬ k.toNat < j := fun h => hleast k.toNat k256 h kread
      exact congrArg _ (BitVec.eq_of_toNat_eq (by omega))
    · exact iff_of_false (by simp) fun h => h j h256 hlt hread
  · exact ⟨_, hl, fun k => iff_of_false (by simp) fun ⟨k256, klt, kread, _⟩ => hnone _ k256 klt kread,
      iff_of_true rfl hnone⟩

/-- Settles O37: the scan answers the first cell that holds the pair, and a `Code` can name every cell. -/
theorem lookupAnswersTheLeastCode : Obligations.LookupAnswersTheLeastCode := by
  intro u p c s hcap hd hp
  obtain ⟨r, hl, hhit, hmiss⟩ := lookup_answers c hcap hd ((bound_iff _ p).2 hp)
  exact ⟨r, by rw [exec_dLookup, hl]; rfl, hhit, hmiss⟩

/-- The codes of a String one symbol longer are the cells that hold its last symbol and the code of the rest (R31). -/
theorem encMap_snoc_iff {cap : DictCap} {d : Dict} (hd : d.Inv cap) (hu : d.Unique) {w : List Symbol} {p : Code}
    (hw : d.encMap w p) (c : Symbol) (k : Code) :
    d.encMap (w ++ [c]) k ↔ 256 ≤ k.toNat ∧ k.toNat < d.nextCode.toNat ∧ d.mem.read k.toNat = some ⟨p, c⟩ := by
  obtain ⟨v, hv, rfl⟩ := decMap_eq_some.1 hw.2
  constructor
  · intro h
    obtain ⟨h256, q, -, hread, hq⟩ := encMap_snoc hd v.toList_ne_nil h
    obtain rfl : q = p := encMap_inj hu hq hw
    exact ⟨h256, (bound_iff d k).1 h.1, hread⟩
  · rintro ⟨h256, hlt, hread⟩
    have hb := (bound_iff d k).2 hlt
    obtain ⟨v', hv', hk⟩ := str_assigned hd hb h256 hread
    obtain rfl : v = v' := Option.some.inj (hv.symm.trans hv')
    exact ⟨hb, decMap_eq_some.2 ⟨_, hk, Str.toList_snoc v c⟩⟩

/-- Where no String is bound twice, the cell of a bound String is the only one that holds its pair, and so the least. -/
theorem encMap_snoc_iff_least {cap : DictCap} {d : Dict} (hd : d.Inv cap) (hu : d.Unique) {w : List Symbol} {p : Code}
    (hw : d.encMap w p) (c : Symbol) (k : Code) :
    d.encMap (w ++ [c]) k ↔ 256 ≤ k.toNat ∧ k.toNat < d.nextCode.toNat ∧ d.mem.read k.toNat = some ⟨p, c⟩ ∧
      ∀ j, 256 ≤ j → j < k.toNat → d.mem.read j ≠ some ⟨p, c⟩ := by
  constructor
  · intro h
    obtain ⟨h256, hlt, hread⟩ := (encMap_snoc_iff hd hu hw c k).1 h
    refine ⟨h256, hlt, hread, fun j j256 hjk jread => ?_⟩
    have hj : (BitVec.ofNat 32 j).toNat = j := Nat.mod_eq_of_lt (hjk.trans k.isLt)
    have hmap : d.encMap (w ++ [c]) (BitVec.ofNat 32 j) :=
      (encMap_snoc_iff hd hu hw c _).2 (by rw [hj]; exact ⟨j256, hjk.trans hlt, jread⟩)
    rw [← encMap_inj hu hmap h, hj] at hjk
    exact lt_irrefl j hjk
  · rintro ⟨h256, hlt, hread, -⟩
    exact (encMap_snoc_iff hd hu hw c k).2 ⟨h256, hlt, hread⟩

/-- Settles O38: where no String is bound twice, at most one cell holds the pair, and it is the String's. -/
theorem lookupIsTheEncodeView : Obligations.LookupIsTheEncodeView := by
  intro u p c s w hcap hd hu hw
  obtain ⟨v, hv, -⟩ := decMap_eq_some.1 hw
  have hp := bound_of_str hv
  obtain ⟨r, hl, hhit, -⟩ := lookup_answers c hcap hd hp
  have hview : ∀ k, r = .hit k ↔ (s.dictOf u).encMap (w ++ [c]) k := fun k =>
    (hhit k).trans (encMap_snoc_iff_least hd hu ⟨hp, hw⟩ c k).symm
  refine ⟨r, by rw [exec_dLookup, hl]; rfl, hview, ?_⟩
  simp only [← hview]
  cases r <;> simp

/-! ## `D.INSERT` -/

/-- `D.INSERT` on a full dictionary answers `Full` (R107). -/
theorem insert_full {cap : DictCap} {d : Dict} {p : Code} (c : Symbol) (hp : d.bound p = true)
    (hf : d.isFull cap = true) : d.insert cap p c = .next (.full, d) := by
  simp [Dict.insert, hp, hf]

/-- A dictionary with a free cell is not full. -/
theorem not_full_of_lt {cap : DictCap} {d : Dict} (h : d.nextCode.toNat < cap.limit) : d.isFull cap = false := by
  by_contra hf
  rw [Bool.not_eq_false, isFull_iff] at hf
  rw [hf] at h
  exact lt_irrefl _ h

/-- Settles O39: at `DICT_CAP` nothing is written; below it the cell at `next_code` exists and is the one written. -/
theorem insertBindsTheNextCode : Obligations.InsertBindsTheNextCode := by
  intro u p c s hp
  have hb := (bound_iff _ p).2 hp
  refine ⟨fun hfull => ?_, fun h256 hlt hcap => ?_⟩
  · rw [exec_dInsert, insert_full c hb ((isFull_iff _ _).2 hfull), andThen_next, State.withDict_self]
    rfl
  · have h32 := hlt.trans_le (limit_le hcap)
    have hcode := lowCode_toNat_of_lt h32
    have hcell : cellExists s.config.dictCap (lowCode (s.dictOf u).nextCode).toNat = true := by
      rw [cellExists_iff, hcode]
      exact ⟨h256, hlt⟩
    refine ⟨(s.dictOf u).mem.write (lowCode (s.dictOf u).nextCode).toNat ⟨p, c⟩, ?_, nextCode_succ_toNat h32, ?_, ?_,
      ?_⟩
    · rw [exec_dInsert, insert_ok c hb (not_full_of_lt hlt) hcell]
      rfl
    · rw [hcode]
      exact Memory.read_write_same _ _ _
    · rw [hcode]
      exact fun a ha => Memory.read_write_ne _ _ ha
    · intro hd
      obtain ⟨-, -, -, -, hstr, -, -⟩ := insert_str (c := c) hd hcap hb hlt
      exact hstr

/-! ## Prefixes (R109) -/

/-- Settles O50, by induction over the rest of the String, from its end: each symbol less is the step to the parent. -/
theorem prefixesOfBoundStringsAreBound : Obligations.PrefixesOfBoundStringsAreBound := by
  intro cap d k v w hd h hv
  induction w using List.reverseRecOn generalizing k with
  | nil => exact ⟨k, by rwa [List.append_nil] at h⟩
  | append_singleton w c ih =>
    rw [← List.append_assoc] at h
    obtain ⟨-, p, -, -, hp⟩ := encMap_snoc hd (List.append_ne_nil_of_left_ne_nil hv w) h
    exact ih p hp

/-! ## How `next_code` moves (R77, R108) -/

/-- Where `ENC.SYM` is admitted, it keeps the dictionary or inserts (R121). -/
theorem Encoder.symRule_dict {cap : DictCap} {c : Symbol} {e e' : Encoder} (h : e.symRule cap c = .next e') :
    e'.dict = e.dict ∨ e.dict.Inserted e'.dict := by
  rcases Encoder.symRule_cases h with ⟨-, rfl⟩ | ⟨-, k, -, rfl⟩ | ⟨-, -, h⟩
  · exact .inl rfl
  · exact .inl rfl
  · rcases Encoder.missRule_cases h with ⟨-, rfl⟩ | ⟨-, -, -, rfl⟩
    · exact .inl rfl
    · exact .inr ⟨_, rfl⟩

/-- Where `DEC.CODE` is admitted, it keeps the dictionary or inserts (R141). -/
theorem Decoder.codeRule_dict {cap : DictCap} {k : Code} {d d' : Decoder} (h : d.codeRule cap k = .next d') :
    d'.dict = d.dict ∨ d.dict.Inserted d'.dict := by
  rcases Decoder.codeRule_cases h with ⟨-, h⟩ | ⟨-, -, rfl⟩ | ⟨-, w, -, h⟩
  · rcases Decoder.firstCodeRule_cases h with ⟨-, rfl⟩ | ⟨-, w, -, rfl⟩
    · exact .inl rfl
    · exact .inl rfl
  · exact .inl rfl
  · rcases Decoder.emitRule_cases h with ⟨-, rfl⟩ | ⟨-, -, -, rfl⟩
    · exact .inl rfl
    · exact .inr ⟨_, rfl⟩

/-- The three things a command can do to a dictionary of `u`: keep it, seed it, insert; the last two only to its
owner's, a `START` the one and a data command the other. -/
inductive Instr.DictEffect (i : Instr) (u : UnitId) (d : Dict) : Dict → Prop where
  | keep : DictEffect i u d d
  | seed (ho : ownerOf i = u) (hn : i.mnemonic ∈ ["ENC.START", "DEC.START"]) : DictEffect i u d d.seed
  | insert {d' : Dict} (ho : ownerOf i = u) (hn : i.mnemonic ∈ ["ENC.SYM", "DEC.CODE"]) (h : d.Inserted d') :
      DictEffect i u d d'

/-- A data command that keeps its owner's dictionary or inserts. -/
theorem Instr.DictEffect.of_data {i : Instr} {u : UnitId} {d d' : Dict} (ho : ownerOf i = u)
    (hn : i.mnemonic ∈ ["ENC.SYM", "DEC.CODE"]) (h : d' = d ∨ d.Inserted d') : Instr.DictEffect i u d d' := by
  rcases h with rfl | h
  · exact .keep
  · exact .insert ho hn h

theorem exec_encCommand_dict {i : Instr} {s t : State} (hu : commandUnit i = some .enc) (h : exec i s = .next t)
    (u : UnitId) : Instr.DictEffect i u (s.dictOf u) (t.dictOf u) := by
  cases u with
  | dec => rw [exec_encCommand_frame hu h]; exact .keep
  | enc =>
    rcases encCommand_cases hu with rfl | ⟨c, rfl⟩ | rfl
    · rcases execEncStart_cases h with ⟨-, rfl⟩ | ⟨-, rfl⟩
      · exact .seed rfl (by simp [Instr.mnemonic])
      · exact .keep
    · rcases execEncSym_cases h with ⟨-, e', he, rfl⟩ | ⟨-, rfl⟩ | ⟨-, rfl⟩
      · exact .of_data rfl (by simp [Instr.mnemonic]) (Encoder.symRule_dict he)
      · exact .keep
      · exact .keep
    · rcases execEncEnd_cases h with ⟨-, rfl⟩ | ⟨-, rfl⟩ | ⟨-, rfl⟩ <;> exact .keep

theorem exec_decCommand_dict {i : Instr} {s t : State} (hu : commandUnit i = some .dec) (h : exec i s = .next t)
    (u : UnitId) : Instr.DictEffect i u (s.dictOf u) (t.dictOf u) := by
  cases u with
  | enc => rw [exec_decCommand_frame hu h]; exact .keep
  | dec =>
    rcases decCommand_cases hu with rfl | ⟨k, rfl⟩ | rfl
    · rcases execDecStart_cases h with ⟨-, rfl⟩ | ⟨-, rfl⟩
      · exact .seed rfl (by simp [Instr.mnemonic])
      · exact .keep
    · rcases execDecCode_cases h with ⟨-, d', hd, rfl⟩ | ⟨-, rfl⟩ | ⟨-, rfl⟩
      · exact .of_data rfl (by simp [Instr.mnemonic]) (Decoder.codeRule_dict hd)
      · exact .keep
      · exact .keep
    · rcases execDecEnd_cases h with ⟨-, rfl⟩ | ⟨-, rfl⟩ | ⟨-, rfl⟩ <;> exact .keep

/-- What a command does to each dictionary. -/
theorem exec_command_dict {i : Instr} {s t : State} (hu : commandUnit i ≠ none) (h : exec i s = .next t)
    (u : UnitId) : Instr.DictEffect i u (s.dictOf u) (t.dictOf u) := by
  obtain ⟨v, hv⟩ := Option.ne_none_iff_exists'.1 hu
  cases v with
  | enc => exact exec_encCommand_dict hv h u
  | dec => exact exec_decCommand_dict hv h u

/-- An insertion counts `next_code` up by one: 33 bits hold 2^32 + 1 (R30, R108). -/
theorem Dict.Inserted.nextCode_toNat {d d' : Dict} (h : d.Inserted d') (hd : d.nextCode.toNat ≤ 2 ^ 32) :
    d'.nextCode.toNat = d.nextCode.toNat + 1 := by
  obtain ⟨e, rfl⟩ := h
  exact BitVec.toNat_add_of_lt (by simp; omega)

/-- Every dictionary of the block is within its limit, which 32 bits count up to (R43 item 1). -/
theorem State.Inv.nextCode_le {s : State} (hs : s.Inv) (u : UnitId) : (s.dictOf u).nextCode.toNat ≤ 2 ^ 32 := by
  have hlimit := limit_le hs.config
  cases u with
  | enc => exact hs.enc.dict.high.trans hlimit
  | dec => exact hs.dec.dict.high.trans hlimit

/-- Settles O48: reset seeds both dictionaries, a command does one of its three things to each, and no request stands
between commands. -/
theorem nextCodeGrowsByAtMostOne : Obligations.NextCodeGrowsByAtMostOne := by
  intro s t u hs h
  rcases step_cases h with ⟨-, rfl⟩ | ⟨ws, rest, -, hq, hi, rfl⟩ | ⟨w, rest, i, hf, -, -, hd, h⟩ |
    ⟨w, rest, r, -, -, -, -, rfl⟩ | ⟨v, w, i, -, hq, -, -⟩
  · exact .inr (.inl rfl)
  · exact .inl ⟨by cases u <;> rfl, .inl ⟨hq, ws, rest, hi⟩⟩
  · have hinput : (s.withInput rest).dictOf u = s.dictOf u := by cases u <;> rfl
    have heffect := exec_command_dict (decodeCommand_unit hd) h u
    rw [hinput] at heffect
    generalize t.dictOf u = d' at heffect
    cases heffect with
    | keep => exact .inr (.inl rfl)
    | seed ho hn => exact .inl ⟨rfl, .inr ⟨i, _, hf, ho, hn⟩⟩
    | insert ho hn hins => exact .inr (.inr ⟨hins.nextCode_toNat (hs.nextCode_le u), i, _, hf, ho, hn⟩)
  · exact .inr (.inl (by cases u <;> rfl))
  · simp [hs.port] at hq

end Sys2Proof.Machine

/-! PROOFS. The three commands of the encoder: which of them its state admits, what `ENC.SYM` does to the registers and to
the Strings they stand for, and that a code it emits is that of the longest bound String the input begins with (R120 to R138). -/

namespace Sys2Proof.Machine

/-! ## Admission (R123) -/

theorem onEnc_of_next {s : State} {f : Encoder → Result Encoder} {e : Encoder} (h : f s.enc = .next e) :
    s.onEnc f = .next (s.withEnc e) :=
  onEnc_eq_next.2 ⟨e, h, rfl⟩

section
variable {s : State} {kind : CmdKind} (v : Arg) (rule : Encoder → Result Encoder)

theorem onEnc_judged_of_admitted (h : admission s.enc.ctl.state kind = .admitted) :
    (s.onEnc fun e => e.judged kind v rule) = s.onEnc rule := by
  simp only [State.onEnc, Encoder.judged, h]

theorem onEnc_judged_of_protocol (h : admission s.enc.ctl.state kind = .protocol) :
    (s.onEnc fun e => e.judged kind v rule) = .next (s.withEnc (s.enc.raise .protocol v)) :=
  onEnc_of_next (by simp only [Encoder.judged, h])

theorem onEnc_judged_of_ignored (h : admission s.enc.ctl.state kind = .ignored) :
    (s.onEnc fun e => e.judged kind v rule) = .next s :=
  onEnc_of_next (e := s.enc) (by simp only [Encoder.judged, h])

end

/-- Settles O17: a cell of the table is what `admission` answers in it. -/
theorem encoderAdmissionTable : Obligations.EncoderAdmissionTable := by
  intro s c
  rw [exec_encStart, exec_encSym, exec_encEnd]
  refine ⟨fun hq => ?_, fun hq => ?_, fun hq => ?_⟩
  · have hnot : s.enc.ctl.state ≠ .run := by rcases hq with hq | hq <;> simp [hq]
    exact ⟨onEnc_judged_of_admitted _ _ (admitted_start.2 hnot), onEnc_judged_of_protocol _ _ (protocol_data.2 hq),
      onEnc_judged_of_protocol _ _ (protocol_finish.2 hq)⟩
  · exact ⟨onEnc_judged_of_protocol _ _ (protocol_start.2 hq), onEnc_judged_of_admitted _ _ (admitted_data.2 hq),
      onEnc_judged_of_admitted _ _ (admitted_finish.2 hq)⟩
  · have hnot : s.enc.ctl.state ≠ .run := by simp [hq]
    exact ⟨onEnc_judged_of_admitted _ _ (admitted_start.2 hnot), onEnc_judged_of_ignored _ _ (ignored_data.2 hq),
      onEnc_judged_of_ignored _ _ (ignored_finish.2 hq)⟩

/-- The encoder at the beginning of a call (R120). -/
def Encoder.started (e : Encoder) : Encoder :=
  { e with dict := e.dict.seed, matchValid := false, out := [], ctl := e.ctl.start }

/-- The encoder at the end of a call that completes (R122). -/
def Encoder.ended (e : Encoder) : Encoder :=
  { e with
    out := if e.matchValid then e.out ++ [e.matchCode] else e.out
    matchValid := false
    ctl := e.ctl.finish }

theorem exec_encStart_of_not_run {s : State} (h : s.enc.ctl.state ≠ .run) :
    exec .encStart s = .next (s.withEnc s.enc.started) := by
  rw [exec_encStart, onEnc_judged_of_admitted _ _ (admitted_start.2 h)]
  rfl

theorem exec_encSym_of_run {s : State} (c : Symbol) (h : s.enc.ctl.state = .run) :
    exec (.encSym c) s = s.onEnc (Encoder.symRule s.config.dictCap c) := by
  rw [exec_encSym, onEnc_judged_of_admitted _ _ (admitted_data.2 h)]

theorem exec_encEnd_of_run {s : State} (h : s.enc.ctl.state = .run) :
    exec .encEnd s = .next (s.withEnc s.enc.ended) := by
  rw [exec_encEnd, onEnc_judged_of_admitted _ _ (admitted_finish.2 h)]
  rfl

/-- Settles O13: `ENC.START` is admitted exactly where the unit is not in `RUN`. -/
theorem encStartBeginsACall : Obligations.EncStartBeginsACall := by
  refine fun s => ⟨exec_encStart_of_not_run, fun hrun => ?_⟩
  rw [exec_encStart, onEnc_judged_of_protocol _ _ (protocol_start.2 hrun)]
  rfl

/-- Settles O16: the rule of `ENC.END`, with a match and without. -/
theorem encEndEmitsTheLastMatch : Obligations.EncEndEmitsTheLastMatch := by
  intro s hrun
  rw [exec_encEnd_of_run hrun]
  constructor
  · intro hv
    simp [Encoder.ended, hv]
  · intro hv
    simp [Encoder.ended, hv]

/-- Settles O31: the frame of an encoder command leaves the whole decoder unit, its entry memory with it. -/
theorem encoderCommandsTouchOnlyTheEncoder : Obligations.EncoderCommandsTouchOnlyTheEncoder := by
  intro i s t hu h
  have ht : t = s.withEnc t.enc := exec_encCommand_frame hu h
  refine ⟨ht, fun a => ?_⟩
  rw [ht, State.withEnc_dec]

/-! ## State transitions (R132) -/

/-- Taking an instruction or a refused word from its port leaves the encoder unit. -/
theorem fetch_enc {s s' : State} (h : (∃ i, fetch s = .run i s') ∨ fetch s = .illegal s') : s'.enc = s.enc := by
  rcases fetch_cases s with ⟨hf, -⟩ | ⟨ws, rest, hf, -⟩ | ⟨w, rest, j, hf, -⟩ | ⟨w, rest, r, hf, -⟩ |
    ⟨u, w, j, hf, -⟩ | ⟨u, w, r, hf, -⟩
  all_goals simp only [hf, Fetched.run.injEq, Fetched.illegal.injEq, reduceCtorEq, exists_false, or_false,
    false_or, exists_eq_left'] at h
  all_goals
    subst h
    rfl

section
variable {s t : State}

theorem exec_encStart_state (h : exec .encStart s = .next t) :
    (s.enc.ctl.state ≠ .run → t.enc.ctl.state = .run) ∧
    (s.enc.ctl.state = .run → t.enc.ctl.state = .fault ∧ t.enc.ctl.cause = .protocol) := by
  rcases execEncStart_cases h with ⟨hq, rfl⟩ | ⟨hq, rfl⟩
  · exact ⟨fun _ => rfl, fun hrun => absurd hrun hq⟩
  · exact ⟨fun hnot => absurd hq hnot, fun _ => ⟨rfl, rfl⟩⟩

theorem exec_encSym_state {c : Symbol} (h : exec (.encSym c) s = .next t) :
    (s.enc.ctl.state = .run →
      t.enc.ctl.state = .run ∨ (t.enc.ctl.state = .fault ∧ t.enc.ctl.cause = .dictFull)) ∧
    (s.enc.ctl.state = .idle ∨ s.enc.ctl.state = .done →
      t.enc.ctl.state = .fault ∧ t.enc.ctl.cause = .protocol) ∧
    (s.enc.ctl.state = .fault → t.enc = s.enc) := by
  rcases execEncSym_cases h with ⟨hq, e', he, rfl⟩ | ⟨hq, rfl⟩ | ⟨hq, rfl⟩
  · refine ⟨fun _ => ?_, by simp [hq], by simp [hq]⟩
    rcases symRule_control he with hctl | ⟨rfl, -⟩
    · exact .inl (by rw [State.withEnc_enc, hctl, hq])
    · exact .inr ⟨rfl, rfl⟩
  · exact ⟨fun hrun => by simp [hrun] at hq, fun _ => ⟨rfl, rfl⟩, fun hf => by simp [hf] at hq⟩
  · exact ⟨by simp [hq], by simp [hq], fun _ => rfl⟩

theorem exec_encEnd_state (h : exec .encEnd s = .next t) :
    (s.enc.ctl.state = .run → t.enc.ctl.state = .done) ∧
    (s.enc.ctl.state = .idle ∨ s.enc.ctl.state = .done →
      t.enc.ctl.state = .fault ∧ t.enc.ctl.cause = .protocol) ∧
    (s.enc.ctl.state = .fault → t.enc = s.enc) := by
  rcases execEncEnd_cases h with ⟨hq, rfl⟩ | ⟨hq, rfl⟩ | ⟨hq, rfl⟩
  · exact ⟨fun _ => rfl, by simp [hq], by simp [hq]⟩
  · exact ⟨fun hrun => by simp [hrun] at hq, fun _ => ⟨rfl, rfl⟩, fun hf => by simp [hf] at hq⟩
  · exact ⟨by simp [hq], by simp [hq], fun _ => rfl⟩

/-- An instruction that is no command of `ENC` keeps the encoder's control registers. -/
theorem exec_other_encCtl {i : Instr} (hu : commandUnit i ≠ some .enc) (h : exec i s = .next t) :
    t.enc.ctl = s.enc.ctl := by
  cases hi : commandUnit i with
  | none =>
    rcases exec_request_cases hi h with ⟨u, -, rfl⟩ | ⟨u, p, c, r, d, -, -, rfl⟩ | ⟨r, -, rfl⟩ <;> simp
  | some u =>
    cases u with
    | enc => exact absurd hi hu
    | dec => rw [exec_decCommand_frame hi h, State.withDec_enc]

end

/-- Settles O18: what `fetch` finds decides the step, and each command of `ENC` has its row of the table. -/
theorem encoderStateTransitions : Obligations.EncoderStateTransitions := by
  intro s t h
  refine ⟨fun hf => ?_, fun s' hf => ?_, fun s' hf => ?_, fun i s' hf => ?_⟩
  · simp only [step, hf] at h
    cases h
    rfl
  · simp only [step, hf] at h
    cases h
    rfl
  · simp only [step, hf] at h
    cases h
    rw [State.refuseWord_enc, fetch_enc (.inr hf)]
  · simp only [step, hf] at h
    rw [← fetch_enc (.inl ⟨i, hf⟩)]
    refine ⟨?_, ?_, ?_, ?_⟩
    · rintro rfl
      exact exec_encStart_state h
    · rintro c rfl
      exact exec_encSym_state h
    · rintro rfl
      exact exec_encEnd_state h
    · intro hu
      rw [exec_other_encCtl hu h]

/-! ## `ENC.SYM` on the registers (R121) -/

/-- The encoder after it has emitted its match and inserted the candidate (R121). -/
def Encoder.emit (c : Symbol) (e : Encoder) : Encoder :=
  { e with
    out := e.out ++ [e.matchCode]
    dict := { mem := e.dict.mem.write (lowCode e.dict.nextCode).toNat ⟨e.matchCode, c⟩
              nextCode := e.dict.nextCode + 1 }
    matchCode := zext32 c }

@[simp] theorem Encoder.emit_ctl (c : Symbol) (e : Encoder) : (e.emit c).ctl = e.ctl := rfl
@[simp] theorem Encoder.emit_matchValid (c : Symbol) (e : Encoder) : (e.emit c).matchValid = e.matchValid := rfl
@[simp] theorem Encoder.emit_matchCode (c : Symbol) (e : Encoder) : (e.emit c).matchCode = zext32 c := rfl
@[simp] theorem Encoder.emit_out (c : Symbol) (e : Encoder) : (e.emit c).out = e.out ++ [e.matchCode] := rfl

section
variable {cap : DictCap} {e : Encoder} {c : Symbol}

theorem Encoder.symRule_of_noMatch (hv : e.matchValid = false) :
    e.symRule cap c = .next { e with matchCode := zext32 c, matchValid := true } := by
  simp [Encoder.symRule, hv]

theorem Encoder.symRule_of_hit {k : Code} (hv : e.matchValid = true)
    (hl : e.dict.lookup e.matchCode c = .next (.hit k)) : e.symRule cap c = .next { e with matchCode := k } := by
  simp [Encoder.symRule, hv, hl]

theorem Encoder.symRule_of_full (hv : e.matchValid = true) (hl : e.dict.lookup e.matchCode c = .next .miss)
    (hf : e.dict.isFull cap = true) : e.symRule cap c = .next (e.raise .dictFull (zext32 c)) := by
  simp [Encoder.symRule, Encoder.missRule, hv, hl, hf]

/-- In a dictionary with a free cell that cell exists, at `next_code[31:0]` (R28, R107). -/
theorem Dict.Inv.nextCell {d : Dict} (hd : d.Inv cap) (hcap : cap.wf = true) (hlt : d.nextCode.toNat < cap.limit) :
    cellExists cap (lowCode d.nextCode).toNat = true := by
  rw [cellExists_iff, lowCode_toNat_of_lt (hlt.trans_le (limit_le hcap))]
  exact ⟨hd.low, hlt⟩

theorem Encoder.symRule_of_room (hv : e.matchValid = true) (hl : e.dict.lookup e.matchCode c = .next .miss)
    (hb : e.dict.bound e.matchCode = true) (hcap : cap.wf = true) (hd : e.dict.Inv cap)
    (hlt : e.dict.nextCode.toNat < cap.limit) : e.symRule cap c = .next (e.emit c) := by
  have hfull := not_full_of_lt hlt
  simp [Encoder.symRule, Encoder.missRule, hv, hl, hfull, insert_ok c hb hfull (hd.nextCell hcap hlt), Encoder.emit]

end

/-- Settles O14: the answer of `D.LOOKUP`, and after a miss the room, decide what `ENC.SYM` does. -/
theorem encSymFollowsTheLoopBody : Obligations.EncSymFollowsTheLoopBody := by
  intro s c hrun
  rw [exec_encSym_of_run c hrun]
  refine ⟨fun hv => onEnc_of_next (Encoder.symRule_of_noMatch hv), fun hv hcap hd hlt => ?_⟩
  have hb := (bound_iff _ _).2 hlt
  obtain ⟨r, hl, hhit, hmiss⟩ := lookup_answers c hcap hd hb
  refine ⟨fun k h256 hk hread hleast => ?_, fun hnone => ⟨fun hfull => ?_, fun hroom => ?_⟩⟩
  · have hk32 : (BitVec.ofNat 32 k).toNat = k := Nat.mod_eq_of_lt (hk.trans_le (hd.high.trans (limit_le hcap)))
    have hr : r = .hit (BitVec.ofNat 32 k) := (hhit _).2 (by rw [hk32]; exact ⟨h256, hk, hread, hleast⟩)
    exact onEnc_of_next (Encoder.symRule_of_hit hv (hr ▸ hl))
  · exact onEnc_of_next (Encoder.symRule_of_full hv (hmiss.2 hnone ▸ hl) ((isFull_iff _ _).2 hfull))
  · obtain ⟨-, -, -, -, -, hnew, hold⟩ := insert_str (c := c) hd hcap hb hroom
    exact ⟨_, onEnc_of_next (Encoder.symRule_of_room hv (hmiss.2 hnone ▸ hl) hb hcap hd hroom), hnew, hold⟩

/-! ## `ENC.SYM` on Strings (R24, R31) -/

theorem Encoder.matchStr_of_noMatch {e : Encoder} (hv : e.matchValid = false) : e.matchStr = some [] := by
  simp [Encoder.matchStr, hv]

theorem Encoder.matchStr_of_match {e : Encoder} (hv : e.matchValid = true) :
    e.matchStr = e.dict.decMap e.matchCode := by
  simp [Encoder.matchStr, hv]

section
variable {cap : DictCap} {e : Encoder} {m : List Symbol} (hcap : cap.wf = true) (he : e.Inv cap)
  (hm : e.matchStr = some m)
include he hm

/-- `match_code` is a code of the match. -/
theorem Encoder.Inv.encMap_match (hv : e.matchValid = true) : e.dict.encMap m e.matchCode :=
  ⟨he.matchBound hv, by rwa [← Encoder.matchStr_of_match hv]⟩

/-- Only the empty match is a match of length 0. -/
theorem Encoder.Inv.matchValid_iff : e.matchValid = true ↔ m ≠ [] := by
  constructor
  · intro hv
    obtain ⟨w, -, rfl⟩ := decMap_eq_some.1 (he.encMap_match hm hv).2
    exact w.toList_ne_nil
  · intro hne
    by_contra hv
    rw [Encoder.matchStr_of_noMatch (by simpa using hv)] at hm
    exact hne (Option.some.inj hm).symm

include hcap

/-- A candidate that is bound becomes the match (R121). -/
theorem Encoder.Inv.symRule_of_bound {c : Symbol} {k : Code} (hk : e.dict.encMap (m ++ [c]) k) :
    e.symRule cap c = .next { e with matchCode := k, matchValid := true } := by
  cases hv : e.matchValid with
  | false =>
    obtain rfl : m = [] := by
      by_contra hne
      simp [(he.matchValid_iff hm).2 hne] at hv
    rw [Encoder.symRule_of_noMatch hv, encMap_inj he.unique hk (encMap_symbol he.dict c)]
  | true =>
    obtain ⟨r, hl, hhit, -⟩ := lookup_answers c hcap he.dict (he.matchBound hv)
    have hr : r = .hit k :=
      (hhit k).2 ((encMap_snoc_iff_least he.dict he.unique (he.encMap_match hm hv) c k).1 hk)
    rw [Encoder.symRule_of_hit hv (hr ▸ hl), ← hv]

/-- A candidate that is not bound is one of a non-empty match, and `D.LOOKUP` answers `Miss` (R114, R121). -/
theorem Encoder.Inv.miss_of_unbound {c : Symbol} (hnot : ¬ ∃ k, e.dict.encMap (m ++ [c]) k) :
    e.matchValid = true ∧ e.dict.lookup e.matchCode c = .next .miss := by
  have hv : e.matchValid = true := by
    refine (he.matchValid_iff hm).2 fun hnil => hnot ⟨zext32 c, ?_⟩
    rw [hnil]
    exact encMap_symbol he.dict c
  obtain ⟨r, hl, hhit, -⟩ := lookup_answers c hcap he.dict (he.matchBound hv)
  cases r with
  | miss => exact ⟨hv, hl⟩
  | hit k =>
    exact absurd ⟨k, (encMap_snoc_iff_least he.dict he.unique (he.encMap_match hm hv) c k).2 ((hhit k).1 rfl)⟩ hnot

/-- Everything `ENC.SYM` in `RUN` can do to the match, as a String: extend it, find no room, or emit it (R121). -/
theorem Encoder.Inv.symRule_onStrings {c : Symbol} {e' : Encoder} (h : e.symRule cap c = .next e') :
    (∃ k, e.dict.encMap (m ++ [c]) k ∧ e' = { e with matchCode := k, matchValid := true }) ∨
    ((¬ ∃ k, e.dict.encMap (m ++ [c]) k) ∧ e' = e.raise .dictFull (zext32 c)) ∨
    ((¬ ∃ k, e.dict.encMap (m ++ [c]) k) ∧ e.matchValid = true ∧ e.dict.nextCode.toNat < cap.limit ∧
      e' = e.emit c) := by
  by_cases hbound : ∃ k, e.dict.encMap (m ++ [c]) k
  · obtain ⟨k, hk⟩ := hbound
    rw [he.symRule_of_bound hcap hm hk] at h
    cases h
    exact .inl ⟨k, hk, rfl⟩
  · obtain ⟨hv, hl⟩ := he.miss_of_unbound hcap hm hbound
    rcases Encoder.symRule_cases h with ⟨hv', -⟩ | ⟨-, k, hl', -⟩ | ⟨-, -, h⟩
    · simp [hv] at hv'
    · simp [hl] at hl'
    · rcases Encoder.missRule_cases h with ⟨-, rfl⟩ | ⟨hf, -, hcell, rfl⟩
      · exact .inr (.inl ⟨hbound, rfl⟩)
      · exact .inr (.inr ⟨hbound, hv, he.dict.lt_limit hf hcell, rfl⟩)

end

/-- A symbol, taken as the match, is the match of one symbol (R91). -/
theorem Encoder.matchStr_emit {cap : DictCap} {e : Encoder} (c : Symbol) (hv : e.matchValid = true)
    (hd : (e.emit c).dict.Inv cap) : (e.emit c).matchStr = some [c] := by
  have hv' : (e.emit c).matchValid = true := hv
  rw [Encoder.matchStr_of_match hv']
  exact (encMap_symbol hd c).2

/-- Settles O15: of the three things `ENC.SYM` can do, one extends the match and one emits it; the third is a fault. -/
theorem encSymOnStrings : Obligations.EncSymOnStrings := by
  intro s t c m hs hrun hm h htrun
  rw [exec_encSym_of_run c hrun] at h
  obtain ⟨e', he', rfl⟩ := onEnc_eq_next.1 h
  rcases hs.enc.symRule_onStrings hs.config hm he' with ⟨k, hk, rfl⟩ | ⟨-, rfl⟩ | ⟨hnot, hv, hlt, rfl⟩
  · exact ⟨fun _ => ⟨(Encoder.matchStr_of_match rfl).trans hk.2, rfl, rfl⟩, fun hnot => absurd ⟨k, hk⟩ hnot⟩
  · simp at htrun
  · refine ⟨fun hbound => absurd hbound hnot, fun _ => ?_⟩
    have hmatch := hs.enc.encMap_match hm hv
    obtain ⟨hd, hn, hlow, hold, ⟨w, hw, hnew⟩, -, -⟩ := insert_str (c := c) hs.enc.dict hs.config hmatch.1 hlt
    obtain ⟨w', hw', rfl⟩ := decMap_eq_some.1 hmatch.2
    obtain rfl : w = w' := Option.some.inj (hw.symm.trans hw')
    exact ⟨⟨_, hmatch, rfl⟩, ⟨bound_of_str hnew, decMap_eq_some.2 ⟨_, hnew, Str.toList_snoc w c⟩⟩, hn,
      fun j hj => congrArg _ (hold j hj), Encoder.matchStr_emit c hv hd⟩

/-! ## The longest match (R138) -/

/-- What `m ++ c :: rest` begins with begins with `m ++ [c]` itself, if it is longer than `m`. -/
theorem snoc_prefix_of_lt_length {α : Type} {m w rest : List α} {c : α} (h : w <+: m ++ c :: rest)
    (hlt : m.length < w.length) : m ++ [c] <+: w := by
  refine List.prefix_of_prefix_length_le ⟨rest, by simp⟩ h ?_
  rw [List.length_append, List.length_singleton]
  exact hlt

/-- Settles O19: with `m ++ [c]` unbound, so is everything that begins with it, a dictionary being closed under
prefixes (R109). -/
theorem emittedMatchIsTheLongest : Obligations.EmittedMatchIsTheLongest := by
  intro s t m k hs hrun hv hm hout
  have hmatch := hs.enc.encMap_match hm hv
  refine ⟨fun c h => ?_, fun h => ?_⟩
  · rw [exec_encSym_of_run c hrun] at h
    obtain ⟨e', he', rfl⟩ := onEnc_eq_next.1 h
    rcases hs.enc.symRule_onStrings hs.config hm he' with ⟨k', -, rfl⟩ | ⟨-, rfl⟩ | ⟨hnot, -, -, rfl⟩
    · simp at hout
    · simp at hout
    · obtain rfl : s.enc.matchCode = k := by simpa using hout
      refine ⟨hmatch, fun rest w j hw hprefix => ?_⟩
      by_contra hlt
      obtain ⟨v, rfl⟩ := snoc_prefix_of_lt_length hprefix (not_le.1 hlt)
      exact hnot (prefixesOfBoundStringsAreBound _ _ j _ v hs.enc.dict hw (by simp))
  · rw [exec_encEnd_of_run hrun] at h
    cases h
    obtain rfl : s.enc.matchCode = k := by simpa [Encoder.ended, hv] using hout
    exact ⟨hmatch, fun w j _ hprefix => hprefix.length_le⟩

end Sys2Proof.Machine

/-! PROOFS. The counts of codes, insertions and `next_code` (R136, R158, R60): every step keeps them. -/

namespace Sys2Proof.Machine

/-! ## The counts of the encoder -/

/-- The counts speak of a call in progress and of a completed one. -/
theorem Encoder.count_of_idle_or_fault {e : Encoder} (h : e.ctl.state = .idle ∨ e.ctl.state = .fault) : e.Count := by
  rcases h with h | h <;> constructor <;> simp [h]

/-- Before its first symbol a call has emitted nothing and inserted nothing (R120). -/
theorem Encoder.count_of_started {e : Encoder} (hrun : e.ctl.state = .run) (hv : e.matchValid = false) (hout : e.out = [])
    (hn : e.dict.nextCode = 256) : e.Count := by
  constructor <;> simp [hrun, hv, hout, hn]

/-- One more code, which is below `256` plus the codes before it, keeps every code in its range (R60). -/
theorem codes_in_range_snoc {out : List Code} {m : Code} (h : ∀ j k, out[j]? = some k → k.toNat < 256 + j)
    (hm : m.toNat < 256 + out.length) : ∀ j k, (out ++ [m])[j]? = some k → k.toNat < 256 + j := by
  intro j k hk
  rcases Nat.lt_trichotomy j out.length with hj | rfl | hj
  · rw [List.getElem?_append_left hj] at hk
    exact h j k hk
  · obtain rfl : m = k := by simpa using hk
    exact hm
  · rw [List.getElem?_eq_none (by rw [List.length_append, List.length_singleton]; omega)] at hk
    cases hk

section
variable {cap : DictCap} {e : Encoder} (he : e.Inv cap) (hc : e.Count) (hrun : e.ctl.state = .run)
include he hc hrun

/-- The match is below `256` plus the codes emitted (R60). -/
theorem Encoder.Count.matchCode_lt (hv : e.matchValid = true) : e.matchCode.toNat < 256 + e.out.length := by
  rw [← hc.running hrun hv]
  exact (bound_iff _ _).1 (he.matchBound hv)

/-- An emission with its insertion counts both sides up by one (R136). -/
theorem Encoder.Count.emit (hcap : cap.wf = true) (c : Symbol) (hv : e.matchValid = true)
    (hlt : e.dict.nextCode.toNat < cap.limit) : (e.emit c).Count where
  empty := by simp [hv]
  running := by
    intro _ _
    have hnext : (e.emit c).dict.nextCode.toNat = e.dict.nextCode.toNat + 1 :=
      nextCode_succ_toNat (hlt.trans_le (limit_le hcap))
    rw [hnext, hc.running hrun hv, Encoder.emit_out, List.length_append, List.length_singleton, Nat.add_assoc]
  completed := by simp [hrun]
  range := fun _ => codes_in_range_snoc (hc.range (.inl hrun)) (hc.matchCode_lt he hrun hv)

/-- `ENC.SYM` in `RUN` keeps the counts (R136). -/
theorem Encoder.Count.symRule (hcap : cap.wf = true) {c : Symbol} {e' : Encoder} (h : e.symRule cap c = .next e') :
    e'.Count := by
  rcases Encoder.symRule_cases h with ⟨hv, rfl⟩ | ⟨hv, k, -, rfl⟩ | ⟨hv, -, h⟩
  · obtain ⟨hout, hn⟩ := hc.empty hrun hv
    exact ⟨by simp, fun _ _ => by simp [hout, hn], by simp [hrun], hc.range⟩
  · exact ⟨hc.empty, hc.running, hc.completed, hc.range⟩
  · rcases Encoder.missRule_cases h with ⟨-, rfl⟩ | ⟨hf, -, hcell, rfl⟩
    · exact Encoder.count_of_idle_or_fault (.inr rfl)
    · exact hc.emit he hrun hcap c hv (he.dict.lt_limit hf hcell)

/-- `ENC.END` in `RUN` emits one code more than it has inserted entries (R122, R136). -/
theorem Encoder.Count.endRule {e' : Encoder} (h : e.endRule = .next e') : e'.Count := by
  cases h
  cases hv : e.matchValid with
  | false =>
    refine ⟨by simp, by simp, fun _ => .inl ?_, fun _ => ?_⟩
    · simpa using hc.empty hrun hv
    · simpa using hc.range (.inl hrun)
  | true =>
    refine ⟨by simp, by simp, fun _ => .inr ⟨by simp, ?_⟩, fun _ => ?_⟩
    · simp only [if_true, List.length_append, List.length_singleton]
      have := hc.running hrun hv
      omega
    · exact codes_in_range_snoc (hc.range (.inl hrun)) (hc.matchCode_lt he hrun hv)

end

/-- Every command of `ENC` keeps the encoder's counts. -/
theorem exec_encCommand_keeps_count {i : Instr} {s t : State} (hcap : s.config.dictCap.wf = true)
    (he : s.enc.Inv s.config.dictCap) (hc : s.enc.Count) (hu : commandUnit i = some .enc) (h : exec i s = .next t) :
    t.enc.Count := by
  rcases encCommand_cases hu with rfl | ⟨c, rfl⟩ | rfl
  · rcases execEncStart_cases h with ⟨-, rfl⟩ | ⟨-, rfl⟩
    · exact Encoder.count_of_started rfl rfl rfl rfl
    · exact Encoder.count_of_idle_or_fault (.inr rfl)
  · rcases execEncSym_cases h with ⟨hrun, e', hr, rfl⟩ | ⟨-, rfl⟩ | ⟨-, rfl⟩
    · exact hc.symRule he hrun hcap hr
    · exact Encoder.count_of_idle_or_fault (.inr rfl)
    · exact hc
  · rcases execEncEnd_cases h with ⟨hrun, rfl⟩ | ⟨-, rfl⟩ | ⟨-, rfl⟩
    · exact hc.endRule he hrun rfl
    · exact Encoder.count_of_idle_or_fault (.inr rfl)
    · exact hc

/-! ## The counts of the decoder -/

/-- The counts speak of a call in progress. -/
theorem Decoder.count_of_not_run {d : Decoder} (h : d.ctl.state ≠ .run) : d.Count := by
  constructor <;> simp [h]

/-- Before its first code a call has emitted nothing and inserted nothing (R140). -/
theorem Decoder.count_of_started {d : Decoder} (hv : d.prevValid = false) (hout : d.out = [])
    (hn : d.dict.nextCode = 256) : d.Count := by
  constructor <;> simp [hv, hout, hn]

theorem Str.length_toList_pos (w : Str) : 0 < w.toList.length := List.length_pos_iff.2 w.toList_ne_nil

/-- A code that is accepted emits at least one symbol, and inserts at most one entry (R158). -/
theorem Decoder.Count.codeRule {cap : DictCap} {d d' : Decoder} {k : Code} (hc : d.Count) (hrun : d.ctl.state = .run)
    (h : d.codeRule cap k = .next d') : d'.Count := by
  rcases Decoder.codeRule_cases h with ⟨hv, h⟩ | ⟨-, -, rfl⟩ | ⟨hv, w, -, h⟩
  · rcases Decoder.firstCodeRule_cases h with ⟨-, rfl⟩ | ⟨-, w, -, rfl⟩
    · exact Decoder.count_of_not_run (by simp)
    · obtain ⟨hout, hn⟩ := hc.empty hrun hv
      have hw := w.length_toList_pos
      refine ⟨by simp, fun _ _ => ?_⟩
      simp only [hout, hn, List.nil_append]
      omega
  · exact Decoder.count_of_not_run (by simp)
  · rcases Decoder.emitRule_cases h with ⟨-, rfl⟩ | ⟨-, -, -, rfl⟩
    · exact Decoder.count_of_not_run (by simp)
    · have hw := w.length_toList_pos
      have hold := hc.running hrun hv
      have hnext : (d.dict.nextCode + 1).toNat ≤ d.dict.nextCode.toNat + 1 := by
        rw [BitVec.toNat_add]
        exact Nat.mod_le _ _
      refine ⟨by simp [hv], fun _ _ => ?_⟩
      simp only [List.length_append]
      omega

/-- Every command of `DEC` keeps the decoder's counts. -/
theorem exec_decCommand_keeps_count {i : Instr} {s t : State} (hc : s.dec.Count) (hu : commandUnit i = some .dec)
    (h : exec i s = .next t) : t.dec.Count := by
  rcases decCommand_cases hu with rfl | ⟨k, rfl⟩ | rfl
  · rcases execDecStart_cases h with ⟨-, rfl⟩ | ⟨-, rfl⟩
    · exact Decoder.count_of_started rfl rfl rfl
    · exact Decoder.count_of_not_run (by simp)
  · rcases execDecCode_cases h with ⟨hrun, d', hr, rfl⟩ | ⟨-, rfl⟩ | ⟨-, rfl⟩
    · exact hc.codeRule hrun hr
    · exact Decoder.count_of_not_run (by simp)
    · exact hc
  · rcases execDecEnd_cases h with ⟨-, rfl⟩ | ⟨-, rfl⟩ | ⟨-, rfl⟩
    · exact Decoder.count_of_not_run (by simp)
    · exact Decoder.count_of_not_run (by simp)
    · exact hc

/-! ## The counts of the block -/

/-- A command keeps the counts: its unit's by its rule, the other's because it is untouched. -/
theorem exec_command_keeps_count {i : Instr} {s t : State} (hs : s.Inv) (he : s.enc.Count) (hd : s.dec.Count)
    (hu : commandUnit i ≠ none) (h : exec i s = .next t) : t.enc.Count ∧ t.dec.Count := by
  obtain ⟨u, hu⟩ := Option.ne_none_iff_exists'.1 hu
  cases u with
  | enc =>
    have he' := exec_encCommand_keeps_count hs.config hs.enc he hu h
    rw [exec_encCommand_frame hu h]
    exact ⟨he', hd⟩
  | dec =>
    have hd' := exec_decCommand_keeps_count hd hu h
    rw [exec_decCommand_frame hu h]
    exact ⟨he, hd'⟩

/-- Settles O47: the counts of a unit that a reset has made idle say nothing, and a command keeps those of both. -/
theorem stepKeepsTheCounts : Obligations.StepKeepsTheCounts := by
  intro s t hs he hd h
  rcases step_cases h with ⟨-, rfl⟩ | ⟨ws, rest, -, -, -, rfl⟩ | ⟨w, rest, i, -, -, -, hw, h⟩ |
    ⟨w, rest, r, -, -, -, -, rfl⟩ | ⟨u, w, i, -, hq, -, -⟩
  · exact ⟨he, hd⟩
  · exact ⟨Encoder.count_of_idle_or_fault (.inl rfl),
      Decoder.count_of_not_run (by simp [Decoder.afterReset, Control.reset])⟩
  · exact exec_command_keeps_count (hs.withInput rest) he hd (decodeCommand_unit hw) h
  · exact ⟨he, hd⟩
  · simp [hs.port] at hq

end Sys2Proof.Machine

/-! PROOFS. A whole encoder call computes `encode` (R131): the encoder follows the loop of `encode`, symbol by symbol, as
long as there is room, and the run of the call is that loop between `ENC.START` and `ENC.END`. -/

namespace Sys2Proof.Machine

/-! ## A dictionary and the list of its Strings -/

/-- `L` is the list of the Strings of `d`: that of code `k` at index `k`, and nothing else (R31, R131). -/
structure Dict.Lists (d : Dict) (L : List (List Symbol)) : Prop where
  size : L.length = d.nextCode.toNat
  string : ∀ k, d.bound k = true → d.decMap k = L[k.toNat]?

/-- A seeded dictionary lists the seeds (R29, R131). -/
theorem Dict.Lists.seed (d : Dict) : d.seed.Lists seedStrings where
  size := by simp [seedStrings]
  string := by
    intro k hk
    have hlt := (bound_seed_iff d k).1 hk
    simp [Dict.decMap, str_seed hk hlt, seedStrings, hlt, Str.toList, lowSym, BitVec.ofNat_toNat]

section
variable {cap : DictCap} {d : Dict} {L : List (List Symbol)} (h : d.Lists L)
include h

theorem Dict.Lists.encMap_iff {w : List Symbol} {k : Code} : d.encMap w k ↔ L[k.toNat]? = some w := by
  constructor
  · rintro ⟨hb, hmap⟩
    rw [← h.string k hb, hmap]
  · intro hget
    obtain ⟨hlt, -⟩ := List.getElem?_eq_some_iff.1 hget
    have hb : d.bound k = true := (bound_iff d k).2 (by rw [← h.size]; exact hlt)
    exact ⟨hb, by rw [h.string k hb, hget]⟩

variable (hcap : cap.wf = true) (hd : d.Inv cap)
include hcap hd

/-- Every String of the list is bound: an index is a 32-bit code. -/
theorem Dict.Lists.exists_code {w : List Symbol} {n : Nat} (hn : L[n]? = some w) :
    ∃ k : Code, k.toNat = n ∧ d.encMap w k := by
  obtain ⟨hlt, -⟩ := List.getElem?_eq_some_iff.1 hn
  have hn32 : n < 2 ^ 32 := (h.size ▸ hlt).trans_le (hd.high.trans (limit_le hcap))
  have hk : (BitVec.ofNat 32 n).toNat = n := Nat.mod_eq_of_lt hn32
  exact ⟨BitVec.ofNat 32 n, hk, h.encMap_iff.2 (by rw [hk, hn])⟩

theorem Dict.Lists.mem_iff {w : List Symbol} : w ∈ L ↔ ∃ k, d.encMap w k := by
  constructor
  · intro hw
    obtain ⟨n, hn⟩ := List.mem_iff_getElem?.1 hw
    obtain ⟨k, -, hk⟩ := h.exists_code hcap hd hn
    exact ⟨k, hk⟩
  · rintro ⟨k, hk⟩
    exact List.mem_of_getElem? (h.encMap_iff.1 hk)

/-- Where no String is bound twice, the first index of a String is its code. -/
theorem Dict.Lists.idxOf_eq (hu : d.Unique) {w : List Symbol} {k : Code} (hk : d.encMap w k) :
    L.idxOf w = k.toNat := by
  have hget := List.getElem?_idxOf ((h.mem_iff hcap hd).2 ⟨k, hk⟩)
  obtain ⟨j, hj, hjw⟩ := h.exists_code hcap hd hget
  rw [← hj, encMap_inj hu hjw hk]

/-- An insertion appends its String to the list (R107). -/
theorem Dict.Lists.insert {w : List Symbol} {p : Code} {c : Symbol} (hp : d.encMap w p)
    (hlt : d.nextCode.toNat < cap.limit) :
    Dict.Lists { mem := d.mem.write (lowCode d.nextCode).toNat ⟨p, c⟩, nextCode := d.nextCode + 1 }
      (L ++ [w ++ [c]]) := by
  obtain ⟨-, hn, hlow, hold, ⟨v, hv, hnew⟩, -, -⟩ := insert_str (c := c) hd hcap hp.1 hlt
  have hvw : v.toList = w := by
    obtain ⟨v', hv', hw⟩ := decMap_eq_some.1 hp.2
    rw [← hw, Option.some.inj (hv.symm.trans hv')]
  refine ⟨by rw [hn, List.length_append, List.length_singleton, h.size], fun k hk => ?_⟩
  rw [bound_iff, hn] at hk
  by_cases hkn : k.toNat < d.nextCode.toNat
  · have hb : d.bound k = true := (bound_iff d k).2 hkn
    rw [Dict.decMap, hold k hb, List.getElem?_append_left (by rwa [h.size])]
    exact h.string k hb
  · have hkn' : k.toNat = d.nextCode.toNat := by omega
    obtain rfl : k = lowCode d.nextCode := BitVec.eq_of_toNat_eq (hkn'.trans hlow.symm)
    have hlast : (L ++ [w ++ [c]])[(lowCode d.nextCode).toNat]? = some (w ++ [c]) := by
      rw [hlow, ← h.size, List.getElem?_concat_length]
    rw [hlast]
    exact decMap_eq_some.2 ⟨_, hnew, by rw [Str.toList_snoc, hvw]⟩

end

/-! ## The encoder and the loop of `encode` -/

/-- The registers of an encoder in a call stand for what the loop of `encode` carries (R131). -/
structure Encoder.Follows (e : Encoder) (l : EncLoop) : Prop where
  running : e.ctl.state = .run
  dict : e.dict.Lists l.dict
  cur : e.matchStr = some l.cur
  out : e.out.map BitVec.toNat = l.out

/-- A call begins where the loop begins (R120). -/
theorem Encoder.Follows.start (e : Encoder) : e.started.Follows .init :=
  ⟨rfl, .seed e.dict, Encoder.matchStr_of_noMatch rfl, rfl⟩

theorem EncLoop.turn_of_mem {l : EncLoop} {c : Symbol} (h : l.cur ++ [c] ∈ l.dict) :
    l.turn c = { l with cur := l.cur ++ [c] } :=
  if_pos h

theorem EncLoop.turn_of_not_mem {l : EncLoop} {c : Symbol} (h : l.cur ++ [c] ∉ l.dict) :
    l.turn c = { dict := l.dict ++ [l.cur ++ [c]], cur := [c], out := l.out ++ [l.dict.idxOf l.cur] } :=
  if_neg h

/-- A turn of the loop never shortens its dictionary. -/
theorem EncLoop.length_dict_le_turn (l : EncLoop) (c : Symbol) : l.dict.length ≤ (l.turn c).dict.length := by
  by_cases h : l.cur ++ [c] ∈ l.dict
  · rw [EncLoop.turn_of_mem h]
  · rw [EncLoop.turn_of_not_mem h, List.length_append]
    exact Nat.le_add_right _ _

theorem EncLoop.length_dict_le_foldl (l : EncLoop) (d : List Symbol) :
    l.dict.length ≤ (d.foldl EncLoop.turn l).dict.length := by
  induction d generalizing l with
  | nil => exact Nat.le_refl _
  | cons c d ih => exact (l.length_dict_le_turn c).trans (ih _)

section
variable {cap : DictCap} {e : Encoder} {l : EncLoop} (hcap : cap.wf = true) (he : e.Inv cap) (hl : e.Follows l)
include hcap he hl

/-- A turn that emits is an emission of the encoder, where there is room. -/
theorem Encoder.Follows.emit {c : Symbol} (hv : e.matchValid = true) (hnot : l.cur ++ [c] ∉ l.dict)
    (hlt : e.dict.nextCode.toNat < cap.limit) : (e.emit c).Follows (l.turn c) := by
  have hmatch := he.encMap_match hl.cur hv
  rw [EncLoop.turn_of_not_mem hnot]
  refine ⟨hl.running, hl.dict.insert hcap he.dict hmatch hlt, ?_, ?_⟩
  · exact Encoder.matchStr_emit c hv (insert_keeps_inv c he.dict hcap hmatch.1 hlt)
  · rw [Encoder.emit_out, List.map_append, hl.out, hl.dict.idxOf_eq hcap he.dict he.unique hmatch]
    rfl

/-- `ENC.SYM` does one turn of the loop, or finds no room for the entry the turn inserts (R121, R131). -/
theorem Encoder.Follows.symRule {c : Symbol} (hroom : cap = .unbounded → (l.turn c).dict.length ≤ 2 ^ 32) :
    ∃ e', e.symRule cap c = .next e' ∧
      ((e'.ctl = e.ctl ∧ e'.Follows (l.turn c)) ∨
       (e' = e.raise .dictFull (zext32 c) ∧ cap.limit < (l.turn c).dict.length)) := by
  by_cases hmem : l.cur ++ [c] ∈ l.dict
  · obtain ⟨k, hk⟩ := (hl.dict.mem_iff hcap he.dict).1 hmem
    refine ⟨_, he.symRule_of_bound hcap hl.cur hk, .inl ⟨rfl, ?_⟩⟩
    rw [EncLoop.turn_of_mem hmem]
    exact ⟨hl.running, hl.dict, (Encoder.matchStr_of_match rfl).trans hk.2, hl.out⟩
  · have hnot : ¬ ∃ k, e.dict.encMap (l.cur ++ [c]) k := mt (hl.dict.mem_iff hcap he.dict).2 hmem
    obtain ⟨hv, hmiss⟩ := he.miss_of_unbound hcap hl.cur hnot
    have hsize : (l.turn c).dict.length = e.dict.nextCode.toNat + 1 := by
      rw [EncLoop.turn_of_not_mem hmem, List.length_append, List.length_singleton, hl.dict.size]
    cases hf : e.dict.isFull cap with
    | true =>
      refine ⟨_, Encoder.symRule_of_full hv hmiss hf, .inr ⟨rfl, ?_⟩⟩
      rw [hsize, (isFull_iff _ _).1 hf]
      exact Nat.lt_succ_self _
    | false =>
      have hlt : e.dict.nextCode.toNat < cap.limit := by
        rcases room_of_not_full he.dict hf with hlt | ⟨hunb, hn⟩
        · exact hlt
        · have := hroom hunb
          omega
      exact ⟨_, Encoder.symRule_of_room hv hmiss (he.matchBound hv) hcap he.dict hlt,
        .inl ⟨rfl, hl.emit hcap he hv hmem hlt⟩⟩

end

/-! ## The words of a call -/

/-- The word of a command decodes to it (R85). -/
theorem commandEvent_spec {i : Instr} (hu : commandUnit i ≠ none) :
    ∃ w, commandEvent i = [.command w] ∧ decode (.command w) = .ok i := by
  cases i with
  | encStart => exact ⟨_, rfl, by simp [decode, decodeCommand, formatN]⟩
  | encSym c => exact ⟨_, rfl, by simp [decode, decodeCommand, formatS]⟩
  | encEnd => exact ⟨_, rfl, by simp [decode, decodeCommand, formatN]⟩
  | decStart => exact ⟨_, rfl, by simp [decode, decodeCommand, formatN]⟩
  | decCode k => exact ⟨_, rfl, by simp [decode, decodeCommand]⟩
  | decEnd => exact ⟨_, rfl, by simp [decode, decodeCommand, formatN]⟩
  | dSeed u => exact absurd rfl hu
  | dBound u k => exact absurd rfl hu
  | dLookup u p c => exact absurd rfl hu
  | dInsert u p c => exact absurd rfl hu
  | dFetch u k => exact absurd rfl hu
  | dFirst u k => exact absurd rfl hu

section
variable {s : State} {i : Instr} {rest : List HostEvent} (hu : commandUnit i ≠ none) (hq : s.request = none)
  (hin : s.input = commandEvent i ++ rest)
include hu hq hin

theorem fetch_commandEvent : fetch s = .run i (s.withInput rest) := by
  obtain ⟨w, hw, hd⟩ := commandEvent_spec hu
  rw [hw] at hin
  simp [fetch, hq, hin, hd]

theorem step_commandEvent : step s = exec i (s.withInput rest) := by
  rw [step, fetch_commandEvent hu hq hin]

end

section
variable {s : State} {rest : List HostEvent} (hq : s.request = none)
include hq

theorem step_encStart (hnot : s.enc.ctl.state ≠ .run) (hin : s.input = commandEvent .encStart ++ rest) :
    step s = .next ((s.withInput rest).withEnc s.enc.started) :=
  (step_commandEvent (by simp [commandUnit]) hq hin).trans (exec_encStart_of_not_run hnot)

theorem step_encSym {c : Symbol} {e : Encoder} (hrun : s.enc.ctl.state = .run)
    (hin : s.input = commandEvent (.encSym c) ++ rest) (h : s.enc.symRule s.config.dictCap c = .next e) :
    step s = .next ((s.withInput rest).withEnc e) := by
  rw [step_commandEvent (by simp [commandUnit]) hq hin, exec_encSym_of_run (s := s.withInput rest) c hrun]
  exact onEnc_of_next h

theorem step_encEnd (hrun : s.enc.ctl.state = .run) (hin : s.input = commandEvent .encEnd ++ rest) :
    step s = .next ((s.withInput rest).withEnc s.enc.ended) :=
  (step_commandEvent (by simp [commandUnit]) hq hin).trans (exec_encEnd_of_run hrun)

end

/-- In `FAULT` the rest of the words of a call are consumed and change nothing (R123, R172). -/
theorem run_of_fault (d : List Symbol) {s : State} {rest : List HostEvent} (hq : s.request = none)
    (hf : s.enc.ctl.state = .fault) (hin : s.input = symEvents d ++ (commandEvent .encEnd ++ rest)) :
    core.run (d.length + 1) s = .next (s.withInput rest) := by
  induction d generalizing s with
  | nil =>
    have hexec : exec .encEnd (s.withInput rest) = .next (s.withInput rest) :=
      onEnc_judged_of_ignored _ _ (ignored_finish.2 hf)
    exact run_next ((step_commandEvent (by simp [commandUnit]) hq hin).trans hexec)
  | cons c d ih =>
    rw [symEvents, List.append_assoc] at hin
    have hexec : ∀ input, exec (.encSym c) (s.withInput input) = .next (s.withInput input) := fun input =>
      onEnc_judged_of_ignored _ _ (ignored_data.2 hf)
    rw [List.length_cons, run_next ((step_commandEvent (by simp [commandUnit]) hq hin).trans (hexec _))]
    exact ih hq hf rfl

/-! ## The run of a call -/

/-- How an encoder call ends whose loop ends as `l`: completed where the dictionary of `l` has room, and in `DICT_FULL`
where it has not (R131, R10). -/
structure Encoder.Ends (cap : DictCap) (sticky : Bool) (l : EncLoop) (e : Encoder) : Prop where
  completed : l.dict.length ≤ cap.limit →
    e.ctl = { state := .done, cause := .none, info := 0, sticky := sticky } ∧
    e.out.map BitVec.toNat = l.flush ∧ e.dict.nextCode.toNat = l.dict.length
  full : cap.limit < l.dict.length → e.ctl.state = .fault ∧ e.ctl.cause = .dictFull

/-- In `RUN` no cause is recorded (R34). -/
theorem Control.Inv.eq_of_run {c : Control} (hc : c.Inv) (hrun : c.state = .run) :
    c = { state := .run, cause := .none, info := 0, sticky := c.sticky } := by
  have hcause : c.cause = .none := by
    by_contra hne
    simp [hc.cause.1 hne] at hrun
  rw [← hrun, ← hcause, ← hc.info hcause]

/-- `ENC.END` ends a call as `encode` ends: with the last match, if there is one (R122, R131). -/
theorem Encoder.Follows.finish {cap : DictCap} {e : Encoder} {l : EncLoop} (hcap : cap.wf = true) (he : e.Inv cap)
    (hl : e.Follows l) : e.ended.Ends cap e.ctl.sticky l where
  completed := by
    intro _
    refine ⟨congrArg Control.finish (he.ctl.eq_of_run hl.running), ?_, hl.dict.size.symm⟩
    · rw [EncLoop.flush, Encoder.ended]
      by_cases hcur : l.cur = []
      · have hv : ¬ e.matchValid = true := fun hv => (he.matchValid_iff hl.cur).1 hv hcur
        rw [if_neg hv, if_pos hcur, hl.out]
      · have hv := (he.matchValid_iff hl.cur).2 hcur
        rw [if_pos hv, if_neg hcur, List.map_append, hl.out,
          hl.dict.idxOf_eq hcap he.dict he.unique (he.encMap_match hl.cur hv)]
        rfl
  full := by
    intro hlt
    rw [hl.dict.size] at hlt
    exact absurd he.dict.high (not_le.2 hlt)

/-- In `RUN` a call goes on: its outcome is that of the rest of the run (R200). -/
theorem firstEnd_of_encRun {s t : State} (hrun : s.enc.ctl.state = .run) (h : step s = .next t) (n : Nat) :
    firstEnd .enc State.encEnd (n + 1) s = firstEnd .enc State.encEnd n t :=
  firstEnd_step (endShown_run hrun) (by simp [State.ctlOf, hrun]) h n

/-- From a moment at which the encoder follows the loop, the rest of the call does the rest of the loop, and the outcome
of the call is what it shows at its end (R131, R200). -/
theorem run_of_follows (d : List Symbol) {s : State} {l : EncLoop} {rest : List HostEvent} (hs : s.Inv)
    (hl : s.enc.Follows l)
    (hroom : s.config.dictCap = .unbounded → (d.foldl EncLoop.turn l).dict.length ≤ 2 ^ 32)
    (hin : s.input = symEvents d ++ (commandEvent .encEnd ++ rest)) :
    ∃ e, core.run (d.length + 1) s = .next ((s.withInput rest).withEnc e) ∧
      e.Ends s.config.dictCap s.enc.ctl.sticky (d.foldl EncLoop.turn l) ∧
      ∀ n, d.length + 1 ≤ n → firstEnd .enc State.encEnd n s = endShown e.ctl e.out := by
  induction d generalizing s l with
  | nil =>
    have hstep := step_encEnd hs.port hl.running hin
    refine ⟨_, run_next hstep, hl.finish hs.config hs.enc, fun n hn => ?_⟩
    obtain ⟨n, rfl⟩ := Nat.exists_eq_add_of_le' hn
    exact (firstEnd_of_encRun hl.running hstep _).trans (firstEnd_shown (endShown_done rfl) _)
  | cons c d ih =>
    rw [symEvents, List.append_assoc] at hin
    have hturn : s.config.dictCap = .unbounded → (l.turn c).dict.length ≤ 2 ^ 32 := fun h =>
      ((l.turn c).length_dict_le_foldl d).trans (hroom h)
    obtain ⟨e', hrule, hcases⟩ := hl.symRule hs.config hs.enc hturn
    have hstep := step_encSym hs.port hl.running hin hrule
    rw [List.length_cons, run_next hstep]
    have hlater : ∀ n, d.length + 1 + 1 ≤ n → firstEnd .enc State.encEnd n s =
        firstEnd .enc State.encEnd (n - 1) _ := fun n hn => by
      obtain ⟨n, rfl⟩ := Nat.exists_eq_add_of_le' hn
      exact firstEnd_of_encRun hl.running hstep _
    rcases hcases with ⟨hctl, hfollows⟩ | ⟨rfl, hfull⟩
    · obtain ⟨e, hrun, hends, hout⟩ := ih (stepKeepsTheInvariant _ _ hs hstep) hfollows hroom rfl
      refine ⟨e, hrun, by rwa [State.withEnc_enc, hctl] at hends, fun n hn => ?_⟩
      rw [hlater n hn]
      exact hout _ (by omega)
    · refine ⟨_, run_of_fault d hs.port rfl rfl, ⟨fun hle => ?_, fun _ => ⟨rfl, rfl⟩⟩, fun n hn => ?_⟩
      · exact absurd (((l.turn c).length_dict_le_foldl d).trans hle) (not_le.2 hfull)
      · rw [hlater n hn]
        exact firstEnd_shown (endShown_fault rfl) _

/-! ## The size of the dictionary and the number of codes -/

/-- A call needs one entry for each of its codes but the last (R131, R136). -/
theorem EncLoop.Inv.length_flush {d : List Symbol} {l : EncLoop} (h : l.Inv d) :
    l.dict.length = max 256 (255 + l.flush.length) := by
  rw [h.size, EncLoop.flush]
  by_cases hcur : l.cur = []
  · simp [hcur, (h.of_cur_nil hcur).2]
  · rw [if_neg hcur, List.length_append, List.length_singleton]
    omega

/-- A call of `n` symbols needs at most `255 + n` entries, or the seeds alone. -/
theorem EncLoop.Inv.length_dict_le {d : List Symbol} {l : EncLoop} (h : l.Inv d) :
    l.dict.length ≤ max 256 (255 + d.length) := by
  have hconsumed := h.consumed
  rw [h.size]
  by_cases hcur : l.cur = []
  · simp [(h.of_cur_nil hcur).2]
  · have := List.length_pos_iff.2 hcur
    omega

/-- Settles O53: `ENC.START` begins the loop of `encode`, and the rest of the call does it. -/
theorem encodeCallComputesEncode : Obligations.EncodeCallComputesEncode := by
  intro s d rest hs hnot hin hbound
  have hloop := encodeLoop_inv d
  have hsize : (d.foldl EncLoop.turn .init).dict.length = max 256 (255 + (encodeBytes d).length) := hloop.length_flush
  have hroom : s.config.dictCap = .unbounded → (d.foldl EncLoop.turn .init).dict.length ≤ 2 ^ 32 := fun h => by
    have := hloop.length_dict_le
    have := hbound h
    omega
  rw [encodeEvents, List.append_assoc, List.append_assoc] at hin
  have hstep := step_encStart hs.port hnot hin
  obtain ⟨e, hrun, (hends : e.Ends s.config.dictCap s.enc.ctl.sticky _), hout⟩ :=
    run_of_follows d (stepKeepsTheInvariant _ _ hs hstep) (.start s.enc) hroom rfl
  have hcall : ∀ n, d.length + 1 ≤ n → s.encCall n = endShown e.ctl e.out := fun n hn => by
    have hfetch := fetch_commandEvent (i := startOf .enc) (by simp [startOf, commandUnit]) hs.port hin
    have hbegins := callBegins_eq_some (u := .enc).2 ⟨⟨_, hfetch⟩, hstep, rfl⟩
    rw [State.encCall, hbegins]
    exact hout n hn
  have hlimit := limit_ge hs.config
  refine ⟨_, (run_next hstep).trans hrun, rfl, rfl, rfl, fun hle => ?_, fun hlt => ?_⟩
  · obtain ⟨hctl, hcodes, hnext⟩ := hends.completed (by rw [hsize]; exact max_le (by omega) hle)
    refine ⟨hctl, hcodes, hnext.trans hsize, compress_eq_some.2 ⟨_, hcodes, rfl⟩, fun n hn => ?_⟩
    exact (hcall n hn).trans (endShown_done (congrArg Control.state hctl))
  · obtain ⟨hstate, hcause⟩ := hends.full (by rw [hsize]; exact hlt.trans_le (le_max_right _ _))
    refine ⟨hstate, hcause, fun n hn => ?_⟩
    rw [hcall n hn, endShown_fault hstate, hcause]
    rfl

end Sys2Proof.Machine

/-! PROOFS. The three commands of the decoder: which of them its state admits, what each does to the registers and, for
`DEC.CODE`, to the Strings they stand for (R140 to R154). -/

namespace Sys2Proof.Machine

/-! ## Admission (R143) -/

theorem onDec_of_next {s : State} {f : Decoder → Result Decoder} {d : Decoder} (h : f s.dec = .next d) :
    s.onDec f = .next (s.withDec d) :=
  onDec_eq_next.2 ⟨d, h, rfl⟩

section
variable {s : State} {kind : CmdKind} (v : Arg) (rule : Decoder → Result Decoder)

theorem onDec_judged_of_admitted (h : admission s.dec.ctl.state kind = .admitted) :
    (s.onDec fun d => d.judged kind v rule) = s.onDec rule := by
  simp only [State.onDec, Decoder.judged, h]

theorem onDec_judged_of_protocol (h : admission s.dec.ctl.state kind = .protocol) :
    (s.onDec fun d => d.judged kind v rule) = .next (s.withDec (s.dec.raise .protocol v)) :=
  onDec_of_next (by simp only [Decoder.judged, h])

theorem onDec_judged_of_ignored (h : admission s.dec.ctl.state kind = .ignored) :
    (s.onDec fun d => d.judged kind v rule) = .next s :=
  onDec_of_next (d := s.dec) (by simp only [Decoder.judged, h])

end

/-- Settles O25: a cell of the table is what `admission` answers in it. -/
theorem decoderAdmissionTable : Obligations.DecoderAdmissionTable := by
  intro s k
  rw [exec_decStart, exec_decCode, exec_decEnd]
  refine ⟨fun hq => ?_, fun hq => ?_, fun hq => ?_⟩
  · have hnot : s.dec.ctl.state ≠ .run := by rcases hq with hq | hq <;> simp [hq]
    exact ⟨onDec_judged_of_admitted _ _ (admitted_start.2 hnot), onDec_judged_of_protocol _ _ (protocol_data.2 hq),
      onDec_judged_of_protocol _ _ (protocol_finish.2 hq)⟩
  · exact ⟨onDec_judged_of_protocol _ _ (protocol_start.2 hq), onDec_judged_of_admitted _ _ (admitted_data.2 hq),
      onDec_judged_of_admitted _ _ (admitted_finish.2 hq)⟩
  · have hnot : s.dec.ctl.state ≠ .run := by simp [hq]
    exact ⟨onDec_judged_of_admitted _ _ (admitted_start.2 hnot), onDec_judged_of_ignored _ _ (ignored_data.2 hq),
      onDec_judged_of_ignored _ _ (ignored_finish.2 hq)⟩

/-- The decoder at the beginning of a call (R140). -/
def Decoder.started (d : Decoder) : Decoder :=
  { d with dict := d.dict.seed, prevValid := false, out := [], ctl := d.ctl.start }

/-- The decoder at the end of a call that completes (R142). -/
def Decoder.ended (d : Decoder) : Decoder := { d with prevValid := false, ctl := d.ctl.finish }

theorem exec_decStart_of_not_run {s : State} (h : s.dec.ctl.state ≠ .run) :
    exec .decStart s = .next (s.withDec s.dec.started) := by
  rw [exec_decStart, onDec_judged_of_admitted _ _ (admitted_start.2 h)]
  rfl

theorem exec_decCode_of_run {s : State} (k : Code) (h : s.dec.ctl.state = .run) :
    exec (.decCode k) s = s.onDec (Decoder.codeRule s.config.dictCap k) := by
  rw [exec_decCode, onDec_judged_of_admitted _ _ (admitted_data.2 h)]

theorem exec_decEnd_of_run {s : State} (h : s.dec.ctl.state = .run) :
    exec .decEnd s = .next (s.withDec s.dec.ended) := by
  rw [exec_decEnd, onDec_judged_of_admitted _ _ (admitted_finish.2 h)]
  rfl

/-- Settles O20: `DEC.START` is admitted exactly where the unit is not in `RUN`. -/
theorem decStartBeginsACall : Obligations.DecStartBeginsACall := by
  refine fun s => ⟨exec_decStart_of_not_run, fun hrun => ?_⟩
  rw [exec_decStart, onDec_judged_of_protocol _ _ (protocol_start.2 hrun)]
  rfl

/-- Settles O24: `DEC.END` is admitted in `RUN`, and its rule writes two registers. -/
theorem decEndCompletesTheCall : Obligations.DecEndCompletesTheCall :=
  fun _ hrun => exec_decEnd_of_run hrun

/-- Settles O32: the frame of a decoder command leaves the whole encoder unit, its entry memory with it. -/
theorem decoderCommandsTouchOnlyTheDecoder : Obligations.DecoderCommandsTouchOnlyTheDecoder := by
  intro i s t hu h
  have ht : t = s.withDec t.dec := exec_decCommand_frame hu h
  refine ⟨ht, fun a => ?_⟩
  rw [ht, State.withDec_enc]

/-! ## State transitions (R152) -/

/-- Taking an instruction or a refused word from its port leaves the decoder unit. -/
theorem fetch_dec {s s' : State} (h : (∃ i, fetch s = .run i s') ∨ fetch s = .illegal s') : s'.dec = s.dec := by
  rcases fetch_cases s with ⟨hf, -⟩ | ⟨ws, rest, hf, -⟩ | ⟨w, rest, j, hf, -⟩ | ⟨w, rest, r, hf, -⟩ |
    ⟨u, w, j, hf, -⟩ | ⟨u, w, r, hf, -⟩
  all_goals simp only [hf, Fetched.run.injEq, Fetched.illegal.injEq, reduceCtorEq, exists_false, or_false,
    false_or, exists_eq_left'] at h
  all_goals
    subst h
    rfl

section
variable {s t : State}

theorem exec_decStart_state (h : exec .decStart s = .next t) :
    (s.dec.ctl.state ≠ .run → t.dec.ctl.state = .run) ∧
    (s.dec.ctl.state = .run → t.dec.ctl.state = .fault ∧ t.dec.ctl.cause = .protocol) := by
  rcases execDecStart_cases h with ⟨hq, rfl⟩ | ⟨hq, rfl⟩
  · exact ⟨fun _ => rfl, fun hrun => absurd hrun hq⟩
  · exact ⟨fun hnot => absurd hq hnot, fun _ => ⟨rfl, rfl⟩⟩

theorem exec_decCode_state {k : Code} (h : exec (.decCode k) s = .next t) :
    (s.dec.ctl.state = .run →
      (t.dec.ctl.state = .run ∧ t.dec.prevValid = true) ∨
      (t.dec.ctl.state = .fault ∧ (t.dec.ctl.cause = .invalidData ∨ t.dec.ctl.cause = .dictFull))) ∧
    (s.dec.ctl.state = .idle ∨ s.dec.ctl.state = .done →
      t.dec.ctl.state = .fault ∧ t.dec.ctl.cause = .protocol) ∧
    (s.dec.ctl.state = .fault → t.dec = s.dec) := by
  rcases execDecCode_cases h with ⟨hq, d', hd, rfl⟩ | ⟨hq, rfl⟩ | ⟨hq, rfl⟩
  · refine ⟨fun _ => ?_, by simp [hq], by simp [hq]⟩
    rcases codeRule_control hd with ⟨hctl, hv⟩ | ⟨rfl, -⟩ | ⟨rfl, -⟩
    · exact .inl ⟨by rw [State.withDec_dec, hctl, hq], hv⟩
    · exact .inr ⟨rfl, .inl rfl⟩
    · exact .inr ⟨rfl, .inr rfl⟩
  · exact ⟨fun hrun => by simp [hrun] at hq, fun _ => ⟨rfl, rfl⟩, fun hf => by simp [hf] at hq⟩
  · exact ⟨by simp [hq], by simp [hq], fun _ => rfl⟩

theorem exec_decEnd_state (h : exec .decEnd s = .next t) :
    (s.dec.ctl.state = .run → t.dec.ctl.state = .done) ∧
    (s.dec.ctl.state = .idle ∨ s.dec.ctl.state = .done →
      t.dec.ctl.state = .fault ∧ t.dec.ctl.cause = .protocol) ∧
    (s.dec.ctl.state = .fault → t.dec = s.dec) := by
  rcases execDecEnd_cases h with ⟨hq, rfl⟩ | ⟨hq, rfl⟩ | ⟨hq, rfl⟩
  · exact ⟨fun _ => rfl, by simp [hq], by simp [hq]⟩
  · exact ⟨fun hrun => by simp [hrun] at hq, fun _ => ⟨rfl, rfl⟩, fun hf => by simp [hf] at hq⟩
  · exact ⟨by simp [hq], by simp [hq], fun _ => rfl⟩

/-- An instruction that is no command of `DEC` keeps the decoder's control registers and `prev_valid`. -/
theorem exec_other_dec {i : Instr} (hu : commandUnit i ≠ some .dec) (h : exec i s = .next t) :
    t.dec.ctl = s.dec.ctl ∧ t.dec.prevValid = s.dec.prevValid := by
  have hdict : ∀ u x, (s.withDict u x).dec.prevValid = s.dec.prevValid := fun u x => by cases u <;> rfl
  cases hi : commandUnit i with
  | none =>
    rcases exec_request_cases hi h with ⟨u, -, rfl⟩ | ⟨u, p, c, r, d, -, -, rfl⟩ | ⟨r, -, rfl⟩ <;> simp [hdict]
  | some u =>
    cases u with
    | dec => exact absurd hi hu
    | enc =>
      rw [exec_encCommand_frame hi h]
      exact ⟨rfl, rfl⟩

end

/-- Settles O26: what `fetch` finds decides the step, and each command of `DEC` has its row of the table. -/
theorem decoderStateTransitions : Obligations.DecoderStateTransitions := by
  intro s t h
  refine ⟨fun hf => ?_, fun s' hf => ?_, fun s' hf => ?_, fun i s' hf => ?_⟩
  · simp only [step, hf] at h
    cases h
    exact ⟨rfl, rfl⟩
  · simp only [step, hf] at h
    cases h
    rfl
  · simp only [step, hf] at h
    cases h
    rw [State.refuseWord_dec, fetch_dec (.inr hf)]
    exact ⟨rfl, rfl⟩
  · simp only [step, hf] at h
    rw [← fetch_dec (.inl ⟨i, hf⟩)]
    refine ⟨?_, ?_, ?_, ?_⟩
    · rintro rfl
      exact exec_decStart_state h
    · rintro k rfl
      exact exec_decCode_state h
    · rintro rfl
      exact exec_decEnd_state h
    · intro hu
      obtain ⟨hctl, hv⟩ := exec_other_dec hu h
      exact ⟨congrArg Control.state hctl, hv⟩

/-! ## `DEC.CODE` on the registers (R141, R144) -/

/-- The decoder after the first code of a call, whose String is `w` (R141). -/
def Decoder.emitFirst (k : Code) (w : Str) (d : Decoder) : Decoder :=
  { d with out := d.out ++ w.toList, prevCode := k, prevValid := true }

/-- The decoder after a subsequent code, whose entry is `w` (R141). -/
def Decoder.emit (k : Code) (w : Str) (d : Decoder) : Decoder :=
  { d with
    out := d.out ++ w.toList
    dict := { mem := d.dict.mem.write (lowCode d.dict.nextCode).toNat ⟨d.prevCode, w.head⟩
              nextCode := d.dict.nextCode + 1 }
    prevCode := k }

@[simp] theorem Decoder.emit_ctl (k : Code) (w : Str) (d : Decoder) : (d.emit k w).ctl = d.ctl := rfl
@[simp] theorem Decoder.emit_prevValid (k : Code) (w : Str) (d : Decoder) : (d.emit k w).prevValid = d.prevValid := rfl
@[simp] theorem Decoder.emit_prevCode (k : Code) (w : Str) (d : Decoder) : (d.emit k w).prevCode = k := rfl
@[simp] theorem Decoder.emit_out (k : Code) (w : Str) (d : Decoder) : (d.emit k w).out = d.out ++ w.toList := rfl

/-- `w` is the entry of the subsequent code `k`: its String, or for the code that equals `next_code` the previous String
and its own first symbol (R141). -/
def Decoder.Entry (d : Decoder) (k : Code) (w : Str) : Prop :=
  (k.toNat < d.dict.nextCode.toNat ∧ d.dict.str k = some w) ∨
  (k.toNat = d.dict.nextCode.toNat ∧ ∃ v, d.dict.str d.prevCode = some v ∧ w = v.snoc v.head)

section
variable {cap : DictCap} {d : Decoder} {k : Code} {w : Str}

theorem Decoder.codeRule_of_first_bound (hv : d.prevValid = false) (hw : d.dict.str k = some w) :
    d.codeRule cap k = .next (d.emitFirst k w) := by
  simp [Decoder.codeRule, hv, Decoder.firstCodeRule, bound_of_str hw, str_eq_some.1 hw, Decoder.emitFirst]

theorem Decoder.codeRule_of_first_unbound (hv : d.prevValid = false) (hk : d.dict.nextCode.toNat ≤ k.toNat) :
    d.codeRule cap k = .next (d.raise .invalidData k) := by
  simp [Decoder.codeRule, hv, Decoder.firstCodeRule, (bound_false_iff _ _).2 hk]

theorem Decoder.codeRule_of_above (hv : d.prevValid = true) (hk : d.dict.nextCode.toNat < k.toNat) :
    d.codeRule cap k = .next (d.raise .invalidData k) := by
  have hne : zext33 k ≠ d.dict.nextCode := fun h => by rw [← h, zext33_toNat] at hk; exact lt_irrefl _ hk
  simp [Decoder.codeRule, hv, Decoder.nextCodeRule, Decoder.entryOf, (bound_false_iff _ _).2 hk.le, hne]

variable (hd : d.dict.Inv cap) (hb : d.dict.bound d.prevCode = true)
include hd hb

/-- What `DEC.CODE` finds as the entry of a subsequent code is its entry (R141). -/
theorem Decoder.entryOf_eq_some_iff : d.entryOf k = .next (some w) ↔ d.Entry k w := by
  obtain ⟨v, hv, hfetch, hfirst, -⟩ := str_spec hd hb
  constructor
  · intro h
    rcases Decoder.entryOf_cases h with ⟨hk, w', hw, heq⟩ | ⟨-, hk, w', c, hw, hc, heq⟩ | ⟨-, -, heq⟩
    · cases heq
      exact .inl ⟨(bound_iff _ _).1 hk, str_eq_some.2 hw⟩
    · obtain rfl : v = w' := by simpa [hfetch] using hw
      obtain rfl : v.head = c := by simpa [hfirst] using hc
      cases heq
      exact .inr ⟨hk, v, hv, rfl⟩
    · cases heq
  · rintro (⟨hk, hw⟩ | ⟨hk, v', hv', rfl⟩)
    · simp [Decoder.entryOf, (bound_iff _ _).2 hk, str_eq_some.1 hw]
    · obtain rfl : v = v' := Option.some.inj (hv.symm.trans hv')
      have hnext : zext33 k = d.dict.nextCode := BitVec.eq_of_toNat_eq (by rw [zext33_toNat, hk])
      simp [Decoder.entryOf, (bound_false_iff _ _).2 hk.ge, hnext, hfetch, hfirst]

/-- Every code up to `next_code` has an entry (R141). -/
theorem Decoder.exists_entry (hk : k.toNat ≤ d.dict.nextCode.toNat) : ∃ w, d.Entry k w := by
  rcases hk.lt_or_eq with hlt | heq
  · obtain ⟨w, hw, -⟩ := str_spec hd ((bound_iff _ _).2 hlt)
    exact ⟨w, .inl ⟨hlt, hw⟩⟩
  · obtain ⟨v, hv, -⟩ := str_spec hd hb
    exact ⟨_, .inr ⟨heq, v, hv, rfl⟩⟩

/-- A code up to `next_code` raises `DICT_FULL` where there is no free cell (R141). -/
theorem Decoder.Entry.codeRule_of_full (hw : d.Entry k w) (hv : d.prevValid = true) (hf : d.dict.isFull cap = true) :
    d.codeRule cap k = .next (d.raise .dictFull k) := by
  simp [Decoder.codeRule, hv, Decoder.nextCodeRule, (Decoder.entryOf_eq_some_iff hd hb).2 hw, Decoder.emitRule, hf]

/-- A code up to `next_code` emits its entry where there is room (R141). -/
theorem Decoder.Entry.codeRule_of_room (hw : d.Entry k w) (hv : d.prevValid = true) (hcap : cap.wf = true)
    (hlt : d.dict.nextCode.toNat < cap.limit) : d.codeRule cap k = .next (d.emit k w) := by
  have hfull := not_full_of_lt hlt
  have hinsert := insert_ok w.head hb hfull (hd.nextCell hcap hlt)
  simp [Decoder.codeRule, hv, Decoder.nextCodeRule, (Decoder.entryOf_eq_some_iff hd hb).2 hw, Decoder.emitRule, hfull,
    hinsert, Decoder.emit]

/-- After a subsequent code its own String is the entry that was emitted: at `next_code` stands the previous String and
the first symbol of the entry (R154, R203). -/
theorem Decoder.Entry.str_emit (hcap : cap.wf = true) (hlt : d.dict.nextCode.toNat < cap.limit) (hw : d.Entry k w) :
    (d.emit k w).dict.str k = some w := by
  obtain ⟨-, -, hlow, hold, ⟨v, hv, hnew⟩, -, -⟩ := insert_str (c := w.head) hd hcap hb hlt
  rcases hw with ⟨hk, hw⟩ | ⟨hk, v', hv', rfl⟩
  · exact (hold k ((bound_iff _ _).2 hk)).trans hw
  · obtain rfl : v = v' := Option.some.inj (hv.symm.trans hv')
    obtain rfl : k = lowCode d.dict.nextCode := BitVec.eq_of_toNat_eq (hk.trans hlow.symm)
    exact hnew

end

/-- Settles O21: in a seeded dictionary the bound codes are the seeds, and a seed's String is its one symbol. -/
theorem decCodeFirstCode : Obligations.DecCodeFirstCode := by
  intro s k hrun hv hn
  have h256 : s.dec.dict.nextCode.toNat = 256 := congrArg BitVec.toNat hn
  rw [exec_decCode_of_run k hrun]
  refine ⟨fun hk => ?_, fun hk => ?_⟩
  · have hw := str_seed ((bound_iff s.dec.dict k).2 (hk.trans_eq h256.symm)) hk
    exact onDec_of_next (Decoder.codeRule_of_first_bound hv hw)
  · exact onDec_of_next (Decoder.codeRule_of_first_unbound hv (h256.trans_le hk))

/-- Settles O22: whether the code is bound decides a first code; a code up to `next_code` has an entry, and the room
decides whether it is emitted. -/
theorem decCodeFollowsTheLoopBody : Obligations.DecCodeFollowsTheLoopBody := by
  intro s k hrun hcap hd
  rw [exec_decCode_of_run k hrun]
  refine ⟨fun hv => ⟨fun hk => ?_, fun hk => ?_⟩,
    fun hv hprev => ⟨fun hk => ?_, fun hk hfull => ?_, fun hk hroom => ?_⟩⟩
  · obtain ⟨w, hw, -⟩ := str_spec hd ((bound_iff _ k).2 hk)
    exact ⟨w, hw, onDec_of_next (Decoder.codeRule_of_first_bound hv hw)⟩
  · exact onDec_of_next (Decoder.codeRule_of_first_unbound hv hk)
  · exact onDec_of_next (Decoder.codeRule_of_above hv hk)
  · have hb := (bound_iff _ _).2 hprev
    obtain ⟨w, hw⟩ := Decoder.exists_entry hd hb hk
    exact onDec_of_next (hw.codeRule_of_full hd hb hv ((isFull_iff _ _).2 hfull))
  · have hb := (bound_iff _ _).2 hprev
    obtain ⟨w, hw⟩ := Decoder.exists_entry hd hb hk
    obtain ⟨-, -, -, -, -, hnew, hold⟩ := insert_str (c := w.head) hd hcap hb hroom
    refine ⟨w, _, onDec_of_next (hw.codeRule_of_room hd hb hv hcap hroom), fun hlt => ?_, fun heq => ?_, hnew, hold⟩
    · rcases hw with ⟨-, hw⟩ | ⟨heq, -⟩
      · exact hw
      · exact absurd heq hlt.ne
    · rcases hw with ⟨hlt, -⟩ | ⟨-, hw⟩
      · exact absurd heq hlt.ne
      · exact hw

/-! ## The previous String (R27, R154) -/

theorem Decoder.prevStr_eq_some {d : Decoder} {w : List Symbol} :
    d.prevStr = some w ↔ d.prevValid = true ∧ d.dict.decMap d.prevCode = some w := by
  simp [Decoder.prevStr]

/-- What a `DEC.CODE` that is no fault leaves: a first code keeps the dictionary, a subsequent one inserts (R141). -/
theorem Decoder.Inv.codeRule_completes {cap : DictCap} {d d' : Decoder} {k : Code} (hd : d.Inv cap)
    (h : d.codeRule cap k = .next d') (hrun : d'.ctl.state = .run) :
    (∃ w, d.dict.str k = some w ∧ d' = d.emitFirst k w) ∨
    (∃ w, d.prevValid = true ∧ d.Entry k w ∧ d.dict.nextCode.toNat < cap.limit ∧ d' = d.emit k w) := by
  rcases Decoder.codeRule_cases h with ⟨-, h⟩ | ⟨-, -, rfl⟩ | ⟨hv, w, hw, h⟩
  · rcases Decoder.firstCodeRule_cases h with ⟨-, rfl⟩ | ⟨-, w, hw, rfl⟩
    · simp at hrun
    · exact .inl ⟨w, str_eq_some.2 hw, rfl⟩
  · simp at hrun
  · rcases Decoder.emitRule_cases h with ⟨-, rfl⟩ | ⟨hf, hb, hcell, rfl⟩
    · simp at hrun
    · exact .inr ⟨w, hv, (Decoder.entryOf_eq_some_iff hd.dict hb).1 hw, hd.dict.lt_limit hf hcell, rfl⟩

/-- Settles O23: a first code emits its own String; a subsequent one emits its entry, which is its String afterwards. -/
theorem decCodeLeavesTheEmittedStringAsPrevious : Obligations.DecCodeLeavesTheEmittedStringAsPrevious := by
  intro s t k hs hrun h htrun
  rw [exec_decCode_of_run k hrun] at h
  obtain ⟨d', hd', rfl⟩ := onDec_eq_next.1 h
  rcases hs.dec.codeRule_completes hd' htrun with ⟨w, hw, rfl⟩ | ⟨w, hv, hw, hlt, rfl⟩
  · exact ⟨rfl, ⟨w.toList, Decoder.prevStr_eq_some.2 ⟨rfl, decMap_eq_some.2 ⟨w, hw, rfl⟩⟩, rfl⟩, fun _ _ => rfl⟩
  · have hb := hs.dec.prevBound hv
    obtain ⟨-, -, -, hold, -⟩ := insert_str (c := w.head) hs.dec.dict hs.config hb hlt
    have hstr := hw.str_emit hs.dec.dict hb hs.config hlt
    exact ⟨rfl, ⟨w.toList, Decoder.prevStr_eq_some.2 ⟨hv, decMap_eq_some.2 ⟨w, hstr, rfl⟩⟩, rfl⟩,
      fun j hj => congrArg _ (hold j hj)⟩

end Sys2Proof.Machine

/-! PROOFS. The function `decode` on its own: what each code of a stream may be, and that it restores what `encode` was
given (R151, R153, R156). -/

namespace Sys2Proof.Machine

/-! ## The loop of `decode` (R151) -/

/-- A turn accepts exactly the codes up to the length of the dictionary (R151). -/
theorem DecLoop.entry_isSome_iff (l : DecLoop) (k : Nat) : (∃ w, l.entry k = some w) ↔ k ≤ l.dict.length := by
  rcases Nat.lt_trichotomy k l.dict.length with hk | rfl | hk
  · simp [DecLoop.entry, hk, hk.le]
  · simp [DecLoop.entry]
  · simp [DecLoop.entry, hk.not_gt, hk.ne', hk]

theorem DecLoop.turn_eq_some {l x : DecLoop} {k : Nat} : l.turn k = some x ↔ ∃ w, l.entry k = some w ∧
    x = { dict := l.dict ++ [l.prev ++ w.take 1], prev := w, out := l.out ++ w } := by
  cases hw : l.entry k with
  | none => simp [DecLoop.turn, hw]
  | some w => simp [DecLoop.turn, hw, eq_comm]

theorem DecLoop.turn_eq_none {l : DecLoop} {k : Nat} (h : l.dict.length < k) : l.turn k = none := by
  have hnone : ¬ ∃ w, l.entry k = some w := fun hw => ((l.entry_isSome_iff k).1 hw).not_gt h
  rw [Option.eq_none_iff_forall_not_mem]
  intro x hx
  obtain ⟨w, hw, -⟩ := DecLoop.turn_eq_some.1 hx
  exact hnone ⟨w, hw⟩

/-- A turn lengthens the dictionary by one String. -/
theorem DecLoop.length_dict_turn {l x : DecLoop} {k : Nat} (h : l.turn k = some x) :
    x.dict.length = l.dict.length + 1 := by
  obtain ⟨w, -, rfl⟩ := DecLoop.turn_eq_some.1 h
  rw [List.length_append, List.length_singleton]

/-- What may stand first in a list and at every later place, counted from there. -/
theorem forall_getElem?_cons_iff {b k : Nat} {ks : List Nat} :
    (∀ i j, (k :: ks)[i]? = some j → j ≤ b + i) ↔ k ≤ b ∧ ∀ i j, ks[i]? = some j → j ≤ b + 1 + i := by
  constructor
  · intro h
    refine ⟨h 0 k rfl, fun i j hj => ?_⟩
    have := h (i + 1) j (by rwa [List.getElem?_cons_succ])
    omega
  · rintro ⟨hk, h⟩ i j hj
    cases i with
    | zero =>
      obtain rfl : k = j := by simpa using hj
      exact hk
    | succ i =>
      have := h i j (by rwa [List.getElem?_cons_succ] at hj)
      omega

/-- The loop accepts a list of codes exactly when each is at most the length the dictionary has then (R153). -/
theorem DecLoop.foldlM_turn_isSome_iff (ks : List Nat) (l : DecLoop) :
    (∃ x, ks.foldlM DecLoop.turn l = some x) ↔ ∀ i k, ks[i]? = some k → k ≤ l.dict.length + i := by
  induction ks generalizing l with
  | nil => simp
  | cons k ks ih =>
    rw [forall_getElem?_cons_iff, List.foldlM_cons]
    by_cases hk : k ≤ l.dict.length
    · obtain ⟨w, hw⟩ := (l.entry_isSome_iff k).2 hk
      have hturn := DecLoop.turn_of_entry hw
      have hlen := DecLoop.length_dict_turn hturn
      rw [hturn, Option.bind_eq_bind, Option.bind_some, ih, hlen]
      exact (and_iff_right hk).symm
    · rw [DecLoop.turn_eq_none (not_le.1 hk)]
      simp [hk]

/-! ## A whole list of codes -/

/-- What `decode` carries after a list of codes: the seeds before the first, the loop of `decode` from then on (R151);
`none` is `INVALID_DATA`. -/
def decodeState : List Nat → Option DecLoop
  | [] => some { dict := seedStrings, prev := [], out := [] }
  | k :: ks => decodeLoop (k :: ks)

theorem decodeState_of_ne_nil {ks : List Nat} (h : ks ≠ []) : decodeState ks = decodeLoop ks := by
  cases ks with
  | nil => exact absurd rfl h
  | cons k ks => rfl

/-- `decode` gives the symbols it has collected, and fails where its loop does. -/
theorem decodeCodes_eq (ks : List Nat) : decodeCodes ks = (decodeState ks).map DecLoop.out := by
  cases ks with
  | nil => rfl
  | cons k ks =>
    rw [decodeCodes, decodeState, decodeLoop]
    cases (DecLoop.first k).bind fun l => ks.foldlM DecLoop.turn l <;> rfl

theorem decodeCodes_isSome_iff (ks : List Nat) : (∃ d, decodeCodes ks = some d) ↔ ∃ x, decodeState ks = some x := by
  rw [decodeCodes_eq]
  cases decodeState ks <;> simp

theorem length_seedStrings : seedStrings.length = 256 := by
  rw [seedStrings, List.length_map, List.length_range]

/-- What the loop of `decode` carries after a first code below 256 (R151). -/
def DecLoop.begun (c : Symbol) : DecLoop := { dict := seedStrings, prev := [c], out := [c] }

theorem DecLoop.first_of_lt {k : Nat} (h : k < 256) : DecLoop.first k = some (.begun (BitVec.ofNat 8 k)) := by
  have hget : seedStrings[k]? = some [BitVec.ofNat 8 k] := by simp [seedStrings, h]
  rw [DecLoop.first, hget]
  rfl

theorem DecLoop.first_of_ge {k : Nat} (h : 256 ≤ k) : DecLoop.first k = none := by
  have hget : seedStrings[k]? = none := List.getElem?_eq_none (length_seedStrings.trans_le h)
  rw [DecLoop.first, hget]

/-- Settles O57: a first code is a seed, and each later code is at most the length of the dictionary, which is 256 after
the first and grows by one with each. -/
theorem acceptedStreamsAreExactlyTheBounded : Obligations.AcceptedStreamsAreExactlyTheBounded := by
  intro cs
  cases cs with
  | nil => simp [decodeCodes]
  | cons k ks =>
    rw [decodeCodes_isSome_iff, decodeState, decodeLoop, forall_getElem?_cons_iff]
    by_cases hk : k ≤ 255
    · rw [DecLoop.first_of_lt (Nat.lt_succ_of_le hk), Option.bind_some, DecLoop.foldlM_turn_isSome_iff, DecLoop.begun,
        length_seedStrings]
      exact (and_iff_right hk).symm
    · rw [DecLoop.first_of_ge (not_le.1 hk)]
      simp [hk]

/-- Settles O55: the loop of `decode` follows that of `encode` one insertion behind. -/
theorem decodeOfEncodeIsTheInput : Obligations.DecodeOfEncodeIsTheInput :=
  decodeCodes_encodeBytes

/-- Given all codes of `encode`, `decode` ends with the dictionary of `encode` (R155). -/
theorem decodeState_encodeBytes (d : List Symbol) : ∃ x, decodeState (encodeBytes d) = some x ∧
    x.dict = (d.foldl EncLoop.turn .init).dict ∧ x.out = d := by
  have h := encodeLoop_inv d
  rw [encodeBytes, EncLoop.flush]
  split
  · next hcur =>
    rcases h.behind with ⟨hout, hdict, hd⟩ | ⟨hne, -⟩
    · rw [hout]
      exact ⟨_, rfl, hdict.symm, hcur.symm.trans hd⟩
    · exact absurd hcur hne
  · next hcur =>
    have hloop := h.decodeLoop_match hcur
    exact ⟨_, (decodeState_of_ne_nil (by simp)).trans hloop, rfl, rfl⟩

end Sys2Proof.Machine

/-! PROOFS. A whole decoder call computes `decode` (R151): the decoder follows the loop of `decode`, code by code, as long
as there is room, and the run of the call is that loop between `DEC.START` and `DEC.END`. -/

namespace Sys2Proof.Machine

/-! ## The decoder and the loop of `decode` -/

/-- The registers of a decoder in a call, after its first code, stand for what the loop of `decode` carries (R151). -/
structure Decoder.Follows (d : Decoder) (l : DecLoop) : Prop where
  running : d.ctl.state = .run
  dict : d.dict.Lists l.dict
  prev : d.prevStr = some l.prev
  out : d.out = l.out

/-- A first code below 256 begins the loop (R144). -/
theorem Decoder.Follows.begun (cap : DictCap) (d : Decoder) {k : Code} (hk : k.toNat < 256) :
    ∃ d', d.started.codeRule cap k = .next d' ∧ d'.ctl = d.started.ctl ∧ d'.Follows (.begun (lowSym k)) := by
  have hw := str_seed ((bound_seed_iff d.dict k).2 hk) hk
  exact ⟨_, Decoder.codeRule_of_first_bound rfl hw, rfl, rfl, .seed d.dict,
    Decoder.prevStr_eq_some.2 ⟨rfl, decMap_eq_some.2 ⟨_, hw, rfl⟩⟩, rfl⟩

section
variable {cap : DictCap} {d : Decoder} {l : DecLoop} (hl : d.Follows l)
include hl

/-- A code's entry in the decoder is its entry in the loop (R151). -/
theorem Decoder.Follows.entry {k : Code} {w : Str} (hw : d.Entry k w) : l.entry k.toNat = some w.toList := by
  have hsize := hl.dict.size
  rcases hw with ⟨hk, hw⟩ | ⟨hk, v, hv, rfl⟩
  · have hget : l.dict[k.toNat]? = some w.toList :=
      hl.dict.encMap_iff.1 ⟨(bound_iff _ _).2 hk, decMap_eq_some.2 ⟨w, hw, rfl⟩⟩
    rw [DecLoop.entry, if_pos (hk.trans_eq hsize.symm), hget]
  · obtain ⟨-, hprev⟩ := Decoder.prevStr_eq_some.1 hl.prev
    obtain ⟨v', hv', hprev'⟩ := decMap_eq_some.1 hprev
    obtain rfl : v = v' := Option.some.inj (hv.symm.trans hv')
    rw [DecLoop.entry, hk, ← hsize, if_neg (lt_irrefl _), if_pos rfl, ← hprev']
    rfl

variable (hcap : cap.wf = true) (hd : d.Inv cap)
include hcap hd

/-- Emitting the entry of a code is a turn of the loop (R141, R151). -/
theorem Decoder.Follows.emit {k : Code} {w : Str} (hw : d.Entry k w) (hlt : d.dict.nextCode.toNat < cap.limit) :
    ∃ x, l.turn k.toNat = some x ∧ (d.emit k w).Follows x := by
  obtain ⟨hv, hprev⟩ := Decoder.prevStr_eq_some.1 hl.prev
  have hb := hd.prevBound hv
  have hstr := hw.str_emit hd.dict hb hcap hlt
  refine ⟨_, DecLoop.turn_of_entry (hl.entry hw), hl.running, ?_, ?_, ?_⟩
  · exact hl.dict.insert hcap hd.dict ⟨hb, hprev⟩ hlt
  · exact Decoder.prevStr_eq_some.2 ⟨hv, decMap_eq_some.2 ⟨w, hstr, rfl⟩⟩
  · rw [Decoder.emit_out, hl.out]

/-- `DEC.CODE` does one turn of the loop, or fails where the turn does, or finds no room for the entry the turn inserts
(R141, R151). -/
theorem Decoder.Follows.codeRule (k : Code) (hroom : cap = .unbounded → l.dict.length < 2 ^ 32) :
    ∃ d', d.codeRule cap k = .next d' ∧
      ((∃ x, l.turn k.toNat = some x ∧ d'.ctl = d.ctl ∧ d'.Follows x) ∨
       (l.turn k.toNat = none ∧ d' = d.raise .invalidData k) ∨
       (cap.limit = l.dict.length ∧ d' = d.raise .dictFull k)) := by
  have hsize := hl.dict.size
  obtain ⟨hv, -⟩ := Decoder.prevStr_eq_some.1 hl.prev
  have hb := hd.prevBound hv
  rcases lt_or_ge d.dict.nextCode.toNat k.toNat with hk | hk
  · exact ⟨_, Decoder.codeRule_of_above hv hk, .inr (.inl ⟨DecLoop.turn_eq_none (hsize.trans_lt hk), rfl⟩)⟩
  · obtain ⟨w, hw⟩ := Decoder.exists_entry hd.dict hb hk
    cases hf : d.dict.isFull cap with
    | true =>
      have hlimit : cap.limit = l.dict.length := by rw [(isFull_iff _ _).1 hf, hsize]; rfl
      exact ⟨_, hw.codeRule_of_full hd.dict hb hv hf, .inr (.inr ⟨hlimit, rfl⟩)⟩
    | false =>
      have hlt : d.dict.nextCode.toNat < cap.limit := by
        rcases room_of_not_full hd.dict hf with hlt | ⟨hunb, hn⟩
        · exact hlt
        · have := hroom hunb
          omega
      obtain ⟨x, hx, hfollows⟩ := hl.emit hcap hd hw hlt
      exact ⟨_, hw.codeRule_of_room hd.dict hb hv hcap hlt, .inl ⟨x, hx, rfl, hfollows⟩⟩

end

/-! ## The words of a call -/

section
variable {s : State} {rest : List HostEvent} (hq : s.request = none)
include hq

theorem step_decStart (hnot : s.dec.ctl.state ≠ .run) (hin : s.input = commandEvent .decStart ++ rest) :
    step s = .next ((s.withInput rest).withDec s.dec.started) :=
  (step_commandEvent (by simp [commandUnit]) hq hin).trans (exec_decStart_of_not_run hnot)

theorem step_decCode {k : Code} {d : Decoder} (hrun : s.dec.ctl.state = .run)
    (hin : s.input = commandEvent (.decCode k) ++ rest) (h : s.dec.codeRule s.config.dictCap k = .next d) :
    step s = .next ((s.withInput rest).withDec d) := by
  rw [step_commandEvent (by simp [commandUnit]) hq hin, exec_decCode_of_run (s := s.withInput rest) k hrun]
  exact onDec_of_next h

theorem step_decEnd (hrun : s.dec.ctl.state = .run) (hin : s.input = commandEvent .decEnd ++ rest) :
    step s = .next ((s.withInput rest).withDec s.dec.ended) :=
  (step_commandEvent (by simp [commandUnit]) hq hin).trans (exec_decEnd_of_run hrun)

end

/-! ## The run of a call -/

/-- From `s`, a moment of a decoder call, `n` steps end the call with the decoder `d`, the outcome of the call is what
`d` shows, and the words of `rest` are left (R200). -/
structure State.DecCallEnds (s : State) (n : Nat) (rest : List HostEvent) (d : Decoder) : Prop where
  run : core.run n s = .next ((s.withInput rest).withDec d)
  outcome : ∀ m, n ≤ m → firstEnd .dec State.decEnd m s = endShown d.ctl d.out

/-- In `RUN` a call goes on: what its next state ends as, it ends as. -/
theorem State.DecCallEnds.step {s : State} {n : Nat} {more rest : List HostEvent} {d d' : Decoder}
    (hrun : s.dec.ctl.state = .run) (hstep : Machine.step s = .next ((s.withInput more).withDec d'))
    (h : ((s.withInput more).withDec d').DecCallEnds n rest d) : s.DecCallEnds (n + 1) rest d where
  run := (run_next hstep).trans h.run
  outcome := by
    intro m hm
    obtain ⟨m, rfl⟩ := Nat.exists_eq_add_of_le' (Nat.le_of_add_left_le hm)
    exact (firstEnd_step (endShown_run hrun) (by simp [State.ctlOf, hrun]) hstep m).trans
      (h.outcome m (Nat.le_of_add_le_add_right hm))

/-- `DEC.END` in `RUN` ends the call (R142). -/
theorem State.DecCallEnds.finish {s : State} {rest : List HostEvent} (hq : s.request = none)
    (hrun : s.dec.ctl.state = .run) (hin : s.input = commandEvent .decEnd ++ rest) :
    s.DecCallEnds 1 rest s.dec.ended :=
  .step hrun (step_decEnd hq hrun hin)
    ⟨rfl, fun m _ => (firstEnd_shown (endShown_done rfl) m).trans (endShown_done rfl).symm⟩

/-- In `FAULT` a call has ended; the rest of its words are consumed and change nothing (R143, R172, R200). -/
theorem State.DecCallEnds.of_fault (ks : List Code) {s : State} {rest : List HostEvent} (hq : s.request = none)
    (hf : s.dec.ctl.state = .fault) (hin : s.input = codeEvents ks ++ (commandEvent .decEnd ++ rest)) :
    s.DecCallEnds (ks.length + 1) rest s.dec where
  outcome := fun m _ => (firstEnd_shown (endShown_fault hf) m).trans (endShown_fault hf).symm
  run := by
    induction ks generalizing s with
    | nil =>
      have hexec : exec .decEnd (s.withInput rest) = .next (s.withInput rest) :=
        onDec_judged_of_ignored _ _ (ignored_finish.2 hf)
      exact run_next ((step_commandEvent (by simp [commandUnit]) hq hin).trans hexec)
    | cons k ks ih =>
      rw [codeEvents, List.append_assoc] at hin
      have hexec : ∀ input, exec (.decCode k) (s.withInput input) = .next (s.withInput input) := fun input =>
        onDec_judged_of_ignored _ _ (ignored_data.2 hf)
      rw [List.length_cons, run_next ((step_commandEvent (by simp [commandUnit]) hq hin).trans (hexec _))]
      exact ih hq hf rfl

/-- A code that raises a fault ends the call (R171, R200). -/
theorem State.DecCallEnds.raise (ks : List Code) {s : State} {rest : List HostEvent} {k : Code} {f : Cause}
    (hq : s.request = none) (hrun : s.dec.ctl.state = .run)
    (hin : s.input = commandEvent (.decCode k) ++ (codeEvents ks ++ (commandEvent .decEnd ++ rest)))
    (hrule : s.dec.codeRule s.config.dictCap k = .next (s.dec.raise f k)) :
    s.DecCallEnds (ks.length + 2) rest (s.dec.raise f k) :=
  .step hrun (step_decCode hq hrun hin hrule) (.of_fault ks (s := (s.withInput _).withDec (s.dec.raise f k)) hq rfl rfl)

/-- How a decoder call ends whose `decode` ends as `r` and that needs `need` entries: completed where there is room and
`decode` succeeds, in `INVALID_DATA` where there is room and it fails, and in `DICT_FULL` where it succeeds and there is
no room (R151, R10). -/
structure Decoder.Ends (cap : DictCap) (sticky : Bool) (r : Option DecLoop) (need : Nat) (d : Decoder) : Prop where
  completed : ∀ x, r = some x → need ≤ cap.limit →
    d.ctl = { state := .done, cause := .none, info := 0, sticky := sticky } ∧ d.out = x.out ∧
    d.dict.Lists x.dict ∧ d.dict.nextCode.toNat = need
  invalid : r = none → need ≤ cap.limit → d.ctl.state = .fault ∧ d.ctl.cause = .invalidData
  full : ∀ x, r = some x → cap.limit < need → d.ctl.state = .fault ∧ d.ctl.cause = .dictFull

/-- `DEC.END` ends a call as `decode` ends (R142, R151). -/
theorem Decoder.Ends.of_ended {cap : DictCap} {d : Decoder} {x : DecLoop} {need : Nat} (hd : d.Inv cap)
    (hrun : d.ctl.state = .run) (hout : d.out = x.out) (hdict : d.dict.Lists x.dict)
    (hneed : d.dict.nextCode.toNat = need) : d.ended.Ends cap d.ctl.sticky (some x) need where
  completed := by
    rintro _ ⟨⟩ _
    exact ⟨congrArg Control.finish (hd.ctl.eq_of_run hrun), hout, hdict, hneed⟩
  invalid := by simp
  full := fun _ _ hlt => absurd hd.dict.high (not_le.2 (hneed ▸ hlt))

/-- A call that meets a code `decode` fails on ends in `INVALID_DATA`. -/
theorem Decoder.Ends.of_invalid (cap : DictCap) (sticky : Bool) (need : Nat) (d : Decoder) (k : Code) :
    (d.raise .invalidData k).Ends cap sticky none need :=
  ⟨by simp, fun _ _ => ⟨rfl, rfl⟩, by simp⟩

/-- A call that needs more entries than there are, and has met no code `decode` fails on, ends in `DICT_FULL`. -/
theorem Decoder.Ends.of_full {cap : DictCap} {need : Nat} (h : cap.limit < need) (sticky : Bool) (r : Option DecLoop)
    (d : Decoder) (k : Code) : (d.raise .dictFull k).Ends cap sticky r need :=
  ⟨fun _ _ hle => absurd hle (not_le.2 h), fun _ hle => absurd hle (not_le.2 h), fun _ _ _ => ⟨rfl, rfl⟩⟩

/-- From a moment at which the decoder follows the loop, the rest of the call does the rest of the loop, and needs an
entry for each of its codes (R151). -/
theorem decCallEnds_of_follows (ks : List Code) {s : State} {l : DecLoop} {rest : List HostEvent} (hs : s.Inv)
    (hl : s.dec.Follows l) (hroom : s.config.dictCap = .unbounded → l.dict.length + ks.length ≤ 2 ^ 32)
    (hin : s.input = codeEvents ks ++ (commandEvent .decEnd ++ rest)) :
    ∃ d, s.DecCallEnds (ks.length + 1) rest d ∧
      d.Ends s.config.dictCap s.dec.ctl.sticky ((ks.map BitVec.toNat).foldlM DecLoop.turn l)
        (l.dict.length + ks.length) := by
  induction ks generalizing s l with
  | nil => exact ⟨_, .finish hs.port hl.running hin, .of_ended hs.dec hl.running hl.out hl.dict hl.dict.size.symm⟩
  | cons k ks ih =>
    rw [codeEvents, List.append_assoc] at hin
    rw [List.length_cons] at hroom ⊢
    obtain ⟨d', hrule, hcases⟩ := hl.codeRule hs.config hs.dec k fun h => by have := hroom h; omega
    have hstep := step_decCode hs.port hl.running hin hrule
    rw [List.map_cons, List.foldlM_cons]
    rcases hcases with ⟨x, hturn, hctl, hfollows⟩ | ⟨hturn, rfl⟩ | ⟨hfull, rfl⟩
    · have hneed : x.dict.length + ks.length = l.dict.length + (ks.length + 1) := by
        rw [DecLoop.length_dict_turn hturn]
        omega
      obtain ⟨d, hcall, hends⟩ := ih (stepKeepsTheInvariant _ _ hs hstep) hfollows
        (fun h => hneed.trans_le (hroom h)) rfl
      refine ⟨d, hcall.step hl.running hstep, ?_⟩
      rwa [hturn, Option.bind_eq_bind, Option.bind_some, ← hneed, ← hctl]
    · rw [hturn]
      exact ⟨_, .raise ks hs.port hl.running hin hrule, .of_invalid _ _ _ _ _⟩
    · exact ⟨_, .raise ks hs.port hl.running hin hrule, .of_full (by omega) _ _ _ _⟩

/-- From the beginning of a call its codes do `decode` (R151). -/
theorem decCallEnds_of_started (cs : List Code) {s : State} {d₀ : Decoder} {rest : List HostEvent} (hs : s.Inv)
    (hstart : s.dec = d₀.started) (hroom : s.config.dictCap = .unbounded → 255 + cs.length ≤ 2 ^ 32)
    (hin : s.input = codeEvents cs ++ (commandEvent .decEnd ++ rest)) :
    ∃ d, s.DecCallEnds (cs.length + 1) rest d ∧
      d.Ends s.config.dictCap s.dec.ctl.sticky (decodeState (cs.map BitVec.toNat)) (max 256 (255 + cs.length)) := by
  have hrun : s.dec.ctl.state = .run := by rw [hstart]; rfl
  cases cs with
  | nil =>
    refine ⟨_, .finish hs.port hrun hin, .of_ended hs.dec hrun ?_ ?_ ?_⟩
    · rw [hstart]; rfl
    · rw [hstart]; exact .seed d₀.dict
    · rw [hstart]; rfl
  | cons k ks =>
    rw [codeEvents, List.append_assoc] at hin
    have hneed : max 256 (255 + (ks.length + 1)) = seedStrings.length + ks.length := by
      rw [length_seedStrings]
      omega
    rw [List.length_cons] at hroom ⊢
    rw [hneed, List.map_cons, decodeState, decodeLoop]
    by_cases hk : k.toNat < 256
    · obtain ⟨d', hrule, hctl, hfollows⟩ := Decoder.Follows.begun s.config.dictCap d₀ hk
      rw [← hstart] at hrule hctl
      have hstep := step_decCode hs.port hrun hin hrule
      obtain ⟨d, hcall, hends⟩ := decCallEnds_of_follows ks (stepKeepsTheInvariant _ _ hs hstep) hfollows
        (fun h => by have := hroom h; rw [DecLoop.begun, length_seedStrings]; omega) rfl
      refine ⟨d, hcall.step hrun hstep, ?_⟩
      rw [DecLoop.first_of_lt hk, Option.bind_some, BitVec.ofNat_toNat, ← hctl]
      exact hends
    · have hk' : 256 ≤ k.toNat := not_lt.1 hk
      have hrule : s.dec.codeRule s.config.dictCap k = .next (s.dec.raise .invalidData k) := by
        rw [hstart]
        exact Decoder.codeRule_of_first_unbound rfl hk'
      rw [DecLoop.first_of_ge hk']
      exact ⟨_, .raise ks hs.port hrun hin hrule, .of_invalid _ _ _ _ _⟩

/-- A whole decoder call ends as `decode` does, and its outcome is what it shows at its end (R151, R200). -/
theorem decodeCall_ends (cs : List Code) {s : State} {rest : List HostEvent} (hs : s.Inv)
    (hnot : s.dec.ctl.state ≠ .run) (hin : s.input = decodeEvents cs ++ rest)
    (hroom : s.config.dictCap = .unbounded → 255 + cs.length ≤ 2 ^ 32) :
    ∃ d, core.run (cs.length + 2) s = .next ((s.withInput rest).withDec d) ∧
      d.Ends s.config.dictCap s.dec.ctl.sticky (decodeState (cs.map BitVec.toNat)) (max 256 (255 + cs.length)) ∧
      ∀ n, cs.length + 1 ≤ n → s.decCall n = endShown d.ctl d.out := by
  rw [decodeEvents, List.append_assoc, List.append_assoc] at hin
  have hstep := step_decStart hs.port hnot hin
  obtain ⟨d, hcall, hends⟩ := decCallEnds_of_started cs (stepKeepsTheInvariant _ _ hs hstep) rfl hroom rfl
  refine ⟨d, (run_next hstep).trans hcall.run, hends, fun n hn => ?_⟩
  have hfetch := fetch_commandEvent (i := startOf .dec) (by simp [startOf, commandUnit]) hs.port hin
  have hbegins := callBegins_eq_some (u := .dec).2 ⟨⟨_, hfetch⟩, hstep, rfl⟩
  rw [State.decCall, hbegins]
  exact hcall.outcome n hn

/-- Settles O54: `DEC.START` begins a call, its codes do the loop of `decode`, and the room and the success of `decode`
decide how it ends. -/
theorem decodeCallComputesDecode : Obligations.DecodeCallComputesDecode := by
  intro s cs rest hs hnot hin hroom
  obtain ⟨d, hrun, hends, hout⟩ := decodeCall_ends cs hs hnot hin hroom
  have hlimit := limit_ge hs.config
  rw [decodeCodes_eq]
  refine ⟨_, hrun, rfl, rfl, rfl, fun b hb hle => ?_, fun hb hle => ?_, fun b hb hlt => ?_⟩
  · obtain ⟨x, hx, rfl⟩ := Option.map_eq_some_iff.1 hb
    obtain ⟨hctl, hb, -, hnext⟩ := hends.completed x hx (max_le (by omega) hle)
    refine ⟨hctl, hb, hnext, fun n hn => ?_⟩
    rw [hout n hn, endShown_done (congrArg Control.state hctl), hb]
  · obtain ⟨hstate, hcause⟩ := hends.invalid (Option.map_eq_none_iff.1 hb) (max_le (by omega) hle)
    refine ⟨hstate, hcause, fun n hn => ?_⟩
    rw [hout n hn, endShown_fault hstate, hcause]
    rfl
  · obtain ⟨x, hx, -⟩ := Option.map_eq_some_iff.1 hb
    obtain ⟨hstate, hcause⟩ := hends.full x hx (hlt.trans_le (le_max_right _ _))
    refine ⟨hstate, hcause, fun n hn => ?_⟩
    rw [hout n hn, endShown_fault hstate, hcause]
    rfl

end Sys2Proof.Machine

/-! PROOFS. The round trip on the hardware (R155, R156): an encoder call that completes has done the loop of `encode`, and
a decoder call on its codes then completes with the same dictionary. -/

namespace Sys2Proof.Machine

/-! ## An encoder call that completes -/

/-- A run keeps the invariant. -/
theorem run_keeps_inv {n : Nat} {s t : State} (hs : s.Inv) (h : core.run n s = .next t) : t.Inv := by
  induction n generalizing s with
  | zero => cases h; exact hs
  | succ n ih =>
    obtain ⟨s', hstep, hrest⟩ := run_cases h
    exact ih (stepKeepsTheInvariant s s' hs hstep) hrest

/-- The encoder holds what `encode` has computed at its end: its dictionary and its codes (R131). -/
structure Encoder.Holds (e : Encoder) (l : EncLoop) : Prop where
  dict : e.dict.Lists l.dict
  out : e.out.map BitVec.toNat = l.flush

/-- `ENC.END` leaves what `encode` has computed (R122). -/
theorem Encoder.Follows.holds_ended {cap : DictCap} {e : Encoder} {l : EncLoop} (hcap : cap.wf = true) (he : e.Inv cap)
    (hl : e.Follows l) : e.ended.Holds l := by
  obtain ⟨-, hout, -⟩ := (hl.finish hcap he).completed (hl.dict.size.trans_le he.dict.high)
  exact ⟨hl.dict, hout⟩

/-- An `ENC.SYM` that goes through does a turn of the loop, or raises `DICT_FULL`: that it goes through is room enough
(R121, R131). -/
theorem Encoder.Follows.of_symRule {cap : DictCap} {e e' : Encoder} {l : EncLoop} {c : Symbol} (hcap : cap.wf = true)
    (he : e.Inv cap) (hl : e.Follows l) (h : e.symRule cap c = .next e') :
    e'.Follows (l.turn c) ∨ e'.ctl.state = .fault := by
  rcases he.symRule_onStrings hcap hl.cur h with ⟨k, hk, rfl⟩ | ⟨-, rfl⟩ | ⟨hnot, hv, hlt, rfl⟩
  · rw [EncLoop.turn_of_mem ((hl.dict.mem_iff hcap he.dict).2 ⟨k, hk⟩)]
    exact .inl ⟨hl.running, hl.dict, (Encoder.matchStr_of_match rfl).trans hk.2, hl.out⟩
  · exact .inr rfl
  · exact .inl (hl.emit hcap he hv (mt (hl.dict.mem_iff hcap he.dict).1 hnot) hlt)

/-- The step of an `ENC.SYM` word in `RUN` that goes through is its rule's (R121). -/
theorem symRule_of_step {s s' : State} {c : Symbol} {rest : List HostEvent} (hq : s.request = none)
    (hrun : s.enc.ctl.state = .run) (hin : s.input = commandEvent (.encSym c) ++ rest) (h : step s = .next s') :
    ∃ e, s.enc.symRule s.config.dictCap c = .next e ∧ s' = (s.withInput rest).withEnc e := by
  rw [step_commandEvent (by simp [commandUnit]) hq hin, exec_encSym_of_run (s := s.withInput rest) c hrun] at h
  exact onEnc_eq_next.1 h

/-- From a moment at which the encoder follows the loop, a run that completes the call does the rest of the loop. -/
theorem holds_of_follows (d : List Symbol) {s t : State} {l : EncLoop} {rest : List HostEvent} (hs : s.Inv)
    (hl : s.enc.Follows l) (hin : s.input = symEvents d ++ (commandEvent .encEnd ++ rest))
    (hrun : core.run (d.length + 1) s = .next t) (hdone : t.enc.ctl.state = .done) :
    t.dec = s.dec ∧ t.enc.Holds (d.foldl EncLoop.turn l) := by
  induction d generalizing s l with
  | nil =>
    rw [List.length_nil, run_next (step_encEnd hs.port hl.running hin)] at hrun
    cases hrun
    exact ⟨rfl, hl.holds_ended hs.config hs.enc⟩
  | cons c d ih =>
    rw [symEvents, List.append_assoc] at hin
    obtain ⟨s', hstep, hrest⟩ := run_cases hrun
    obtain ⟨e', hrule, rfl⟩ := symRule_of_step hs.port hl.running hin hstep
    have hs' := stepKeepsTheInvariant _ _ hs hstep
    rcases hl.of_symRule hs.config hs.enc hrule with hfollows | hfault
    · have hend := ih hs' hfollows rfl hrest
      exact hend
    · have hend := run_of_fault d hs'.port hfault rfl
      cases hend.symm.trans hrest
      simp [hfault] at hdone

/-- A whole encoder call that completes holds what `encode` computes, and the decoder is not touched (R131). -/
theorem encodeCall_holds {s t : State} {d : List Symbol} {rest : List HostEvent} (hs : s.Inv)
    (hnot : s.enc.ctl.state ≠ .run) (hin : s.input = encodeEvents d ++ rest)
    (hrun : core.run (d.length + 2) s = .next t) (hdone : t.enc.ctl.state = .done) :
    t.dec = s.dec ∧ t.enc.Holds (d.foldl EncLoop.turn .init) := by
  rw [encodeEvents, List.append_assoc, List.append_assoc] at hin
  have hstep := step_encStart hs.port hnot hin
  have hstarted := stepKeepsTheInvariant _ _ hs hstep
  rw [run_next hstep] at hrun
  have hend := holds_of_follows d hstarted (.start s.enc) rfl hrun hdone
  exact hend

/-! ## The two dictionaries in step (R155) -/

/-- Two dictionaries with the same list of Strings have the same codes for them. -/
theorem Dict.Lists.same {d d' : Dict} {L : List (List Symbol)} (h : d.Lists L) (h' : d'.Lists L) :
    d.nextCode = d'.nextCode ∧ ∀ k, d.bound k = true → d.decMap k = d'.decMap k := by
  have hnext : d.nextCode = d'.nextCode := BitVec.eq_of_toNat_eq (h.size.symm.trans h'.size)
  refine ⟨hnext, fun k hk => ?_⟩
  have hk' : d'.bound k = true := by rwa [bound_iff, ← hnext, ← bound_iff]
  rw [h.string k hk, h'.string k hk']

/-- Settles O56: a completed encoder call holds the codes and the dictionary of `encode`; `decode` on these codes ends
with the input and the same dictionary, and there is room for it, since the encoder had room. -/
theorem decodingTheEncodersOutputRestoresTheInput : Obligations.DecodingTheEncodersOutputRestoresTheInput := by
  intro s t d rest hs henc hdec hin hrun hdone
  have ht : t.Inv := run_keeps_inv hs hrun
  obtain ⟨htdec, hholds⟩ := encodeCall_holds hs henc hin hrun hdone
  obtain ⟨x, hx, hdict, hout⟩ := decodeState_encodeBytes d
  have hneed : max 256 (255 + t.enc.out.length) ≤ t.config.dictCap.limit := by
    have hlen : t.enc.out.length = (d.foldl EncLoop.turn .init).flush.length := by rw [← hholds.out, List.length_map]
    rw [hlen, ← (encodeLoop_inv d).length_flush, hholds.dict.size]
    exact ht.enc.dict.high
  have hroom : t.config.dictCap = .unbounded → 255 + t.enc.out.length ≤ 2 ^ 32 := fun _ =>
    (le_max_right _ _).trans (hneed.trans (limit_le ht.config))
  obtain ⟨u, hdecrun, hends, -⟩ := decodeCall_ends t.enc.out (rest := []) (ht.withInput (decodeEvents t.enc.out))
    (by rwa [State.withInput_dec, htdec]) (List.append_nil _).symm hroom
  rw [hholds.out] at hends
  obtain ⟨hctl, huout, hlists, -⟩ := hends.completed x hx hneed
  rw [hdict] at hlists
  obtain ⟨hnext, hmap⟩ := hlists.same hholds.dict
  exact ⟨_, hdecrun, congrArg Control.state hctl, huout.trans hout, rfl, hnext, hmap⟩

end Sys2Proof.Machine

/-! PROOFS. Faults: which command raises which and exactly when (R164), what taking one writes (R171), how a unit leaves
`FAULT` (R174), and that a fault on record stays on record until reset (R169). -/

namespace Sys2Proof.Machine

/-! ## Taking a fault, on the control registers -/

section
variable {c c' : Control} {f : Cause}

/-- Registers that keep their state take no fault. -/
theorem not_takesFault_of_state_eq (h : c'.state = c.state) : ¬ takesFault c c' f :=
  fun ⟨hnot, hfault, _⟩ => hnot (h ▸ hfault)

/-- The fault a fault entry takes is the one it records (R171). -/
theorem takesFault_iff_of_enters {g : Cause} (hs : c.state ≠ .fault) (h : c'.state = .fault ∧ c'.cause = g) :
    takesFault c c' f ↔ f = g := by
  simp [takesFault, hs, h, eq_comm]

/-- A `START` takes a fault exactly in `RUN`, and it is `PROTOCOL` (R123, R143, R164). -/
theorem takesFault_iff_of_start (hbegin : c.state ≠ .run → c'.state = .run)
    (hrun : c.state = .run → c'.state = .fault ∧ c'.cause = .protocol) :
    takesFault c c' f ↔ f = .protocol ∧ c.state = .run := by
  by_cases hq : c.state = .run
  · rw [takesFault_iff_of_enters (by simp [hq]) (hrun hq)]
    simp [hq]
  · simp [takesFault, hbegin hq, hq]

/-- Any other command takes in `RUN` what its rule raises, here `P`, and outside `RUN` it takes `PROTOCOL` exactly in
`IDLE` and `DONE` (R123, R143, R164). -/
theorem takesFault_iff_of_inCall {P : Prop} (hrun : c.state = .run → (takesFault c c' f ↔ P))
    (hout : c.state = .idle ∨ c.state = .done → c'.state = .fault ∧ c'.cause = .protocol) :
    takesFault c c' f ↔ (c.state = .run ∧ P) ∨ (f = .protocol ∧ (c.state = .idle ∨ c.state = .done)) := by
  cases hq : c.state with
  | idle => simpa using takesFault_iff_of_enters (c := c) (by simp [hq]) (hout (.inl hq))
  | run => simp [hrun hq]
  | done => simpa using takesFault_iff_of_enters (c := c) (by simp [hq]) (hout (.inr hq))
  | fault => simp [takesFault, hq]

/-- An `END` takes a fault exactly in `IDLE` and `DONE`, and it is `PROTOCOL` (R123, R143, R164). -/
theorem takesFault_iff_of_finish (hrun : c.state = .run → c'.state = .done)
    (hout : c.state = .idle ∨ c.state = .done → c'.state = .fault ∧ c'.cause = .protocol) :
    takesFault c c' f ↔ f = .protocol ∧ (c.state = .idle ∨ c.state = .done) := by
  rw [takesFault_iff_of_inCall (P := False) (fun hq => by simp [takesFault, hrun hq]) hout]
  simp

end

/-! ## What raises `DICT_FULL` and `INVALID_DATA` in `RUN` (R164) -/

/-- Where `ENC.SYM` is admitted, the fault it takes is `DICT_FULL`, and it takes it exactly where the match is not empty,
`D.LOOKUP` misses and no code is left. -/
theorem Encoder.Inv.symRule_takesFault_iff {cap : DictCap} {e e' : Encoder} {c : Symbol} {f : Cause} (he : e.Inv cap)
    (hrun : e.ctl.state = .run) (h : e.symRule cap c = .next e') :
    takesFault e.ctl e'.ctl f ↔ f = .dictFull ∧ e.matchValid = true ∧ cap = .finite e.dict.nextCode.toNat ∧
      ∀ k, 256 ≤ k → k < e.dict.nextCode.toNat → e.dict.mem.read k ≠ some ⟨e.matchCode, c⟩ := by
  have miss_iff (hv : e.matchValid = true) : e.dict.lookup e.matchCode c = .next .miss ↔
      ∀ k, 256 ≤ k → k < e.dict.nextCode.toNat → e.dict.mem.read k ≠ some ⟨e.matchCode, c⟩ := by
    rcases lookup_cases c he.dict (he.matchBound hv) with ⟨j, h256, hlt, hread, -, hl⟩ | ⟨hnone, hl⟩
    · exact iff_of_false (by simp [hl]) fun hnone => hnone j h256 hlt hread
    · exact iff_of_true hl hnone
  rw [← isFull_iff]
  constructor
  · rintro ⟨hnot, hfault, rfl⟩
    rcases symRule_control h with hctl | ⟨rfl, hv, hfull, hl⟩
    · exact absurd (hctl ▸ hfault) hnot
    · exact ⟨rfl, hv, hfull, (miss_iff hv).1 hl⟩
  · rintro ⟨rfl, hv, hfull, hnone⟩
    rw [Encoder.symRule_of_full hv ((miss_iff hv).2 hnone) hfull] at h
    cases h
    exact ⟨by simp [hrun], rfl, rfl⟩

/-- Where `DEC.CODE` is admitted, it takes `INVALID_DATA` exactly on a code that is not acceptable, and `DICT_FULL`
exactly on an acceptable subsequent code where no code is left. -/
theorem Decoder.Inv.codeRule_takesFault_iff {cap : DictCap} {d d' : Decoder} {k : Code} {f : Cause} (hd : d.Inv cap)
    (hrun : d.ctl.state = .run) (h : d.codeRule cap k = .next d') :
    takesFault d.ctl d'.ctl f ↔
      (f = .invalidData ∧ ((d.prevValid = false ∧ d.dict.nextCode.toNat ≤ k.toNat) ∨
        (d.prevValid = true ∧ d.dict.nextCode.toNat < k.toNat))) ∨
      (f = .dictFull ∧ d.prevValid = true ∧ k.toNat ≤ d.dict.nextCode.toNat ∧
        cap = .finite d.dict.nextCode.toNat) := by
  have enters (g : Cause) (h' : d.codeRule cap k = .next (d.raise g k)) : takesFault d.ctl d'.ctl g := by
    rw [h'] at h
    cases h
    exact ⟨by simp [hrun], rfl, rfl⟩
  rw [← isFull_iff]
  constructor
  · rintro ⟨hnot, hfault, rfl⟩
    rcases codeRule_control h with ⟨hctl, -⟩ | ⟨rfl, hbad⟩ | ⟨rfl, hfull⟩
    · exact absurd (hctl ▸ hfault) hnot
    · exact .inl ⟨rfl, hbad⟩
    · exact .inr ⟨rfl, hfull⟩
  · rintro (⟨rfl, ⟨hv, hk⟩ | ⟨hv, hk⟩⟩ | ⟨rfl, hv, hk, hfull⟩)
    · exact enters _ (Decoder.codeRule_of_first_unbound hv hk)
    · exact enters _ (Decoder.codeRule_of_above hv hk)
    · have hb := hd.prevBound hv
      obtain ⟨w, hw⟩ := Decoder.exists_entry hd.dict hb hk
      exact enters _ (hw.codeRule_of_full hd.dict hb hv hfull)

/-! ## Which command raises what (R164) -/

section
variable {s t : State} {f : Cause}

/-- `ENC.SYM` takes `DICT_FULL` in `RUN` by its rule, and `PROTOCOL` where no call is in progress. -/
theorem exec_encSym_takesFault_iff {c : Symbol} (hs : s.Inv) (h : exec (.encSym c) s = .next t) :
    takesFault s.enc.ctl t.enc.ctl f ↔
      (f = .dictFull ∧ s.enc.ctl.state = .run ∧ s.enc.matchValid = true ∧
        s.config.dictCap = .finite s.enc.dict.nextCode.toNat ∧
        ∀ k, 256 ≤ k → k < s.enc.dict.nextCode.toNat → s.enc.dict.mem.read k ≠ some ⟨s.enc.matchCode, c⟩) ∨
      (f = .protocol ∧ (s.enc.ctl.state = .idle ∨ s.enc.ctl.state = .done)) := by
  rw [and_left_comm]
  refine takesFault_iff_of_inCall (fun hrun => ?_) (exec_encSym_state h).2.1
  rw [exec_encSym_of_run c hrun] at h
  obtain ⟨e, he, rfl⟩ := onEnc_eq_next.1 h
  exact hs.enc.symRule_takesFault_iff hrun he

/-- `DEC.CODE` takes `INVALID_DATA` and `DICT_FULL` in `RUN` by its rule, and `PROTOCOL` where no call is in progress. -/
theorem exec_decCode_takesFault_iff {k : Code} (hs : s.Inv) (h : exec (.decCode k) s = .next t) :
    takesFault s.dec.ctl t.dec.ctl f ↔
      (f = .invalidData ∧ s.dec.ctl.state = .run ∧
        ((s.dec.prevValid = false ∧ s.dec.dict.nextCode.toNat ≤ k.toNat) ∨
         (s.dec.prevValid = true ∧ s.dec.dict.nextCode.toNat < k.toNat))) ∨
      (f = .dictFull ∧ s.dec.ctl.state = .run ∧ s.dec.prevValid = true ∧
        k.toNat ≤ s.dec.dict.nextCode.toNat ∧ s.config.dictCap = .finite s.dec.dict.nextCode.toNat) ∨
      (f = .protocol ∧ (s.dec.ctl.state = .idle ∨ s.dec.ctl.state = .done)) := by
  rw [and_left_comm, and_left_comm (a := f = .dictFull), ← or_assoc, ← and_or_left]
  refine takesFault_iff_of_inCall (fun hrun => ?_) (exec_decCode_state h).2.1
  rw [exec_decCode_of_run k hrun] at h
  obtain ⟨d, hd, rfl⟩ := onDec_eq_next.1 h
  exact hs.dec.codeRule_takesFault_iff hrun hd

/-- An instruction that is no command of `ENC` takes no fault in `ENC`. -/
theorem exec_other_not_encFault {i : Instr} (hu : commandUnit i ≠ some .enc) (h : exec i s = .next t) :
    ¬ takesFault s.enc.ctl t.enc.ctl f :=
  not_takesFault_of_state_eq (congrArg Control.state (exec_other_encCtl hu h))

/-- An instruction that is no command of `DEC` takes no fault in `DEC`. -/
theorem exec_other_not_decFault {i : Instr} (hu : commandUnit i ≠ some .dec) (h : exec i s = .next t) :
    ¬ takesFault s.dec.ctl t.dec.ctl f :=
  not_takesFault_of_state_eq (congrArg Control.state (exec_other_dec hu h).1)

end

/-- Settles O27: each command has its row of the table, `START` and `END` by their states alone, `ENC.SYM` and `DEC.CODE`
by what their rules raise. -/
theorem whichCommandRaisesWhat : Obligations.WhichCommandRaisesWhat := by
  intro i s t hs h
  refine ⟨?_, ?_, ?_, ?_, ?_, ?_, fun hu _ => exec_other_not_encFault hu h, fun hu _ => exec_other_not_decFault hu h⟩
  · rintro rfl f
    exact takesFault_iff_of_start (exec_encStart_state h).1 (exec_encStart_state h).2
  · rintro c rfl f
    exact exec_encSym_takesFault_iff hs h
  · rintro rfl f
    exact takesFault_iff_of_finish (exec_encEnd_state h).1 (exec_encEnd_state h).2.1
  · rintro rfl f
    exact takesFault_iff_of_start (exec_decStart_state h).1 (exec_decStart_state h).2
  · rintro k rfl f
    exact exec_decCode_takesFault_iff hs h
  · rintro rfl f
    exact takesFault_iff_of_finish (exec_decEnd_state h).1 (exec_decEnd_state h).2.1

/-! ## What taking a fault writes (R171) -/

/-- A command of `ENC` that takes a fault in `ENC` performs the fault entry with its `arg` and nothing else. -/
theorem exec_encCommand_faultEntry {i : Instr} {s t : State} {f : Cause} (hu : commandUnit i = some .enc)
    (h : exec i s = .next t) (hf : takesFault s.enc.ctl t.enc.ctl f) :
    f ≠ .none ∧ t = s.withEnc (s.enc.raise f (argOf i)) := by
  obtain ⟨hnot, hfault, rfl⟩ := hf
  rcases encCommand_cases hu with rfl | ⟨c, rfl⟩ | rfl
  · rcases execEncStart_cases h with ⟨-, rfl⟩ | ⟨-, rfl⟩
    · simp at hfault
    · exact ⟨by simp, rfl⟩
  · rcases execEncSym_cases h with ⟨-, e, he, rfl⟩ | ⟨-, rfl⟩ | ⟨-, rfl⟩
    · rcases symRule_control he with hctl | ⟨rfl, -⟩
      · exact absurd (hctl ▸ hfault) hnot
      · exact ⟨by simp, rfl⟩
    · exact ⟨by simp, rfl⟩
    · exact absurd hfault hnot
  · rcases execEncEnd_cases h with ⟨-, rfl⟩ | ⟨-, rfl⟩ | ⟨-, rfl⟩
    · simp at hfault
    · exact ⟨by simp, rfl⟩
    · exact absurd hfault hnot

/-- A command of `DEC` that takes a fault in `DEC` performs the fault entry with its `arg` and nothing else. -/
theorem exec_decCommand_faultEntry {i : Instr} {s t : State} {f : Cause} (hu : commandUnit i = some .dec)
    (h : exec i s = .next t) (hf : takesFault s.dec.ctl t.dec.ctl f) :
    f ≠ .none ∧ t = s.withDec (s.dec.raise f (argOf i)) := by
  obtain ⟨hnot, hfault, rfl⟩ := hf
  rcases decCommand_cases hu with rfl | ⟨k, rfl⟩ | rfl
  · rcases execDecStart_cases h with ⟨-, rfl⟩ | ⟨-, rfl⟩
    · simp at hfault
    · exact ⟨by simp, rfl⟩
  · rcases execDecCode_cases h with ⟨-, d, hd, rfl⟩ | ⟨-, rfl⟩ | ⟨-, rfl⟩
    · rcases codeRule_control hd with ⟨hctl, -⟩ | ⟨rfl, -⟩ | ⟨rfl, -⟩
      · exact absurd (hctl ▸ hfault) hnot
      · exact ⟨by simp, rfl⟩
      · exact ⟨by simp, rfl⟩
    · exact ⟨by simp, rfl⟩
    · exact absurd hfault hnot
  · rcases execDecEnd_cases h with ⟨-, rfl⟩ | ⟨-, rfl⟩ | ⟨-, rfl⟩
    · simp at hfault
    · exact ⟨by simp, rfl⟩
    · exact absurd hfault hnot

/-- Settles O28: a unit takes a fault in a command of its own alone, and there by the fault entry. -/
theorem faultEntryWritesFourRegisters : Obligations.FaultEntryWritesFourRegisters := by
  intro i s t f h
  constructor
  · intro hf
    have hu : commandUnit i = some .enc := by_contra fun hu => exec_other_not_encFault hu h hf
    exact exec_encCommand_faultEntry hu h hf
  · intro hf
    have hu : commandUnit i = some .dec := by_contra fun hu => exec_other_not_decFault hu h hf
    exact exec_decCommand_faultEntry hu h hf

/-! ## Leaving `FAULT` (R174) -/

/-- A step is a reset, leaves both units, or runs the instruction that was fetched on the units as they were. -/
theorem step_units {s t : State} (h : step s = .next t) :
    s.atReset ∨ (t.enc = s.enc ∧ t.dec = s.dec) ∨
    ∃ i s', fetch s = .run i s' ∧ exec i s' = .next t ∧ s'.enc = s.enc ∧ s'.dec = s.dec := by
  rcases step_cases h with ⟨-, rfl⟩ | ⟨ws, rest, -, hq, hi, -⟩ | ⟨w, rest, i, hf, -, -, -, h⟩ |
    ⟨w, rest, r, -, -, -, -, rfl⟩ | ⟨u, w, i, hf, -, -, h⟩
  · exact .inr (.inl ⟨rfl, rfl⟩)
  · exact .inl ⟨hq, ws, rest, hi⟩
  · exact .inr (.inr ⟨i, _, hf, h, rfl, rfl⟩)
  · exact .inr (.inl ⟨rfl, rfl⟩)
  · exact .inr (.inr ⟨i, _, hf, h, rfl, rfl⟩)

/-- In `FAULT` the encoder's control registers are kept by every instruction but `ENC.START`, which begins a call. -/
theorem exec_encCtl_of_fault {i : Instr} {s t : State} (hs : s.enc.ctl.state = .fault) (h : exec i s = .next t) :
    t.enc.ctl = s.enc.ctl ∨ (i = .encStart ∧ t.enc.ctl = s.enc.ctl.start) := by
  by_cases hu : commandUnit i = some .enc
  · rcases encCommand_cases hu with rfl | ⟨c, rfl⟩ | rfl
    · rcases execEncStart_cases h with ⟨-, rfl⟩ | ⟨hrun, -⟩
      · exact .inr ⟨rfl, rfl⟩
      · simp [hs] at hrun
    · exact .inl (congrArg Encoder.ctl ((exec_encSym_state h).2.2 hs))
    · exact .inl (congrArg Encoder.ctl ((exec_encEnd_state h).2.2 hs))
  · exact .inl (exec_other_encCtl hu h)

/-- In `FAULT` the decoder's control registers are kept by every instruction but `DEC.START`, which begins a call. -/
theorem exec_decCtl_of_fault {i : Instr} {s t : State} (hs : s.dec.ctl.state = .fault) (h : exec i s = .next t) :
    t.dec.ctl = s.dec.ctl ∨ (i = .decStart ∧ t.dec.ctl = s.dec.ctl.start) := by
  by_cases hu : commandUnit i = some .dec
  · rcases decCommand_cases hu with rfl | ⟨k, rfl⟩ | rfl
    · rcases execDecStart_cases h with ⟨-, rfl⟩ | ⟨hrun, -⟩
      · exact .inr ⟨rfl, rfl⟩
      · simp [hs] at hrun
    · exact .inl (congrArg Decoder.ctl ((exec_decCode_state h).2.2 hs))
    · exact .inl (congrArg Decoder.ctl ((exec_decEnd_state h).2.2 hs))
  · exact .inl (exec_other_dec hu h).1

/-- Settles O29: but for a reset a step changes a unit by an instruction alone, and in `FAULT` only the unit's own `START`
touches its control registers. -/
theorem onlyStartAndResetLeaveFault : Obligations.OnlyStartAndResetLeaveFault := by
  intro s t h
  rcases step_units h with hreset | ⟨henc, hdec⟩ | ⟨i, s', hf, h, henc, hdec⟩
  · exact ⟨fun _ _ => .inl hreset, fun _ _ => .inl hreset⟩
  · rw [henc, hdec]
    exact ⟨fun hs hn => absurd hs hn, fun hs hn => absurd hs hn⟩
  · rw [← henc, ← hdec]
    refine ⟨fun hs hn => .inr ?_, fun hs hn => .inr ?_⟩
    · rcases exec_encCtl_of_fault hs h with hkept | ⟨rfl, hstart⟩
      · exact absurd (hkept ▸ hs) hn
      · exact ⟨⟨s', hf⟩, hstart⟩
    · rcases exec_decCtl_of_fault hs h with hkept | ⟨rfl, hstart⟩
      · exact absurd (hkept ▸ hs) hn
      · exact ⟨⟨s', hf⟩, hstart⟩

/-! ## Faults on record (R35, R169) -/

/-- A fault is on record exactly where one of the three sticky bits is set (R35). -/
theorem clean_eq_false_iff (s : State) :
    s.clean = false ↔ s.enc.ctl.sticky = true ∨ s.dec.ctl.sticky = true ∨ s.cmdIllegal = true := by
  simp [State.clean, or_assoc, Decidable.imp_iff_not_or]

/-- A step that is no reset keeps a fault on record. -/
theorem step_keeps_record {s t : State} (h : step s = .next t) (hreset : ¬ s.atReset) (hc : s.clean = false) :
    t.clean = false := by
  obtain ⟨henc, hdec, hill⟩ := stickyBitsRecordUntilReset s t h hreset
  rw [clean_eq_false_iff] at hc ⊢
  exact hc.imp (fun hb => henc.2 (.inl hb)) (Or.imp (fun hb => hdec.2 (.inl hb)) fun hb => hill.2 (.inl hb))

/-- A step puts no request on a port and no event on the host's list. -/
theorem step_ports {s t : State} (h : step s = .next t) (hq : s.request = none) :
    t.request = none ∧ t.input ⊆ s.input := by
  rcases step_cases h with ⟨-, rfl⟩ | ⟨ws, rest, -, -, hi, rfl⟩ | ⟨w, rest, i, -, -, hi, -, h⟩ |
    ⟨w, rest, r, -, -, hi, -, rfl⟩ | ⟨u, w, i, -, hu, -⟩
  · exact ⟨hq, List.Subset.refl _⟩
  · exact ⟨rfl, hi ▸ List.subset_cons_self _ rest⟩
  · obtain ⟨-, -, hin, hreq⟩ := exec_frame h
    exact ⟨hreq.trans hq, by rw [hin, hi]; exact List.subset_cons_self _ rest⟩
  · exact ⟨hq, hi ▸ List.subset_cons_self _ rest⟩
  · simp [hq] at hu

/-- Settles O30, by induction over the run: no step of it is a reset, and every other step keeps the record. -/
theorem recordedFaultsMarkTheRun : Obligations.RecordedFaultsMarkTheRun := by
  intro n
  induction n with
  | zero =>
    intro s t h _ _ hc
    cases h
    exact hc
  | succ n ih =>
    intro s t h hq hin hc
    obtain ⟨s', hs, hrest⟩ := run_cases h
    have hnot : ¬ s.atReset := fun ⟨_, ws, rest, hi⟩ => hin (.reset ws) (by simp [hi]) ws rfl
    obtain ⟨hq', hsub⟩ := step_ports hs hq
    exact ih s' t hrest hq' (fun e he => hin e (hsub he)) (step_keeps_record hs hnot hc)

end Sys2Proof.Machine

/-! PROOFS. The reset event (R190), and that from a state of the invariant no host event stops the block (R15, R101, R206):
where a code is left, every command goes through. -/

namespace Sys2Proof.Machine

/-! ## The reset event (R190) -/

/-- The step of a reset event: the event is consumed with the words presented meanwhile. -/
theorem step_reset {s : State} {presented : List CmdWord} {rest : List HostEvent} (hq : s.request = none)
    (hin : s.input = .reset presented :: rest) : step s = .next (s.withInput rest).afterReset := by
  simp [step, fetch, hq, hin]

/-- Settles O3: the step of a reset event, whose result holds the reset values as literals. -/
theorem resetEventRestoresResetValues : Obligations.ResetEventRestoresResetValues :=
  fun _ _ _ hq hin => ⟨_, step_reset hq hin, rfl, rfl, rfl, rfl, rfl, rfl, rfl, rfl, rfl, rfl, rfl⟩

/-! ## Commands that go through -/

/-- A dictionary of the invariant that is not full has a free cell, an unbounded one while a 32-bit code is left (R108). -/
theorem Dict.Inv.lt_limit_of_codeLeft {cap : DictCap} {d : Dict} (hd : d.Inv cap)
    (hleft : cap = .unbounded → d.nextCode.toNat < 2 ^ 32) (hf : d.isFull cap = false) :
    d.nextCode.toNat < cap.limit := by
  rcases room_of_not_full hd hf with hlt | ⟨hunb, hn⟩
  · exact hlt
  · exact absurd hn (hleft hunb).ne

/-- `ENC.SYM` goes through: `D.LOOKUP` answers, and after a miss there is room or the fault `DICT_FULL` (R121). -/
theorem Encoder.Inv.exists_symRule {cap : DictCap} {e : Encoder} (hcap : cap.wf = true) (he : e.Inv cap)
    (hleft : cap = .unbounded → e.dict.nextCode.toNat < 2 ^ 32) (c : Symbol) : ∃ e', e.symRule cap c = .next e' := by
  cases hv : e.matchValid with
  | false => exact ⟨_, Encoder.symRule_of_noMatch hv⟩
  | true =>
    have hb := he.matchBound hv
    obtain ⟨r, hl, -, -⟩ := lookup_answers c hcap he.dict hb
    cases r with
    | hit k => exact ⟨_, Encoder.symRule_of_hit hv hl⟩
    | miss =>
      cases hf : e.dict.isFull cap with
      | true => exact ⟨_, Encoder.symRule_of_full hv hl hf⟩
      | false => exact ⟨_, Encoder.symRule_of_room hv hl hb hcap he.dict (he.dict.lt_limit_of_codeLeft hleft hf)⟩

/-- `DEC.CODE` goes through: a code that is not acceptable raises `INVALID_DATA`; an acceptable one has a String, and as a
subsequent code room or the fault `DICT_FULL` (R141). -/
theorem Decoder.Inv.exists_codeRule {cap : DictCap} {d : Decoder} (hcap : cap.wf = true) (hd : d.Inv cap)
    (hleft : cap = .unbounded → d.dict.nextCode.toNat < 2 ^ 32) (k : Code) : ∃ d', d.codeRule cap k = .next d' := by
  cases hv : d.prevValid with
  | false =>
    rcases lt_or_ge k.toNat d.dict.nextCode.toNat with hk | hk
    · obtain ⟨w, hw, -⟩ := str_spec hd.dict ((bound_iff _ k).2 hk)
      exact ⟨_, Decoder.codeRule_of_first_bound hv hw⟩
    · exact ⟨_, Decoder.codeRule_of_first_unbound hv hk⟩
  | true =>
    rcases le_or_gt k.toNat d.dict.nextCode.toNat with hk | hk
    · have hb := hd.prevBound hv
      obtain ⟨w, hw⟩ := Decoder.exists_entry hd.dict hb hk
      cases hf : d.dict.isFull cap with
      | true => exact ⟨_, hw.codeRule_of_full hd.dict hb hv hf⟩
      | false => exact ⟨_, hw.codeRule_of_room hd.dict hb hv hcap (hd.dict.lt_limit_of_codeLeft hleft hf)⟩
    · exact ⟨_, Decoder.codeRule_of_above hv hk⟩

section
variable {s : State} {kind : CmdKind} (v : Arg)

/-- A command of `ENC` goes through where its rule does: one that is not admitted is a next state (R123). -/
theorem exists_onEnc_judged {rule : Encoder → Result Encoder} (h : ∃ e', rule s.enc = .next e') :
    ∃ t, (s.onEnc fun e => e.judged kind v rule) = .next t := by
  cases ha : admission s.enc.ctl.state kind with
  | admitted =>
    obtain ⟨e', he⟩ := h
    exact ⟨_, (onEnc_judged_of_admitted v rule ha).trans (onEnc_of_next he)⟩
  | protocol => exact ⟨_, onEnc_judged_of_protocol v rule ha⟩
  | ignored => exact ⟨_, onEnc_judged_of_ignored v rule ha⟩

/-- A command of `DEC` goes through where its rule does (R143). -/
theorem exists_onDec_judged {rule : Decoder → Result Decoder} (h : ∃ d', rule s.dec = .next d') :
    ∃ t, (s.onDec fun d => d.judged kind v rule) = .next t := by
  cases ha : admission s.dec.ctl.state kind with
  | admitted =>
    obtain ⟨d', hd⟩ := h
    exact ⟨_, (onDec_judged_of_admitted v rule ha).trans (onDec_of_next hd)⟩
  | protocol => exact ⟨_, onDec_judged_of_protocol v rule ha⟩
  | ignored => exact ⟨_, onDec_judged_of_ignored v rule ha⟩

end

/-- Every command goes through in a state of the invariant, while a code is left. -/
theorem exists_exec_command {i : Instr} {s : State} (hs : s.Inv)
    (hleft : s.config.dictCap = .unbounded →
      s.enc.dict.nextCode.toNat < 2 ^ 32 ∧ s.dec.dict.nextCode.toNat < 2 ^ 32)
    (hu : commandUnit i ≠ none) : ∃ t, exec i s = .next t := by
  obtain ⟨u, hu⟩ := Option.ne_none_iff_exists'.1 hu
  cases u with
  | enc =>
    rcases encCommand_cases hu with rfl | ⟨c, rfl⟩ | rfl
    · exact exists_onEnc_judged _ ⟨_, rfl⟩
    · exact exists_onEnc_judged _ (hs.enc.exists_symRule hs.config (fun h => (hleft h).1) c)
    · exact exists_onEnc_judged _ ⟨_, rfl⟩
  | dec =>
    rcases decCommand_cases hu with rfl | ⟨k, rfl⟩ | rfl
    · exact exists_onDec_judged _ ⟨_, rfl⟩
    · exact exists_onDec_judged _ (hs.dec.exists_codeRule hs.config (fun h => (hleft h).2) k)
    · exact exists_onDec_judged _ ⟨_, rfl⟩

/-- Settles O46: no request stands between commands, so that a step is idle, a reset, a refused word or a command, and
every command goes through. -/
theorem hostEventsNeverStopTheBlock : Obligations.HostEventsNeverStopTheBlock := by
  intro s hs hleft
  rcases fetch_cases s with ⟨hf, -, -⟩ | ⟨ws, rest, -, hq, hi⟩ | ⟨w, rest, i, -, hq, hi, hd⟩ |
    ⟨w, rest, r, hf, -, -, -⟩ | ⟨u, w, i, -, hq, -⟩ | ⟨u, w, r, -, hq, -⟩
  · exact ⟨s, by rw [step, hf]⟩
  · exact ⟨_, step_reset hq hi⟩
  · rw [step_command hq hi hd]
    exact exists_exec_command (hs.withInput rest) hleft (decodeCommand_unit hd)
  · exact ⟨_, by rw [step, hf]⟩
  · simp [hs.port] at hq
  · simp [hs.port] at hq

end Sys2Proof.Machine

/-! PROOFS. Encoding and decoding are inverse to each other (R80 to R90), and a word presented to the block that decodes is
the instruction its next step runs (R33, R56, R88). -/

namespace Sys2Proof.Machine

/-! ## The formats (R82, R83, R88) -/

/-- Format N takes the zero operand alone (R82). -/
theorem formatN_eq_ok_iff {arg : Arg} {i j : Instr} : formatN arg i = .ok j ↔ arg = 0 ∧ i = j := by
  unfold formatN
  split
  next harg => rw [Except.ok.injEq, and_iff_right harg]
  next harg => simp only [harg, false_and, reduceCtorEq]

/-- Format S takes the operand word of a symbol alone (R83). -/
theorem formatS_eq_ok_iff {arg : Arg} {j : Instr} : formatS arg = .ok j ↔ ∃ c, arg = symArgWord c ∧ .encSym c = j := by
  unfold formatS
  constructor
  · intro h
    split at h
    next hhigh => exact ⟨argSym arg, (symArgWord_fields arg hhigh).symm, Except.ok.inj h⟩
    next => simp at h
  · rintro ⟨c, rfl, rfl⟩
    simp

/-- A request that has no symbol takes the zero symbol alone (R88). -/
theorem noSym_reqWord_eq_ok_iff {dop : BitVec 3} {k : Code} {c : Symbol} {i j : Instr} :
    noSym (reqWord dop k c) i = .ok j ↔ c = 0 ∧ i = j := by
  rw [noSym, reqSym_reqWord]
  split
  next hc => rw [Except.ok.injEq, and_iff_right hc]
  next hc => simp only [hc, false_and, reduceCtorEq]

/-- A request that has no operand takes the zero code and the zero symbol alone (R89). -/
theorem noOperand_reqWord_eq_ok_iff {dop : BitVec 3} {k : Code} {c : Symbol} {i j : Instr} :
    noOperand (reqWord dop k c) i = .ok j ↔ k = 0 ∧ c = 0 ∧ i = j := by
  rw [noOperand, reqCode_reqWord]
  split
  next hk => rw [noSym_reqWord_eq_ok_iff, and_iff_right hk]
  next hk => simp only [hk, false_and, reduceCtorEq]

/-! ## Decoding after encoding -/

/-- The word of an instruction has the fields the decoder asks for, format by format. -/
theorem decode_encode (i : Instr) : decode (encode i) = .ok i := by
  cases i with
  | encStart => exact formatN_eq_ok_iff.2 ⟨rfl, rfl⟩
  | encSym c => simpa [encode, decode, decodeCommand] using formatS_eq_ok_iff.2 ⟨c, rfl, rfl⟩
  | encEnd => exact formatN_eq_ok_iff.2 ⟨rfl, rfl⟩
  | decStart => exact formatN_eq_ok_iff.2 ⟨rfl, rfl⟩
  | decCode k => simp [encode, decode, decodeCommand]
  | decEnd => exact formatN_eq_ok_iff.2 ⟨rfl, rfl⟩
  | dSeed u => simp [encode, decode, decodeRequest, noOperand_reqWord_eq_ok_iff]
  | dBound u k => simp [encode, decode, decodeRequest, noSym_reqWord_eq_ok_iff]
  | dLookup u p c => simp [encode, decode, decodeRequest]
  | dInsert u p c => simp [encode, decode, decodeRequest]
  | dFetch u k => simp [encode, decode, decodeRequest, noSym_reqWord_eq_ok_iff]
  | dFirst u k => simp [encode, decode, decodeRequest, noSym_reqWord_eq_ok_iff]

/-- Settles O10, by the instruction: each format accepts the operand that the encoder gives it. -/
theorem decodeOfEncodeIsTheInstruction : Obligations.DecodeOfEncodeIsTheInstruction := decode_encode

/-! ## Encoding after decoding -/

/-- Format N leaves no bit of the operand open (R82). -/
theorem encode_of_formatN {op : BitVec 4} {arg : Arg} {i j : Instr} (hzero : encode i = .command (cmdWord op 0))
    (h : formatN arg i = .ok j) : encode j = .command (cmdWord op arg) := by
  obtain ⟨rfl, rfl⟩ := formatN_eq_ok_iff.1 h
  exact hzero

/-- A request that has no symbol leaves no bit of the symbol open (R88). -/
theorem encode_of_noSym {u : UnitId} {dop : BitVec 3} {k : Code} {c : Symbol} {i j : Instr}
    (hzero : encode i = .request u (reqWord dop k 0)) (h : noSym (reqWord dop k c) i = .ok j) :
    encode j = .request u (reqWord dop k c) := by
  obtain ⟨rfl, rfl⟩ := noSym_reqWord_eq_ok_iff.1 h
  exact hzero

/-- A command word that decodes holds no bit its instruction does not give (R80 to R85). -/
theorem encode_of_decode_cmdWord {op : BitVec 4} {arg : Arg} {i : Instr}
    (h : decode (.command (cmdWord op arg)) = .ok i) : encode i = .command (cmdWord op arg) := by
  simp only [decode, decodeCommand, cmdOp_cmdWord, cmdArg_cmdWord] at h
  split at h
  next hop =>
    obtain rfl : op = 1 := BitVec.eq_of_toNat_eq hop
    exact encode_of_formatN rfl h
  next hop =>
    obtain rfl : op = 2 := BitVec.eq_of_toNat_eq hop
    obtain ⟨c, rfl, rfl⟩ := formatS_eq_ok_iff.1 h
    rfl
  next hop =>
    obtain rfl : op = 3 := BitVec.eq_of_toNat_eq hop
    exact encode_of_formatN rfl h
  next hop =>
    obtain rfl : op = 5 := BitVec.eq_of_toNat_eq hop
    exact encode_of_formatN rfl h
  next hop =>
    obtain rfl : op = 6 := BitVec.eq_of_toNat_eq hop
    obtain rfl := Except.ok.inj h
    rfl
  next hop =>
    obtain rfl : op = 7 := BitVec.eq_of_toNat_eq hop
    exact encode_of_formatN rfl h
  next => simp at h

/-- A request word that decodes holds no bit its instruction does not give (R88 to R90). -/
theorem encode_of_decode_reqWord {u : UnitId} {dop : BitVec 3} {k : Code} {c : Symbol} {i : Instr}
    (h : decode (.request u (reqWord dop k c)) = .ok i) : encode i = .request u (reqWord dop k c) := by
  simp only [decode, decodeRequest, reqDop_reqWord, reqCode_reqWord, reqSym_reqWord] at h
  split at h
  next hdop =>
    obtain rfl : dop = 1 := BitVec.eq_of_toNat_eq hdop
    obtain ⟨rfl, rfl, rfl⟩ := noOperand_reqWord_eq_ok_iff.1 h
    rfl
  next hdop =>
    obtain rfl : dop = 2 := BitVec.eq_of_toNat_eq hdop
    exact encode_of_noSym rfl h
  next hdop =>
    obtain rfl : dop = 3 := BitVec.eq_of_toNat_eq hdop
    obtain rfl := Except.ok.inj h
    rfl
  next hdop =>
    obtain rfl : dop = 4 := BitVec.eq_of_toNat_eq hdop
    obtain rfl := Except.ok.inj h
    rfl
  next hdop =>
    obtain rfl : dop = 5 := BitVec.eq_of_toNat_eq hdop
    exact encode_of_noSym rfl h
  next hdop =>
    obtain rfl : dop = 6 := BitVec.eq_of_toNat_eq hdop
    exact encode_of_noSym rfl h
  next => simp at h

/-- Settles O11: a word is the assembly of its fields, and a field that decodes is the one its instruction encodes to. -/
theorem encodeOfDecodeIsTheWord : Obligations.EncodeOfDecodeIsTheWord := by
  intro p i h
  cases p with
  | command w =>
    rw [← cmdWord_fields w] at h ⊢
    exact encode_of_decode_cmdWord h
  | request u w =>
    rw [← reqWord_fields w] at h ⊢
    exact encode_of_decode_reqWord h

/-- A word decodes to the instruction whose word it is. -/
theorem decode_of_encode_eq {i : Instr} {p : PortWord} (h : encode i = p) : decode p = .ok i := h ▸ decode_encode i

/-- Settles O12: each word of the vectors is the word of its instruction. -/
theorem writtenOutWordsDecode : Obligations.WrittenOutWordsDecode := by
  refine ⟨?_, ?_, ?_, ?_, ?_, ?_, ?_, ?_, ?_, ?_, ?_, ?_⟩
  all_goals exact decode_of_encode_eq (by decide)

/-! ## The next step (R33, R56, R88, R191) -/

/-- The step of a request word that spells an instruction. -/
theorem step_request {s : State} {u : UnitId} {w : ReqWord} {i : Instr} (hq : s.request = some (u, w))
    (hd : decode (.request u w) = .ok i) : step s = exec i (s.withRequest none) := by
  simp [step, fetch, hq, hd]

/-- The step with nothing at the inputs. -/
theorem step_idle {s : State} (hq : s.request = none) (hin : s.input = []) : step s = .next s := by
  rw [step, (fetch_idle_iff s).2 ⟨hq, hin⟩]

/-- Settles O6: a command word, a request word and the idle block each have their step. -/
theorem stepRunsTheDecodedInstruction : Obligations.StepRunsTheDecodedInstruction :=
  ⟨fun _ _ _ _ hq hin hd => step_command hq hin hd, fun _ _ _ _ hq hd => step_request hq hd,
    fun _ hq hin => step_idle hq hin⟩

/-- A table word that decodes is the word of a port, and the decoder reads the instruction there. -/
theorem decodeTableWord_eq_some {nbits w : Nat} {i : Instr} (h : decodeTableWord nbits w = some i) :
    w < 2 ^ nbits ∧ ∃ p, tablePort w = some p ∧ decode p = .ok i := by
  unfold decodeTableWord at h
  split at h
  next hw =>
    refine ⟨hw, ?_⟩
    cases hp : tablePort w with
    | none => simp [hp] at h
    | some p =>
      cases hd : decode p with
      | error r => simp [hp, hd] at h
      | ok j =>
        obtain rfl : j = i := by simpa [hp, hd] using h
        exact ⟨p, rfl, hd⟩
  next => simp at h

/-- A table word is placed on its port. -/
theorem withFetchWord_of_tablePort {nbits w : Nat} {p : PortWord} (hw : w < 2 ^ nbits) (hp : tablePort w = some p)
    (s : State) : s.withFetchWord nbits w = s.place p := by
  rw [State.withFetchWord, State.placeTableWord, if_pos hw, hp]

/-- A word placed on its port is the next one taken, whatever stood there. -/
theorem step_place {p : PortWord} {i : Instr} (hd : decode p = .ok i) (s : State) :
    step (s.place p) = exec i (s.withRequest none) := by
  cases p with
  | command w => exact step_command rfl rfl hd
  | request u w => exact step_request rfl hd

/-- Settles O7: a table word that decodes is placed on its port, and a placed word is the next one taken. -/
theorem tableWordIsTheNextInstruction : Obligations.TableWordIsTheNextInstruction := by
  intro s nbits w i h
  obtain ⟨hw, p, hp, hd⟩ := decodeTableWord_eq_some h
  rw [withFetchWord_of_tablePort hw hp]
  exact step_place hd s

end Sys2Proof.Machine
